-- ==== Sys2Proof/Word.lean ====
section
/-! DEFINITION. The word type of the block: every register, buffer word and delay cell is one
32-bit word (R10, R22), and the window as the host may view it has 8-bit lanes (R43). -/

namespace Sys2Proof

/-- One 32-bit word: a register, a sample, a command (R22, R34, R56). -/
abbrev Word := BitVec 32

/-- One byte lane of a word (R43). -/
abbrev Byte := BitVec 8

end Sys2Proof
end

