-- ==== Sys2Proof/Syntax.lean ====
section
/-! DEFINITION. The commands of the block: one constructor per row of the opcode table (R58). -/

namespace Sys2Proof

/-- The ten commands (R58). An operand is the SEL field read as an unsigned integer (R57): a channel
for the DL commands, a parameter id for the two PARAM commands. Every other operand of a command
comes from a register. -/
inductive Instr where
  /-- VIB_INIT (R83). -/
  | vibInit
  /-- VIB_PROCESS (R85). -/
  | vibProcess
  /-- VIB_RESET (R87). -/
  | vibReset
  /-- DL_WRITE, SEL = channel (R72). -/
  | dlWrite (channel : Nat)
  /-- DL_READ, SEL = channel (R73). -/
  | dlRead (channel : Nat)
  /-- PPM_INIT (R99). -/
  | ppmInit
  /-- PPM_PROCESS (R103). -/
  | ppmProcess
  /-- PPM_RESET (R104). -/
  | ppmReset
  /-- PPM_SETPARAM, SEL = parameter id (R101). -/
  | ppmSetParam (param : Nat)
  /-- PPM_GETPARAM, SEL = parameter id (R102). -/
  | ppmGetParam (param : Nat)
deriving DecidableEq, Repr

end Sys2Proof
end

