-- ==== Sys2Proof/WellFormed.lean ====
section
/-! DEFINITION. Which commands have a command word: the selector must fit the 8 bits of SEL (R56). -/

namespace Sys2Proof

/-- The selector of a command, 0 for the rows whose SEL must be 0 (R58). -/
def Instr.sel : Instr → Nat
  | .vibInit => 0
  | .vibProcess => 0
  | .vibReset => 0
  | .dlWrite c => c
  | .dlRead c => c
  | .ppmInit => 0
  | .ppmProcess => 0
  | .ppmReset => 0
  | .ppmSetParam p => p
  | .ppmGetParam p => p

/-- A command is well formed when its selector fits SEL, bits 15:8 (R56, R57). A selector that is
out of range for its command is well formed: R61 has the command itself reject it. -/
def Instr.wellFormed (i : Instr) : Bool := decide (i.sel < 2 ^ 8)

end Sys2Proof
end

