-- ==== Sys2Proof/Decode.lean ====
section
/-! DEFINITION. The decoder of command words, total, rejecting by name (R56 to R61), and the
encoder beside it (R58, R64). -/

namespace Sys2Proof

/-- Why a command word is illegal: the three clauses of R60, in the order the decoder tests them. -/
inductive Illegal where
  /-- OP is not one of the ten values of R58 (R60 clause 1, R61). -/
  | reservedOp
  /-- RSV is not 0 (R60 clause 2). -/
  | reservedBits
  /-- SEL is not 0 for a command whose SEL must be 0 (R60 clause 3). -/
  | unusedSelector
deriving DecidableEq, Repr

/-- OP, bits 7:0 of a command word (R56). -/
def opField (w : Word) : Nat := (w.extractLsb' 0 8).toNat

/-- SEL, bits 15:8, read as an unsigned integer (R56, R57). -/
def selField (w : Word) : Nat := (w.extractLsb' 8 8).toNat

/-- RSV, bits 31:16 (R56). -/
def rsvField (w : Word) : Nat := (w.extractLsb' 16 16).toNat

/-- The command an OP names, with the selector it is given, and whether the row of R58 says that SEL
must be 0. `none` for a reserved OP (R61). -/
def opRow (op sel : Nat) : Option (Instr × Bool) :=
  match op with
  | 0x01 => some (.vibInit, true)
  | 0x02 => some (.vibProcess, true)
  | 0x03 => some (.vibReset, true)
  | 0x04 => some (.dlWrite sel, false)
  | 0x05 => some (.dlRead sel, false)
  | 0x11 => some (.ppmInit, true)
  | 0x12 => some (.ppmProcess, true)
  | 0x13 => some (.ppmReset, true)
  | 0x14 => some (.ppmSetParam sel, false)
  | 0x15 => some (.ppmGetParam sel, false)
  | _ => none

/-- R60's `decode`: the command is selected by OP alone, then RSV = 0 is checked, then SEL = 0 for
the rows that say "must be 0" (R58). -/
def decode (w : Word) : Except Illegal Instr :=
  match opRow (opField w) (selField w) with
  | none => .error .reservedOp
  | some (i, selMustBeZero) =>
    if rsvField w ≠ 0 then .error .reservedBits
    else if selMustBeZero = true ∧ selField w ≠ 0 then .error .unusedSelector
    else .ok i

/-- The OP value of a command (R58). -/
def opCode : Instr → Nat
  | .vibInit => 0x01
  | .vibProcess => 0x02
  | .vibReset => 0x03
  | .dlWrite _ => 0x04
  | .dlRead _ => 0x05
  | .ppmInit => 0x11
  | .ppmProcess => 0x12
  | .ppmReset => 0x13
  | .ppmSetParam _ => 0x14
  | .ppmGetParam _ => 0x15

/-- The command word of a well-formed command: its match with SEL in bits 15:8 (R58, R64). -/
def encode (i : Instr) : Word :=
  BitVec.ofNat 32 (opCode i) ||| (BitVec.ofNat 32 i.sel <<< 8)

/-- The command the decoder reads from an instruction whose bits are `w`, bit 0 the least
significant bit of the command word, every bit from `nbits` up being 0. A command is one 32-bit
word (R62), so a number that needs more bits is no command. -/
def decodeTableWord (nbits w : Nat) : Option Instr :=
  if w % 2 ^ nbits < 2 ^ 32 then
    match decode (BitVec.ofNat 32 (w % 2 ^ nbits)) with
    | .ok i => some i
    | .error _ => none
  else none

end Sys2Proof
end

