-- ==== Sys2Proof/Config.lean ====
section
/-! DEFINITION. What an implementation of the block fixes (R9, R53), and the free values: what
the spec leaves to the configuration (R17) or leaves unspecified (R125). -/

namespace Sys2Proof

/-- The implementation parameters of R9 and the base address of R53. A model takes each of them
as an argument, so they stand in `State`, where no step changes them (log 1). -/
structure Params where
  /-- NCH_MAX: the largest channel count either unit accepts at INIT. -/
  nchMax : Nat
  /-- BLK_MAX: the largest frame count one PROCESS command accepts. -/
  blkMax : Nat
  /-- CAP_MAX: cells of delay memory per channel. -/
  capMax : Nat
  /-- BASE: the platform's base address of the window (R53). -/
  base : Nat
deriving DecidableEq, Repr

/-- R9's decided defaults. The spec leaves BASE open; 0 here is a DESIGN CHOICE (log 1). -/
def Params.default : Params := { nchMax := 8, blkMax := 2048, capMax := 16384, base := 0 }

/-- The legal ranges of R9. -/
def Params.legal (p : Params) : Bool :=
  decide (1 ≤ p.nchMax) && decide (p.nchMax ≤ 16) &&
  decide (1 ≤ p.blkMax) && decide (p.blkMax ≤ 16384) &&
  decide (p.nchMax * p.blkMax ≤ 16384) &&
  decide (2 ≤ p.capMax) && decide (p.capMax ≤ 2 ^ 24)

/-- The four configuration functions of R17, from binary32 to binary32. The primitives that need
one take this structure as an argument. -/
structure Functions where
  sin : Word → Word
  exp : Word → Word
  ln : Word → Word
  log10 : Word → Word

/-- A free value: what an implementation's SIN answers, before R17's properties are imposed on it
(`Sys2Proof.F32.legalSin`, log 2). -/
opaque Config.sinRaw : Word → Word

/-- A free value: what an implementation's EXP answers, before R17's properties (log 2). -/
opaque Config.expRaw : Word → Word

/-- A free value: what an implementation's LN answers, before R17's properties (log 2). -/
opaque Config.lnRaw : Word → Word

/-- A free value: what an implementation's LOG10 answers, before R17's properties (log 2). -/
opaque Config.log10Raw : Word → Word

/-- A free value: the byte at an offset of the sample buffers in the k-th draw of their contents, before
anything writes it, of the instance whose window starts at a base address: the arguments are the base
address, the number of the draw and the offset (R125, log 4). DESIGN CHOICE: the spec does not relate
the unspecified contents of two instances (R55); here instances of different base addresses have
unrelated ones, and states of one base address and one draw number the same ones (log 14). -/
opaque Config.bufferDraw : Nat → Nat → Nat → Byte

end Sys2Proof
end

