-- ==== Sys2Proof/Machine/State.lean ====
section
/-! DEFINITION. The state of the block as plain data, holding every piece of state the spec gives it
(R20, R22, R33, R34, R40), and the state after hardware reset (R124). -/

namespace Sys2Proof.Machine

/-- A sparse array: the entries listed, keys rising, no entry equal to what an unlisted key reads
as (`Cells.wf`). -/
abbrev Cells (β : Type) := List (Nat × β)

/-- The byte memory of the sample buffers: byte offsets of the host window (R34, R43). An unlisted
byte has not been written since the last hardware reset (log 5). -/
abbrev Memory := Cells Byte

/-- The result codes of R112. Codes 5 to 7 are never produced. -/
inductive ErrCode where
  /-- NoError, 0. -/
  | noError
  /-- NotInitialized, 1. -/
  | notInitialized
  /-- InvalidArgs, 2. -/
  | invalidArgs
  /-- UnknownError, 3. -/
  | unknownError
  /-- IllegalCommand, 4. -/
  | illegalCommand
deriving DecidableEq, Repr

/-- One channel's delay line (R65): the write index VIB_WIDX[c] (R31) and the cells DL[c][k] (R33).
An unlisted cell holds +0. -/
structure Line where
  widx : Word
  cells : Cells Word
deriving DecidableEq, Repr

/-- A cleared line: write index 0, every cell +0 (R82, R124). -/
def Line.empty : Line := { widx := 0, cells := [] }

/-- The vibrato unit: STATUS.VINIT (R25), the staging registers (R29), the latched and state
registers (R30), and one delay line per channel (R65). An unlisted line is a cleared one. -/
structure Vib where
  init : Bool
  fs : Word
  nch : Word
  freq : Word
  width : Word
  amp : Word
  aFs : Word
  aNch : Word
  cap : Word
  cdelay : Word
  amps : Word
  pinc : Word
  phase : Word
  lines : Cells Line
deriving DecidableEq, Repr

/-- The PPM unit: STATUS.PINIT (R25), the staging registers with PPM_CTRL's MODE and DB bits (R35),
the latched registers (R36), PPM_PREV (R37) and PPM_OUT (R38). An unlisted channel holds +0. -/
structure Ppm where
  init : Bool
  fs : Word
  nch : Word
  mode : Bool
  db : Bool
  aFs : Word
  aNch : Word
  aMode : Bool
  acoef : Word
  rcoef : Word
  prev : Cells Word
  out : Cells Word
deriving DecidableEq, Repr

/-- The words of the host window that are not reserved (R22), by name. -/
inductive Reg where
  | cmd | status | arg | result | frames
  | vibFs | vibNch | vibFreq | vibWidth | vibAmp
  | vibAFs | vibANch | vibCap | vibCdelay | vibAmps | vibPinc | vibPhase
  | ppmFs | ppmNch | ppmCtrl
  | ppmAFs | ppmANch | ppmAMode | ppmAcoef | ppmRcoef
  | vibWidx (c : Nat) | ppmPrev (c : Nat) | ppmOut (c : Nat)
  | inWord (c n : Nat) | outWord (c n : Nat)
deriving DecidableEq, Repr

/-- What the outside can do to the block: a 32-bit bus read or write at an address (R42), or an
assertion of the reset input (R123). No narrower access exists (R42). -/
inductive BusEvent where
  | read (addr : Nat)
  | write (addr : Nat) (v : Word)
  | reset
deriving DecidableEq, Repr

/-- The whole machine. `cfg`, `draws`, `pending` and `rdata` are the model's own fields (log 1, 4
and 7), all others are the spec's. -/
structure State where
  /-- The implementation parameters (R9, R53); no step changes them. -/
  cfg : Params
  /-- CMD (R24). -/
  cmd : Word
  /-- STATUS.ERR (R25). -/
  err : ErrCode
  /-- ARG (R26). -/
  arg : Word
  /-- RESULT (R27). -/
  result : Word
  /-- FRAMES (R28). -/
  frames : Word
  /-- The vibrato unit and STATUS.VINIT. -/
  vib : Vib
  /-- The PPM unit and STATUS.PINIT. -/
  ppm : Ppm
  /-- The sample buffers IN and OUT (R34). -/
  buf : Memory
  /-- Which draw of the buffers' unspecified contents is current (R125). -/
  draws : Nat
  /-- The host's accesses still to be performed, in issue order (R48). -/
  pending : List BusEvent
  /-- The word the last host read returned, if there was a read. -/
  rdata : Option Word
deriving DecidableEq, Repr

/-- Why the machine stops with a fault. -/
inductive Fault where
  /-- Raised by a host access at an address outside [BASE, BASE + 0x30000), which the block does
  not decode (R22, R41). Safe: the model stops where the block takes no part (log 8). -/
  | outsideWindow (addr : Nat)
deriving DecidableEq, Repr

/-- Why an instruction has no meaning. -/
inductive Refusal where
  /-- Raised by an arm of `exec` whose instruction has no meaning yet. No arm raises it. Safe. -/
  | notModelled (mnemonic : String)
deriving DecidableEq, Repr

/-- The vibrato unit after reset (R124): every register 0, every cell +0, not initialized. -/
def Vib.reset : Vib :=
  { init := false, fs := 0, nch := 0, freq := 0, width := 0, amp := 0, aFs := 0, aNch := 0,
    cap := 0, cdelay := 0, amps := 0, pinc := 0, phase := 0, lines := [] }

/-- The PPM unit after reset (R124): every register 0, every PPM_PREV and PPM_OUT +0. -/
def Ppm.reset : Ppm :=
  { init := false, fs := 0, nch := 0, mode := false, db := false, aFs := 0, aNch := 0,
    aMode := false, acoef := 0, rcoef := 0, prev := [], out := [] }

/-- The block right after hardware reset (R124), with R9's default parameters (log 1), draw 0 of the
buffers' contents (log 4), and a host that has issued nothing (log 7). -/
def State.reset : State :=
  { cfg := Params.default, cmd := 0, err := .noError, arg := 0, result := 0, frames := 0,
    vib := Vib.reset, ppm := Ppm.reset, buf := [], draws := 0, pending := [], rdata := none }

/-- How a command or an access ends. -/
abbrev Result := Host.Outcome State Fault Refusal

end Sys2Proof.Machine
end

