-- ==== Sys2Proof/Machine/Binary32.lean ====
section
/-! DEFINITION. IEEE 754 binary32 arithmetic on 32-bit words (R10 to R16), exact then rounded once.
Every finite binary32 value is a whole multiple of 2^-149, so a magnitude is a natural number of
such units, and a rounded magnitude is computed from an exact quotient of natural numbers. -/

namespace Sys2Proof.F32

/-- The canonical quiet NaN (R13). -/
def qNaN : Word := 0x7FC00000#32
def posZero : Word := 0x00000000#32
def negZero : Word := 0x80000000#32
def posInf : Word := 0x7F800000#32
def negInf : Word := 0xFF800000#32

/-- The named constants of R16. -/
def TWO_PI : Word := 0x40C90FDB#32
def K22 : Word := 0xC00CCCCD#32
def T_AT_DEF : Word := 0x3C23D70A#32
def T_RT_DEF : Word := 0x3FC00000#32
def T_AT_MAX : Word := 0x3CA3D70A#32
def T_RT_MAX : Word := 0x40000000#32
def K20 : Word := 0x41A00000#32
def HALF : Word := 0x3F000000#32
def ONE : Word := 0x3F800000#32

/-- The sign, bit 31 (R10). -/
def sign (w : Word) : Bool := w.msb

/-- Bits 30:0: the biased exponent and the fraction (R10). -/
def absBits (w : Word) : Nat := w.toNat % 2 ^ 31

/-- The magnitude in units of 2^-149, from exponent and fraction (R10). An infinity gets the
magnitude 2^277, above every finite one. -/
def mag (w : Word) : Nat :=
  if absBits w / 2 ^ 23 = 0 then absBits w
  else (absBits w % 2 ^ 23 + 2 ^ 23) * 2 ^ (absBits w / 2 ^ 23 - 1)

/-- The signed value in units of 2^-149. -/
def val (w : Word) : Int := if sign w then -(mag w : Int) else (mag w : Int)

/-- R14. -/
def isNaN (w : Word) : Bool := decide (0x7F800000 < absBits w)

/-- ±∞. -/
def isInf (w : Word) : Bool := decide (absBits w = 0x7F800000)

/-- R14. -/
def isFinite (w : Word) : Bool := decide (absBits w < 0x7F800000)

/-- ±0. -/
def isZero (w : Word) : Bool := decide (absBits w = 0)

/-- Put a sign before 31 magnitude bits (R10). -/
def pack (neg : Bool) (bits : Nat) : Word := BitVec.ofNat 32 (if neg then 2 ^ 31 + bits else bits)

/-- A quotient rounded to the nearest natural number, ties to even. -/
def roundDiv (num den : Nat) : Nat :=
  if 2 * (num % den) < den then num / den
  else if den < 2 * (num % den) then num / den + 1
  else num / den + (num / den) % 2

/-- R12's rn on magnitudes: the bits 30:0 of num/den units of 2^-149, rounded once to nearest, ties to
even, overflow giving an infinity. With k the exponent step in which the quotient lies, the bits
are k·2^23 plus the significand; a carry of the rounding runs into the exponent by itself. -/
def roundMag (num den : Nat) : Nat :=
  min 0x7F800000
    ((Nat.log2 (num / den) - 23) * 2 ^ 23 + roundDiv num (den * 2 ^ (Nat.log2 (num / den) - 23)))

/-- Negation: bit 31 inverted. -/
def neg (w : Word) : Word := w ^^^ negZero

/-- `fadd` (R12, R13). The sum of two finite values is a whole number of units, so it is zero only when
exact; an exact zero is +0 unless both operands are −0 (IEEE 754, log 16). -/
def fadd (a b : Word) : Word :=
  if isNaN a || isNaN b then qNaN
  else if isInf a then (if isInf b && (sign a != sign b) then qNaN else a)
  else if isInf b then b
  else if val a + val b = 0 then (if sign a && sign b then negZero else posZero)
  else pack (decide (val a + val b < 0)) (roundMag (val a + val b).natAbs 1)

/-- `fsub` (R12, R13): a − b = a + (−b). -/
def fsub (a b : Word) : Word := fadd a (neg b)

/-- `fmul` (R12, R13). -/
def fmul (a b : Word) : Word :=
  if isNaN a || isNaN b then qNaN
  else if isInf a || isInf b then
    (if isZero a || isZero b then qNaN else pack (sign a != sign b) 0x7F800000)
  else pack (sign a != sign b) (roundMag (mag a * mag b) (2 ^ 149))

/-- `fdiv` (R12, R13): a nonzero number divided by ±0 is an infinity, 0÷0 and ∞÷∞ are NaN. -/
def fdiv (a b : Word) : Word :=
  if isNaN a || isNaN b then qNaN
  else if isInf a then (if isInf b then qNaN else pack (sign a != sign b) 0x7F800000)
  else if isInf b then pack (sign a != sign b) 0
  else if isZero b then (if isZero a then qNaN else pack (sign a != sign b) 0x7F800000)
  else pack (sign a != sign b) (roundMag (mag a * 2 ^ 149) (mag b))

/-- `a < b` (R14): false when an operand is NaN; −0 equals +0. -/
def flt (a b : Word) : Bool := !isNaN a && !isNaN b && decide (val a < val b)

/-- `a ≤ b` (R14). -/
def fle (a b : Word) : Bool := !isNaN a && !isNaN b && decide (val a ≤ val b)

/-- `a == b` (R14). -/
def feq (a b : Word) : Bool := !isNaN a && !isNaN b && decide (val a = val b)

/-- `a > b` (R14). -/
def fgt (a b : Word) : Bool := flt b a

/-- `a ≥ b` (R14). -/
def fge (a b : Word) : Bool := fle b a

/-- `fabs` (R15): bit 31 cleared and no other bit changed. -/
def fabs (w : Word) : Word := w &&& 0x7FFFFFFF#32

/-- `floor` for finite a ≥ 0 (R15). -/
def floor (w : Word) : Nat := mag w / 2 ^ 149

/-- `ceil` for finite a ≥ 0 (R15). -/
def ceil (w : Word) : Nat := (mag w + (2 ^ 149 - 1)) / 2 ^ 149

/-- `float` of an unsigned integer (R15). -/
def ofNat (i : Nat) : Word := pack false (roundMag (i * 2 ^ 149) 1)

/-- R13 for the configuration functions: a NaN result is the canonical one. -/
def canon (w : Word) : Word := if isNaN w then qNaN else w

/-- R17 imposed on any function: SIN-1 and SIN-2. A function that has the properties is left as it is
(obligation ConfigurationIsAnyLegalOne), so SIN is an arbitrary function with them (log 2). -/
def legalSin (raw : Word → Word) (x : Word) : Word :=
  if x = posZero then posZero
  else if isFinite x then
    (if fle (neg ONE) (raw x) && fle (raw x) ONE then raw x else posZero)
  else canon (raw x)

/-- R17 imposed on any function: EXP-1 to EXP-4 (log 2). -/
def legalExp (raw : Word → Word) (x : Word) : Word :=
  if isNaN x then qNaN
  else if x = negInf then posZero
  else if isZero x then ONE
  else if fle x posZero then
    (if fle posZero (raw x) && fle (raw x) ONE then raw x else posZero)
  else canon (raw x)

/-- R17 imposed on any function: LN-1 to LN-3 (log 2). -/
def legalLn (raw : Word → Word) (x : Word) : Word :=
  if isZero x then negInf
  else if x = ONE then posZero
  else if flt posZero x && flt x ONE then
    (if isFinite (raw x) && flt (raw x) posZero then raw x else neg ONE)
  else canon (raw x)

/-- R17 imposed on any function: LOG10-1 to LOG10-5 (log 2). -/
def legalLog10 (raw : Word → Word) (x : Word) : Word :=
  if isNaN x then qNaN
  else if x = posZero then negInf
  else if x = ONE then posZero
  else if x = posInf then posInf
  else if flt posZero x then (if isFinite (raw x) then raw x else posZero)
  else canon (raw x)

/-- The configuration functions of this implementation: free but for R17 and R13 (log 2). DESIGN CHOICE:
R9, R17 and R55 do not say whether the instances of a platform share them; here every instance has these
same four functions, whatever its parameters (log 2, log 14). -/
def config : Functions :=
  { sin := legalSin Config.sinRaw, exp := legalExp Config.expRaw,
    ln := legalLn Config.lnRaw, log10 := legalLog10 Config.log10Raw }

end Sys2Proof.F32
end

