-- ==== Sys2Proof/Machine/Cells.lean ====
section
/-! DEFINITION. Sparse arrays in one canonical form: keys strictly rising, and no entry equal to the
fill, which is what an unlisted key reads as. The sample buffers have no fill (a byte nothing has
written, log 5); delay cells, delay lines and the per-channel registers have their reset value. -/

namespace Sys2Proof.Machine

/-- The listed entry at a key, if there is one. -/
def Cells.lookup {β : Type} : Cells β → Nat → Option β
  | [], _ => none
  | (k, v) :: m, a => if a = k then some v else Cells.lookup m a

/-- Read a key, an unlisted one giving `d`. -/
def Cells.read {β : Type} (d : β) (m : Cells β) (a : Nat) : β := (Cells.lookup m a).getD d

/-- List an entry, in the place its key has in the rising order. -/
def Cells.insert {β : Type} : Cells β → Nat → β → Cells β
  | [], a, b => [(a, b)]
  | (k, v) :: m, a, b =>
    if a < k then (a, b) :: (k, v) :: m
    else if a = k then (a, b) :: m
    else (k, v) :: Cells.insert m a b

/-- Make a key unlisted. -/
def Cells.erase {β : Type} (m : Cells β) (a : Nat) : Cells β := m.filter (fun e => e.1 != a)

/-- Write a key, keeping the canonical form: writing the fill makes the key unlisted. -/
def Cells.write {β : Type} [DecidableEq β] (fill : Option β) (m : Cells β) (a : Nat) (b : β) :
    Cells β :=
  if fill = some b then Cells.erase m a else Cells.insert m a b

/-- The keys rise strictly. -/
def Cells.sorted {β : Type} : Cells β → Bool
  | [] => true
  | (k, _) :: m => m.all (fun e => decide (k < e.1)) && Cells.sorted m

/-- The canonical form. -/
def Cells.wf {β : Type} [DecidableEq β] (fill : Option β) (m : Cells β) : Bool :=
  Cells.sorted m && m.all (fun e => decide (fill ≠ some e.2))

/-- The canonical form of the sample buffers' memory. -/
def Memory.wf (m : Memory) : Bool := Cells.wf none m

/-- A word-valued array whose unlisted keys hold 0 (delay cells, PPM_PREV, PPM_OUT). -/
def Cells.word (m : Cells Word) (a : Nat) : Word := Cells.read 0 m a

/-- Write a word into an array whose unlisted keys hold 0. -/
def Cells.setWord (m : Cells Word) (a : Nat) (w : Word) : Cells Word := Cells.write (some 0) m a w

end Sys2Proof.Machine
end

