-- ==== Sys2Proof/Machine/Flags.lean ====
section
/-! DEFINITION. STATUS, the block's only flag register (R25), the error codes (R112), and how a command
ends: with an error (R113) or with success. -/

namespace Sys2Proof.Machine

/-- The numbers of R112. -/
def ErrCode.code : ErrCode → Nat
  | .noError => 0
  | .notInitialized => 1
  | .invalidArgs => 2
  | .unknownError => 3
  | .illegalCommand => 4

/-- A flag as the value of one bit. -/
def bit (b : Bool) : Nat := if b then 1 else 0

/-- STATUS as the host reads it: ERR in bits 2:0, VINIT in bit 8, PINIT in bit 9, all others 0 (R25). -/
def State.status (s : State) : Word :=
  BitVec.ofNat 32 (s.err.code + 2 ^ 8 * bit s.vib.init + 2 ^ 9 * bit s.ppm.init)

/-- PPM_CTRL as the host reads it: MODE in bit 0, DB in bit 1, all others 0 (R35). -/
def Ppm.ctrl (p : Ppm) : Word := BitVec.ofNat 32 (bit p.mode + 2 * bit p.db)

/-- PPM_A_MODE as the host reads it: MODE in bit 0, all others 0 (R36). -/
def Ppm.aModeWord (p : Ppm) : Word := BitVec.ofNat 32 (bit p.aMode)

/-- Write STATUS.ERR (R25). -/
def State.setErr (s : State) (e : ErrCode) : State := { s with err := e }

/-- `raise E()` (R113): the command ends, E's code is in STATUS.ERR, nothing else changes. -/
def State.raise (s : State) (e : ErrCode) : Result := .next (s.setErr e)

/-- `finish`: the command ends with STATUS.ERR = NoError (00_scope.md section 6, R112). -/
def State.finish (s : State) : Result := .next (s.setErr .noError)

end Sys2Proof.Machine
end

