-- ==== Sys2Proof/Machine/Ops.lean ====
section
/-! DEFINITION. The named operations over registers, delay lines and sample buffers. The block takes no
trap (R117): its one error path is `State.raise`, and there is nothing to return from. -/

namespace Sys2Proof.Machine

/-! ### Named register updates -/

/-- Write RESULT (R27). -/
def State.setResult (s : State) (w : Word) : State := { s with result := w }

/-- Replace the vibrato unit's state. -/
def State.setVib (s : State) (v : Vib) : State := { s with vib := v }

/-- Replace the PPM unit's state. -/
def State.setPpm (s : State) (p : Ppm) : State := { s with ppm := p }

/-- Replace the sample buffers' contents. -/
def State.setBuf (s : State) (m : Memory) : State := { s with buf := m }

/-- Replace the delay lines. -/
def Vib.setLines (v : Vib) (ls : Cells Line) : Vib := { v with lines := ls }

/-- Write VIB_PHASE (R30). -/
def Vib.setPhase (v : Vib) (p : Word) : Vib := { v with phase := p }

/-! ### Sample buffers (R34, R43) -/

/-- Offset of IN[c][n] in the window (R22, R34). -/
def inOffset (p : Params) (c n : Nat) : Nat := 0x10000 + 4 * (c * p.blkMax + n)

/-- Offset of OUT[c][n] in the window (R22, R34). -/
def outOffset (p : Params) (c n : Nat) : Nat := 0x20000 + 4 * (c * p.blkMax + n)

/-- Byte i of a word, little-endian (R43). -/
def byteOf (w : Word) (i : Nat) : Byte := w.extractLsb' (8 * i) 8

/-- The word whose bytes 0 to 3 are given, little-endian (R43). -/
def wordOf (b0 b1 b2 b3 : Byte) : Word := b3 ++ b2 ++ b1 ++ b0

/-- Read one byte of the sample buffers: what was last written there, or the current draw of this
instance's unspecified contents (R125, log 4). DESIGN CHOICE: the base address tells instances apart, so
the draws of two instances of a platform are unrelated, a point R55 and R125 leave open (log 14). -/
def State.bufByte (s : State) (a : Nat) : Byte :=
  Cells.read (Config.bufferDraw s.cfg.base s.draws a) s.buf a

/-- Read the word at an offset of the sample buffers. -/
def State.bufWord (s : State) (a : Nat) : Word :=
  wordOf (s.bufByte a) (s.bufByte (a + 1)) (s.bufByte (a + 2)) (s.bufByte (a + 3))

/-- Write the word at an offset of the sample buffers. -/
def Memory.setWord (m : Memory) (a : Nat) (w : Word) : Memory :=
  Cells.write none
    (Cells.write none
      (Cells.write none
        (Cells.write none m a (byteOf w 0))
        (a + 1) (byteOf w 1))
      (a + 2) (byteOf w 2))
    (a + 3) (byteOf w 3)

/-- IN[c][n] (R34). -/
def State.readIn (s : State) (c n : Nat) : Word := s.bufWord (inOffset s.cfg c n)

/-- OUT[c][n] (R34). -/
def State.readOut (s : State) (c n : Nat) : Word := s.bufWord (outOffset s.cfg c n)

/-- OUT[c][n] <- w (R34). -/
def State.writeOut (s : State) (c n : Nat) (w : Word) : State :=
  s.setBuf (Memory.setWord s.buf (outOffset s.cfg c n) w)

/-- IN[c][n] <- w, by the host only (R34). -/
def State.writeIn (s : State) (c n : Nat) (w : Word) : State :=
  s.setBuf (Memory.setWord s.buf (inOffset s.cfg c n) w)

/-! ### One delay line (R65 to R70) -/

/-- `DLwrite` on a line of capacity `cap` (R66): the word goes unchanged into the cell at the write
index, then the index advances with wrap-around. -/
def Line.write (cap : Nat) (l : Line) (v : Word) : Line :=
  { widx := BitVec.ofNat 32 ((l.widx.toNat + 1) % cap)
    cells := Cells.setWord l.cells l.widx.toNat v }

/-- `tap(c, k)` (R67): the word written k writes before the most recent one. -/
def Line.tap (cap : Nat) (l : Line) (k : Nat) : Word :=
  Cells.word l.cells ((l.widx.toNat + cap - 1 - k) % cap)

/-- The linear interpolator (R68). DEDUCED (log 21): a NaN tap beside an infinite one gives the canonical
NaN, though R73 names an infinity for an infinite tap. -/
def interp (a b f : Word) : Word :=
  F32.fadd (F32.fmul (F32.fsub F32.ONE f) a) (F32.fmul f b)

/-- A valid delay for a capacity (R69). -/
def validDelay (d : Word) (cap : Nat) : Bool :=
  !F32.isNaN d && F32.fge d F32.posZero && F32.fle d (F32.ofNat (cap - 1))

/-- `DLread` (R70): a whole-number delay gives its tap unchanged, a fractional one interpolates
between two neighbouring taps. The spec defines it for valid delays (R69) only (log 11). -/
def Line.read (cap : Nat) (l : Line) (d : Word) : Word :=
  let i := F32.floor d
  let f := F32.fsub d (F32.ofNat i)
  if F32.feq f F32.posZero then l.tap cap i
  else interp (l.tap cap i) (l.tap cap (i + 1)) f

/-! ### The delay lines of the channels -/

/-- Channel c's delay line (R65). -/
def Vib.line (v : Vib) (c : Nat) : Line := Cells.read Line.empty v.lines c

/-- Replace channel c's delay line. -/
def Vib.setLine (v : Vib) (c : Nat) (l : Line) : Vib :=
  v.setLines (Cells.write (some Line.empty) v.lines c l)

/-- `DLwrite(c, w)` (R66). -/
def State.dlWrite (s : State) (c : Nat) (w : Word) : State :=
  s.setVib (s.vib.setLine c ((s.vib.line c).write s.vib.cap.toNat w))

/-- `DLread(c, d)` (R70). -/
def State.dlRead (s : State) (c : Nat) (d : Word) : Word := (s.vib.line c).read s.vib.cap.toNat d

/-! ### Clearing a unit -/

/-- `vib_clear()` (R82). Every line of every channel is cleared; the staging registers stay. -/
def Vib.clear (v : Vib) : Vib :=
  { v with init := false, aFs := 0, aNch := 0, cap := 0, cdelay := 0, amps := 0, pinc := 0,
           phase := 0, lines := [] }

/-- `ppm_clear()` (R98). PPM_FS, PPM_NCH and PPM_CTRL stay. -/
def Ppm.clear (p : Ppm) : Ppm :=
  { p with init := false, aFs := 0, aNch := 0, aMode := false, acoef := 0, rcoef := 0,
           prev := [], out := [] }

/-- `vib_clear()` on the whole state (R82). -/
def State.vibClear (s : State) : State := s.setVib s.vib.clear

/-- `ppm_clear()` on the whole state (R98). -/
def State.ppmClear (s : State) : State := s.setPpm s.ppm.clear

end Sys2Proof.Machine
end

