-- ==== Sys2Proof/Machine/Operands.lean ====
section
/-! DEFINITION. The operands a command reads from registers at its start (R47, R57), and the checks the
commands make on them. -/

namespace Sys2Proof.Machine

/-- sext_32(FRAMES): the frame count, signed (R28, R57). -/
abbrev State.frameCount (s : State) : Int := s.frames.toInt

/-- FRAMES < 0 or FRAMES > BLK_MAX (R85, R103). -/
def State.badFrameCount (s : State) : Bool :=
  decide (s.frameCount < 0) || decide ((s.cfg.blkMax : Int) < s.frameCount)

/-- The number of frames a PROCESS command runs, once the count has been checked. -/
abbrev State.numFrames (s : State) : Nat := s.frameCount.toNat

/-- N = VIB_A_NCH, unsigned (R30). -/
abbrev State.vibChannels (s : State) : Nat := s.vib.aNch.toNat

/-- N = PPM_A_NCH, unsigned (R36). -/
abbrev State.ppmChannels (s : State) : Nat := s.ppm.aNch.toNat

/-- A usable sample rate and channel count: fs finite and > 0, 1 ≤ N ≤ NCH_MAX (R83, R99). -/
def rateAndChannelsOk (p : Params) (fs nch : Word) : Bool :=
  F32.isFinite fs && F32.fgt fs F32.posZero &&
  decide (1 ≤ nch.toNat) && decide (nch.toNat ≤ p.nchMax)

/-- VIB_INIT's check of the staging registers (R83). DEDUCED (log 21): the bound on f is the rounded
fmul(fs, HALF), which for the smallest subnormal fs is +0 and admits no f, not even 0. -/
def State.vibArgsOk (s : State) : Bool :=
  rateAndChannelsOk s.cfg s.vib.fs s.vib.nch &&
  (F32.isFinite s.vib.freq && F32.fge s.vib.freq F32.posZero &&
    F32.flt s.vib.freq (F32.fmul s.vib.fs F32.HALF)) &&
  (F32.isFinite s.vib.width && F32.fge s.vib.width F32.posZero) &&
  (F32.isFinite s.vib.amp && F32.fge s.vib.amp F32.posZero && F32.fle s.vib.amp s.vib.width)

/-- P = fmul(W, fs), the maximum width in samples (R75). -/
abbrev State.vibWidthSamples (s : State) : Word := F32.fmul s.vib.width s.vib.fs

/-- Wn = ceil(P), the center delay (R75). -/
abbrev State.vibCenter (s : State) : Nat := F32.ceil s.vibWidthSamples

/-- C = 2·Wn + 2, the capacity, as an exact integer (R11, R75). -/
abbrev State.vibCapacity (s : State) : Nat := 2 * s.vibCenter + 2

/-- The delay lines fit: P is finite and C ≤ CAP_MAX (R83). -/
def State.vibFits (s : State) : Bool :=
  F32.isFinite s.vibWidthSamples && decide (s.vibCapacity ≤ s.cfg.capMax)

/-- PPM_INIT's check of its operands (R99). -/
def State.ppmArgsOk (s : State) : Bool := rateAndChannelsOk s.cfg s.ppm.fs s.ppm.nch

/-- The upper limit of a time constant: AlphaAt for parameter 0, AlphaRt for parameter 1 (R93). -/
abbrev timeLimit (p : Nat) : Word := if p = 0 then F32.T_AT_MAX else F32.T_RT_MAX

/-- A valid time constant for a parameter (R93). -/
def validTime (p : Nat) (t : Word) : Bool :=
  !F32.isNaN t && F32.fge t F32.posZero && F32.fle t (timeLimit p)

end Sys2Proof.Machine
end

