-- ==== Sys2Proof/Machine/DelayLine.lean ====
section
/-! DEFINITION. The two commands that reach a delay line directly: DL_WRITE and DL_READ (R72, R73). -/

namespace Sys2Proof.Machine

/-- DL_WRITE (R72): store ARG into channel c's line and advance its write index. -/
def execDlWrite (c : Nat) (s : State) : Result :=
  if s.vib.init = false then s.raise .notInitialized
  else if s.vibChannels ≤ c then s.raise .invalidArgs
  else (s.dlWrite c s.arg).finish

/-- DL_READ (R73): read channel c's line at delay ARG into RESULT. -/
def execDlRead (c : Nat) (s : State) : Result :=
  if s.vib.init = false then s.raise .notInitialized
  else if s.vibChannels ≤ c then s.raise .invalidArgs
  else if validDelay s.arg s.vib.cap.toNat = false then s.raise .invalidArgs
  else (s.setResult (s.dlRead c s.arg)).finish

end Sys2Proof.Machine
end

