-- ==== Sys2Proof/Machine/Ppm.lean ====
section
/-! DEFINITION. The PPM unit: the smoothing filter, the peak detector, the coefficient mapping (R91 to
R97), and the commands PPM_INIT, PPM_SETPARAM, PPM_GETPARAM, PPM_PROCESS and PPM_RESET (R99 to R104). -/

namespace Sys2Proof.Machine

/-- The coefficient of a time constant (R91). DEDUCED (log 21): it is +0 whenever EXP gives 1.0, though R102
names only an overflow of fs·t as a cause. -/
def coefOf (F : Functions) (fs t : Word) : Word :=
  let t' := if F32.feq t F32.posZero then F32.posZero else t
  F32.fsub F32.ONE (F.exp (F32.fdiv F32.K22 (F32.fmul fs t')))

/-- The time constant of a coefficient (R92). -/
def timeOf (F : Functions) (fs k : Word) : Word :=
  F32.fdiv F32.K22 (F32.fmul fs (F.ln (F32.fsub F32.ONE k)))

/-- The smoothing filter step (R94): RELEASE when prev > cur, else ATTACK, also when either is NaN.
The state machine of R95 is this comparison. DEDUCED (log 19): at prev = +∞ the derived claims of R39,
R107 and R108 and this pseudocode disagree for some coefficients, and the pseudocode with R12 is
followed: RELEASE with rc = 1.0 is fmul(+0, +∞), and ATTACK by cur = +∞ with ac = 1.0 is
fadd(+∞, fmul(+0, +∞)), both the canonical NaN. DEDUCED (log 21): the rounded sum of an ATTACK step can
pass cur, though R110 has the follower stop at or below a constant input. -/
def smooth (prev cur ac rc : Word) : Word :=
  if F32.fgt prev cur then F32.fmul (F32.fsub F32.ONE rc) prev
  else F32.fadd (F32.fmul ac cur) (F32.fmul (F32.fsub F32.ONE ac) prev)

/-- The block maximum's update (R96): a NaN never replaces it. -/
def peakOf (m s : Word) : Word := if F32.fgt s m then s else m

/-- The value emitted for a block maximum (R97). -/
def emit (F : Functions) (m : Word) (db : Bool) : Word :=
  if db then F32.fmul F32.K20 (F.log10 m) else m

/-- What PPM_PROCESS carries from frame to frame: PPM_PREV and the command-local maxima M (R40, R103). -/
structure Meter where
  prev : Cells Word
  peak : Cells Word
deriving DecidableEq, Repr

/-- One channel's step with rectified input cur: s <- smooth; M[c] updated; PPM_PREV[c] <- s (R103). -/
def Meter.step (m : Meter) (c : Nat) (cur ac rc : Word) : Meter :=
  let s := smooth (Cells.word m.prev c) cur ac rc
  { prev := Cells.setWord m.prev c s
    peak := Cells.setWord m.peak c (peakOf (Cells.word m.peak c) s) }

/-- Frame n of the per-channel variant: each channel in increasing order (R103). -/
def State.meterFrame (s : State) (nch n : Nat) (m : Meter) : Meter :=
  (List.range nch).foldl
    (fun m c => m.step c (F32.fabs (s.readIn c n)) s.ppm.acoef s.ppm.rcoef) m

/-- The channel sum of frame n, left to right, channel 0 first (R103). -/
def State.channelSum (s : State) (nch n : Nat) : Word :=
  (List.range (nch - 1)).foldl (fun x c => F32.fadd x (s.readIn (c + 1) n)) (s.readIn 0 n)

/-- Frame n of the mono variant, metered in slot 0 (R103). -/
def State.monoFrame (s : State) (nch n : Nat) (m : Meter) : Meter :=
  m.step 0 (F32.fabs (s.channelSum nch n)) s.ppm.acoef s.ppm.rcoef

/-- The meter when a PPM_PROCESS starts: PPM_PREV carries over, every M is +0 (R96, R103). -/
def State.meterStart (s : State) : Meter := { prev := s.ppm.prev, peak := [] }

/-- The meter after the first nf frames, in the variant PPM_A_MODE latched (R103). -/
def State.meterRun (s : State) (nch nf : Nat) : Meter :=
  (List.range nf).foldl
    (fun m n => if s.ppm.aMode then s.monoFrame nch n m else s.meterFrame nch n m) s.meterStart

/-- The channels that emit: all N, or slot 0 alone in the mono variant (R103). -/
def State.emitters (s : State) (nch : Nat) : Nat := if s.ppm.aMode then 1 else nch

/-- PPM_OUT[c] <- emit(M[c], db) for the channels that emit (R97, R103). -/
def State.emitAll (F : Functions) (s : State) (nch : Nat) (m : Meter) : Cells Word :=
  (List.range (s.emitters nch)).foldl
    (fun o c => Cells.setWord o c (emit F (Cells.word m.peak c) s.ppm.db)) s.ppm.out

/-- The PPM unit after a successful PPM_PROCESS (R103). -/
def State.metered (F : Functions) (s : State) : Ppm :=
  { s.ppm with
    prev := (s.meterRun s.ppmChannels s.numFrames).prev
    out := s.emitAll F s.ppmChannels (s.meterRun s.ppmChannels s.numFrames) }

/-- PPM_PROCESS over any configuration functions (R103). -/
def ppmProcess (F : Functions) (s : State) : Result :=
  if s.ppm.init = false then s.raise .notInitialized
  else if s.badFrameCount then s.raise .invalidArgs
  else (s.setPpm (s.metered F)).finish

/-- The PPM unit as a successful PPM_INIT leaves it (R99): cleared, then latched, with the default
attack and release times. -/
def State.ppmLatched (F : Functions) (s : State) : Ppm :=
  { s.ppm.clear with
    aFs := s.ppm.fs
    aNch := s.ppm.nch
    aMode := s.ppm.mode
    acoef := coefOf F s.ppm.fs F32.T_AT_DEF
    rcoef := coefOf F s.ppm.fs F32.T_RT_DEF
    init := true }

/-- PPM_INIT over any configuration functions (R99, R100). -/
def ppmInit (F : Functions) (s : State) : Result :=
  if s.ppmArgsOk = false then s.ppmClear.raise .invalidArgs
  else (s.setPpm (s.ppmLatched F)).finish

/-- PPM_SETPARAM over any configuration functions (R101). -/
def ppmSetParam (F : Functions) (p : Nat) (s : State) : Result :=
  if s.ppm.init = false then s.raise .notInitialized
  else if 2 ≤ p then s.raise .invalidArgs
  else if validTime p s.arg = false then s.raise .invalidArgs
  else if p = 0 then (s.setPpm { s.ppm with acoef := coefOf F s.ppm.aFs s.arg }).finish
  else (s.setPpm { s.ppm with rcoef := coefOf F s.ppm.aFs s.arg }).finish

/-- PPM_GETPARAM over any configuration functions (R102). -/
def ppmGetParam (F : Functions) (p : Nat) (s : State) : Result :=
  if s.ppm.init = false then s.raise .notInitialized
  else if 2 ≤ p then s.raise .invalidArgs
  else (s.setResult (timeOf F s.ppm.aFs (if p = 0 then s.ppm.acoef else s.ppm.rcoef))).finish

/-- PPM_INIT (R99, R100) with this implementation's configuration functions (R17). -/
def execPpmInit (s : State) : Result := ppmInit F32.config s

/-- PPM_PROCESS (R103) with this implementation's configuration functions (R17). -/
def execPpmProcess (s : State) : Result := ppmProcess F32.config s

/-- PPM_RESET (R104). -/
def execPpmReset (s : State) : Result := s.ppmClear.finish

/-- PPM_SETPARAM (R101) with this implementation's configuration functions (R17). -/
def execPpmSetParam (p : Nat) (s : State) : Result := ppmSetParam F32.config p s

/-- PPM_GETPARAM (R102) with this implementation's configuration functions (R17). -/
def execPpmGetParam (p : Nat) (s : State) : Result := ppmGetParam F32.config p s

end Sys2Proof.Machine
end

