-- ==== Sys2Proof/Machine/Vibrato.lean ====
section
/-! DEFINITION. The vibrato unit: the modulator's primitives (R76 to R81) and the commands VIB_INIT,
VIB_PROCESS and VIB_RESET (R83 to R87). -/

namespace Sys2Proof.Machine

/-- The phase increment per frame (R77): the division is done first. -/
def phaseIncrement (freq fs : Word) : Word := F32.fmul F32.TWO_PI (F32.fdiv freq fs)

/-- One advance of the phase with wrap (R78). -/
def advance (pinc p : Word) : Word :=
  let q := F32.fadd p pinc
  if F32.fge q F32.TWO_PI then F32.fsub q F32.TWO_PI else q

/-- The modulation value of a frame (R79). -/
def modulation (F : Functions) (v : Vib) : Word := F32.fmul v.amps (F.sin v.phase)

/-- The instantaneous delay of a frame (R80), the same for every channel (R81). -/
def instantDelay (F : Functions) (v : Vib) : Word :=
  F32.fadd (F32.ofNat v.cdelay.toNat) (modulation F v)

/-- The vibrato unit as a successful VIB_INIT leaves it (R83): cleared, then the latched registers
written from the staging registers. -/
def State.vibLatched (s : State) : Vib :=
  { s.vib.clear with
    aFs := s.vib.fs
    aNch := s.vib.nch
    cdelay := BitVec.ofNat 32 s.vibCenter
    cap := BitVec.ofNat 32 s.vibCapacity
    amps := F32.fmul s.vib.amp s.vib.fs
    pinc := phaseIncrement s.vib.freq s.vib.fs
    phase := F32.posZero
    init := true }

/-- VIB_INIT (R83, R84): InvalidArgs is checked before UnknownError, and either leaves the unit
cleared. -/
def execVibInit (s : State) : Result :=
  if s.vibArgsOk = false then s.vibClear.raise .invalidArgs
  else if s.vibFits = false then s.vibClear.raise .unknownError
  else (s.setVib s.vibLatched).finish

/-- Frame n, first loop of R85: every channel's input sample goes into its own line. -/
def State.writeFrame (nch n : Nat) (s : State) : State :=
  (List.range nch).foldl (fun s c => s.dlWrite c (s.readIn c n)) s

/-- Frame n, second loop of R85: every channel's line is read at the same delay into OUT. -/
def State.readFrame (nch n : Nat) (d : Word) (s : State) : State :=
  (List.range nch).foldl (fun s c => s.writeOut c n (s.dlRead c d)) s

/-- Advance VIB_PHASE, once per frame (R78, R81). -/
def State.advancePhase (s : State) : State :=
  s.setVib (s.vib.setPhase (advance s.vib.pinc s.vib.phase))

/-- One frame of VIB_PROCESS (R85). -/
def State.vibFrame (F : Functions) (nch n : Nat) (s : State) : State :=
  ((s.writeFrame nch n).readFrame nch n (instantDelay F s.vib)).advancePhase

/-- The first nf frames of VIB_PROCESS, in order (R85). -/
def State.vibFrames (F : Functions) (nch nf : Nat) (s : State) : State :=
  (List.range nf).foldl (fun s n => s.vibFrame F nch n) s

/-- VIB_PROCESS over any configuration functions (R85). -/
def vibProcess (F : Functions) (s : State) : Result :=
  if s.vib.init = false then s.raise .notInitialized
  else if s.badFrameCount then s.raise .invalidArgs
  else (s.vibFrames F s.vibChannels s.numFrames).finish

/-- VIB_PROCESS (R85) with this implementation's configuration functions (R17). -/
def execVibProcess (s : State) : Result := vibProcess F32.config s

/-- VIB_RESET (R87). -/
def execVibReset (s : State) : Result := s.vibClear.finish

end Sys2Proof.Machine
end

