-- ==== Sys2Proof/Machine/Dispatch.lean ====
section
/-! DEFINITION. One arm per command of R58, each one call of the command's meaning. -/

namespace Sys2Proof.Machine

/-- The meaning of each command. -/
def exec (i : Instr) (s : State) : Host.Outcome State Fault Refusal :=
  match i with
  | .vibInit => Sys2Proof.Machine.execVibInit s
  | .vibProcess => Sys2Proof.Machine.execVibProcess s
  | .vibReset => Sys2Proof.Machine.execVibReset s
  | .dlWrite c => Sys2Proof.Machine.execDlWrite c s
  | .dlRead c => Sys2Proof.Machine.execDlRead c s
  | .ppmInit => Sys2Proof.Machine.execPpmInit s
  | .ppmProcess => Sys2Proof.Machine.execPpmProcess s
  | .ppmReset => Sys2Proof.Machine.execPpmReset s
  | .ppmSetParam p => Sys2Proof.Machine.execPpmSetParam p s
  | .ppmGetParam p => Sys2Proof.Machine.execPpmGetParam p s

end Sys2Proof.Machine
end

