-- ==== Sys2Proof/Machine/Bus.lean ====
section
/-! DEFINITION. The host window: the register map (R22, R23), host reads and writes (R42 to R45), the
command a write to CMD starts (R24, R46, R60), and hardware reset (R123, R124). -/

namespace Sys2Proof.Machine

/-- The offset of a named word of the window (R22). -/
def Reg.offset (p : Params) : Reg → Nat
  | .cmd => 0x000
  | .status => 0x004
  | .arg => 0x008
  | .result => 0x00C
  | .frames => 0x010
  | .vibFs => 0x020
  | .vibNch => 0x024
  | .vibFreq => 0x028
  | .vibWidth => 0x02C
  | .vibAmp => 0x030
  | .vibAFs => 0x040
  | .vibANch => 0x044
  | .vibCap => 0x048
  | .vibCdelay => 0x04C
  | .vibAmps => 0x050
  | .vibPinc => 0x054
  | .vibPhase => 0x058
  | .ppmFs => 0x060
  | .ppmNch => 0x064
  | .ppmCtrl => 0x068
  | .ppmAFs => 0x070
  | .ppmANch => 0x074
  | .ppmAMode => 0x078
  | .ppmAcoef => 0x07C
  | .ppmRcoef => 0x080
  | .vibWidx c => 0x100 + 4 * c
  | .ppmPrev c => 0x140 + 4 * c
  | .ppmOut c => 0x180 + 4 * c
  | .inWord c n => inOffset p c n
  | .outWord c n => outOffset p c n

/-- Which words the parameters give the window: a per-channel slot at c ≥ NCH_MAX is reserved, and a
buffer has NCH_MAX × BLK_MAX words (R22, R23). -/
def Reg.exists (p : Params) : Reg → Bool
  | .vibWidx c => decide (c < p.nchMax)
  | .ppmPrev c => decide (c < p.nchMax)
  | .ppmOut c => decide (c < p.nchMax)
  | .inWord c n => decide (c < p.nchMax) && decide (n < p.blkMax)
  | .outWord c n => decide (c < p.nchMax) && decide (n < p.blkMax)
  | _ => true

/-- The single registers of the map below 0x100, by word offset (R22). -/
def singleReg (off : Nat) : Option Reg :=
  match off with
  | 0x000 => some .cmd
  | 0x004 => some .status
  | 0x008 => some .arg
  | 0x00C => some .result
  | 0x010 => some .frames
  | 0x020 => some .vibFs
  | 0x024 => some .vibNch
  | 0x028 => some .vibFreq
  | 0x02C => some .vibWidth
  | 0x030 => some .vibAmp
  | 0x040 => some .vibAFs
  | 0x044 => some .vibANch
  | 0x048 => some .vibCap
  | 0x04C => some .vibCdelay
  | 0x050 => some .vibAmps
  | 0x054 => some .vibPinc
  | 0x058 => some .vibPhase
  | 0x060 => some .ppmFs
  | 0x064 => some .ppmNch
  | 0x068 => some .ppmCtrl
  | 0x070 => some .ppmAFs
  | 0x074 => some .ppmANch
  | 0x078 => some .ppmAMode
  | 0x07C => some .ppmAcoef
  | 0x080 => some .ppmRcoef
  | _ => none

/-- The word of the window at a word offset, before the parameters' limits are applied. -/
def slotReg (p : Params) (off : Nat) : Option Reg :=
  if off < 0x100 then singleReg off
  else if off < 0x140 then some (.vibWidx ((off - 0x100) / 4))
  else if off < 0x180 then some (.ppmPrev ((off - 0x140) / 4))
  else if off < 0x1C0 then some (.ppmOut ((off - 0x180) / 4))
  else if off < 0x10000 then none
  else if off < 0x20000 then
    some (.inWord ((off - 0x10000) / 4 / p.blkMax) ((off - 0x10000) / 4 % p.blkMax))
  else if off < 0x30000 then
    some (.outWord ((off - 0x20000) / 4 / p.blkMax) ((off - 0x20000) / 4 % p.blkMax))
  else none

/-- The word an offset of the window names, `none` for a reserved one (R22, R23). Address bits 1:0
are ignored (R44). -/
def regAt (p : Params) (off : Nat) : Option Reg :=
  (slotReg p (off - off % 4)).filter (Reg.exists p)

/-- What a host read of a named word gives (R22, R24 to R31, R34 to R38). -/
def State.readReg (s : State) : Reg → Word
  | .cmd => s.cmd
  | .status => s.status
  | .arg => s.arg
  | .result => s.result
  | .frames => s.frames
  | .vibFs => s.vib.fs
  | .vibNch => s.vib.nch
  | .vibFreq => s.vib.freq
  | .vibWidth => s.vib.width
  | .vibAmp => s.vib.amp
  | .vibAFs => s.vib.aFs
  | .vibANch => s.vib.aNch
  | .vibCap => s.vib.cap
  | .vibCdelay => s.vib.cdelay
  | .vibAmps => s.vib.amps
  | .vibPinc => s.vib.pinc
  | .vibPhase => s.vib.phase
  | .ppmFs => s.ppm.fs
  | .ppmNch => s.ppm.nch
  | .ppmCtrl => s.ppm.ctrl
  | .ppmAFs => s.ppm.aFs
  | .ppmANch => s.ppm.aNch
  | .ppmAMode => s.ppm.aModeWord
  | .ppmAcoef => s.ppm.acoef
  | .ppmRcoef => s.ppm.rcoef
  | .vibWidx c => (s.vib.line c).widx
  | .ppmPrev c => Cells.word s.ppm.prev c
  | .ppmOut c => Cells.word s.ppm.out c
  | .inWord c n => s.readIn c n
  | .outWord c n => s.readOut c n

/-- What a host write stores in a named word: RW registers take it, read-only ones ignore it (R22, R23);
PPM_CTRL takes MODE and DB only (R35). CMD stores it; the command it starts is `startCommand`. -/
def State.writeReg (s : State) (r : Reg) (w : Word) : State :=
  match r with
  | .cmd => { s with cmd := w }
  | .arg => { s with arg := w }
  | .frames => { s with frames := w }
  | .vibFs => { s with vib := { s.vib with fs := w } }
  | .vibNch => { s with vib := { s.vib with nch := w } }
  | .vibFreq => { s with vib := { s.vib with freq := w } }
  | .vibWidth => { s with vib := { s.vib with width := w } }
  | .vibAmp => { s with vib := { s.vib with amp := w } }
  | .ppmFs => { s with ppm := { s.ppm with fs := w } }
  | .ppmNch => { s with ppm := { s.ppm with nch := w } }
  | .ppmCtrl => { s with ppm := { s.ppm with mode := w.getLsbD 0, db := w.getLsbD 1 } }
  | .inWord c n => s.writeIn c n w
  | .outWord c n => s.writeOut c n w
  | .status | .result => s
  | .vibAFs | .vibANch | .vibCap | .vibCdelay | .vibAmps | .vibPinc | .vibPhase => s
  | .ppmAFs | .ppmANch | .ppmAMode | .ppmAcoef | .ppmRcoef => s
  | .vibWidx _ | .ppmPrev _ | .ppmOut _ => s

/-- The word a host read at an offset of the window gives: a reserved word reads 0 (R23, R44). -/
def State.readOffset (s : State) (off : Nat) : Word :=
  match regAt s.cfg off with
  | none => 0
  | some r => s.readReg r

/-- A host write of w to CMD (R24, R46, R60): the word is stored even when it encodes no command; then
the command it encodes runs, or IllegalCommand is raised. -/
def State.startCommand (s : State) (w : Word) : Result :=
  match decode w with
  | .ok i => exec i (s.writeReg .cmd w)
  | .error _ => (s.writeReg .cmd w).raise .illegalCommand

/-- A host write at an offset of the window (R23, R44, R45). -/
def State.writeOffset (s : State) (off : Nat) (w : Word) : Result :=
  match regAt s.cfg off with
  | none => .next s
  | some .cmd => s.startCommand w
  | some r => .next (s.writeReg r w)

/-- The offset of an address in the window at BASE, `none` outside it (R22, R41, R53). -/
def windowOffset (p : Params) (addr : Nat) : Option Nat :=
  if p.base ≤ addr ∧ addr < p.base + 0x30000 then some (addr - p.base) else none

/-- `MemRead(addr, 4)` (R42): the host gets the word; no other state changes (R45). -/
def State.busRead (s : State) (addr : Nat) : Result :=
  match windowOffset s.cfg addr with
  | none => .fault (.outsideWindow addr)
  | some off => .next { s with rdata := some (s.readOffset off) }

/-- `MemWrite(addr, 4, w)` (R42). -/
def State.busWrite (s : State) (addr : Nat) (w : Word) : Result :=
  match windowOffset s.cfg addr with
  | none => .fault (.outsideWindow addr)
  | some off => s.writeOffset off w

/-- Assertion of the reset input (R123, R124): every piece of the block's state takes its reset value;
the buffers' contents are a fresh draw (R125). The parameters and the host's own state are not the
block's (log 10). -/
def State.hardReset (s : State) : State :=
  { State.reset with
    cfg := s.cfg, draws := s.draws + 1, pending := s.pending, rdata := s.rdata }

/-- Perform one input (R42, R123). -/
def State.perform (s : State) : BusEvent → Result
  | .read addr => s.busRead addr
  | .write addr w => s.busWrite addr w
  | .reset => .next s.hardReset

/-- Perform the host's next access, in issue order (R48). With nothing pending the block is idle and
holds all state (R121, R126). -/
def State.performNext (s : State) : Result :=
  match s.pending with
  | [] => .next s
  | e :: rest => { s with pending := rest }.perform e

/-- The host access that puts a command word where the next step takes its command from: a write of
it to CMD (R24), issued before everything still pending. -/
def State.issueCommand (s : State) (w : Word) : State :=
  { s with pending := .write (s.cfg.base + Reg.offset s.cfg .cmd) w :: s.pending }

end Sys2Proof.Machine
end

