-- ==== Sys2Proof/Machine/Step.lean ====
section
/-! DEFINITION. One step of the machine: the host's next access is performed, with the command it starts,
if any, run to completion (R46, R48). -/

namespace Sys2Proof.Machine

/-- One step. -/
def step (s : State) : Host.Outcome State Fault Refusal := s.performNext

/-- The state in which the next step runs the command whose bits are `w`, every bit from `nbits` up
being 0: the block takes its commands from host writes to CMD (R24), so such a write is put at the
head of what the host has pending (log 7). -/
def State.withFetchWord (s : State) (nbits w : Nat) : State :=
  s.issueCommand (BitVec.ofNat 32 (w % 2 ^ nbits))

end Sys2Proof.Machine
end

