-- ==== Sys2Proof/Machine/HostNotation.lean ====
section
/-! DEFINITION. The spec's notation for host programs (R63, R64): each line expands to one bus access. -/

namespace Sys2Proof.Machine

/-- What `WRF` accepts (R64): a decimal number, as a sign, a whole number and how many of its digits
stand after the point, or one of `inf`, `-inf` and `nan`. -/
inductive Decimal where
  | num (negative : Bool) (digits places : Nat)
  | inf
  | negInf
  | nan
deriving DecidableEq, Repr

/-- The binary32 nearest, ties to even, to the decimal number (R64). DESIGN CHOICE: where that is a zero
(`-0`, or a negative number too small for the smallest subnormal), R64 does not say which of +0 and −0 is
meant; the zero takes the sign written, as R64's infinities do (log 20). -/
def Decimal.bits : Decimal → Word
  | .num negative digits places =>
    F32.pack negative (F32.roundMag (digits * 2 ^ 149) (10 ^ places))
  | .inf => F32.posInf
  | .negInf => F32.negInf
  | .nan => F32.qNaN

/-- One line of a host program (R63, R64). `wr` and `rd` name a register or a sample word; `cmd` is
`CMD <MNEMONIC>` with its selector, if it takes one; `wrf` is `WRF`. -/
inductive HostLine where
  | wr (r : Reg) (w : Word)
  | rd (r : Reg)
  | cmd (i : Instr)
  | wrf (r : Reg) (d : Decimal)
deriving DecidableEq, Repr

/-- The bus access a line expands to, at the block's base address (R53, R63, R64). -/
def HostLine.expand (p : Params) : HostLine → BusEvent
  | .wr r w => .write (p.base + r.offset p) w
  | .rd r => .read (p.base + r.offset p)
  | .cmd i => .write (p.base + Reg.offset p .cmd) (encode i)
  | .wrf r d => .write (p.base + r.offset p) d.bits

/-- The state in which the host has a program still to issue after what is pending. -/
def State.withProgram (s : State) (prog : List HostLine) : State :=
  { s with pending := s.pending ++ prog.map (HostLine.expand s.cfg) }

end Sys2Proof.Machine
end

