-- ==== Sys2Proof/Machine/Platform.lean ====
section
/-! DEFINITION. Several instances of the block on one platform (R55): each has its own base address,
its own host order and its own disjoint state. -/

namespace Sys2Proof.Machine

/-- The instances of a platform, by number. -/
abbrev Platform := List State

/-- Instance k performs its next access; a number that names no instance does nothing. -/
def Platform.stepAt (p : Platform) (k : Nat) : Host.Outcome Platform Fault Refusal :=
  match p[k]? with
  | none => .next p
  | some s =>
    match step s with
    | .next s' => .next (p.set k s')
    | .fault r => .fault r
    | .refused r => .refused r

end Sys2Proof.Machine
end

