-- ==== Sys2Proof/Machine/Reference.lean ====
section
/-! DEFINITION. The properties every configuration must have (R17) and the reference configuration
(R18), as predicates over configuration functions. The model fixes no configuration: its own has the
properties of R17 and is otherwise free (log 2, 3). -/

namespace Sys2Proof.F32

/-- SIN-1 and SIN-2 (R17). -/
def LegalSin (f : Word → Word) : Prop :=
  f posZero = posZero ∧
  ∀ x, isFinite x = true →
    isFinite (f x) = true ∧ fle (neg ONE) (f x) = true ∧ fle (f x) ONE = true

/-- EXP-1 to EXP-4 (R17). -/
def LegalExp (f : Word → Word) : Prop :=
  f negInf = posZero ∧ f negZero = ONE ∧ f posZero = ONE ∧
  (∀ x, fle x posZero = true → fle posZero (f x) = true ∧ fle (f x) ONE = true) ∧
  ∀ x, isNaN x = true → isNaN (f x) = true

/-- LN-1 to LN-3 (R17). -/
def LegalLn (f : Word → Word) : Prop :=
  f posZero = negInf ∧ f negZero = negInf ∧ f ONE = posZero ∧
  ∀ x, flt posZero x = true → flt x ONE = true →
    isFinite (f x) = true ∧ flt (f x) posZero = true

/-- LOG10-1 to LOG10-5 (R17). -/
def LegalLog10 (f : Word → Word) : Prop :=
  f posZero = negInf ∧ f ONE = posZero ∧ f posInf = posInf ∧
  (∀ x, isNaN x = true → isNaN (f x) = true) ∧
  ∀ x, isFinite x = true → flt posZero x = true → isFinite (f x) = true

/-- R13: a NaN that the function produces is the canonical one. -/
def CanonicalNaN (f : Word → Word) : Prop := ∀ x, isNaN (f x) = true → f x = qNaN

/-- Configuration functions the spec allows (R13, R17). -/
def Legal (F : Functions) : Prop :=
  (LegalSin F.sin ∧ CanonicalNaN F.sin) ∧ (LegalExp F.exp ∧ CanonicalNaN F.exp) ∧
  (LegalLn F.ln ∧ CanonicalNaN F.ln) ∧ (LegalLog10 F.log10 ∧ CanonicalNaN F.log10)

/-- The real number r is the value of the word x: a whole number of units of 2^-149 (R10). -/
def Denotes (x : Word) (r : ℝ) : Prop := isFinite x = true ∧ r * 2 ^ 149 = (val x : ℝ)

/-- w is the binary32 value nearest, ties to even, to the real number r (R12, R18): an infinity from
halfway between the largest finite value and 2^128 on, else a finite value none is nearer than, an
even one of two equally near; a zero has the sign of r. -/
def Nearest (r : ℝ) (w : Word) : Prop :=
  if (2 : ℝ) ^ 128 - 2 ^ 103 ≤ |r| then w = (if r < 0 then negInf else posInf)
  else isFinite w = true ∧
    (∀ v, isFinite v = true → |r * 2 ^ 149 - val w| ≤ |r * 2 ^ 149 - val v|) ∧
    (∀ v, isFinite v = true → |r * 2 ^ 149 - val w| = |r * 2 ^ 149 - val v| → val v ≠ val w →
      w.getLsbD 0 = false) ∧
    (isZero w = true → (sign w = true ↔ r < 0))

/-- The reference configuration (R18): correctly rounded functions with the IEEE 754 special values. -/
def Reference (F : Functions) : Prop :=
  (∀ x r, Denotes x r → isZero x = false → Nearest (Real.sin r) (F.sin x)) ∧
  (∀ x, isZero x = true → F.sin x = x) ∧
  (∀ x, isFinite x = false → F.sin x = qNaN) ∧
  (∀ x r, Denotes x r → Nearest (Real.exp r) (F.exp x)) ∧
  F.exp negInf = posZero ∧ F.exp posInf = posInf ∧
  (∀ x, isNaN x = true → F.exp x = qNaN) ∧
  (∀ x r, Denotes x r → 0 < r →
    Nearest (Real.log r) (F.ln x) ∧ Nearest (Real.logb 10 r) (F.log10 x)) ∧
  (∀ x, isZero x = true → F.ln x = negInf ∧ F.log10 x = negInf) ∧
  F.ln posInf = posInf ∧ F.log10 posInf = posInf ∧
  (∀ x, isNaN x = true ∨ flt x posZero = true → F.ln x = qNaN ∧ F.log10 x = qNaN)

end Sys2Proof.F32
end

