-- ==== Sys2Proof/Safety.lean ====
section
/-! DEFINITION. What a sound state of the block is: the canonical form of its sparse arrays, the legal
parameters (R9), and the invariants the spec gives the two units (R30 to R33, R36, R39). -/

namespace Sys2Proof.Machine

/-- Every sparse array of the state is in canonical form. -/
def State.arraysOk (s : State) : Bool :=
  Memory.wf s.buf &&
  Cells.wf (some Line.empty) s.vib.lines &&
  s.vib.lines.all (fun e => Cells.wf (some 0) e.2.cells) &&
  Cells.wf (some 0) s.ppm.prev &&
  Cells.wf (some 0) s.ppm.out

/-- The legal values of R30 and the bound of R31, for an initialized vibrato unit; and U9: cells
beyond the capacity, and lines beyond the channel count, hold +0 (R33). With a zero phase increment
the phase has never left +0 (R88). -/
structure Vib.Running (p : Params) (v : Vib) : Prop where
  rate : F32.isFinite v.aFs = true ∧ F32.fgt v.aFs F32.posZero = true
  channels : 1 ≤ v.aNch.toNat ∧ v.aNch.toNat ≤ p.nchMax
  capacity : v.cap.toNat = 2 * v.cdelay.toNat + 2
  fits : v.cap.toNat ≤ p.capMax
  amplitude : F32.fle F32.posZero v.amps = true ∧ F32.fle v.amps (F32.ofNat v.cdelay.toNat) = true
  increment : F32.fle F32.posZero v.pinc = true ∧ F32.fle v.pinc 0x40490FDB#32 = true
  phase : F32.fle F32.posZero v.phase = true ∧ F32.flt v.phase F32.TWO_PI = true
  still : F32.isZero v.pinc = true → v.phase = F32.posZero
  writeIndex : ∀ c, (v.line c).widx.toNat < v.cap.toNat
  spareCells : ∀ c k, v.cap.toNat ≤ k → Cells.word (v.line c).cells k = 0
  spareLines : ∀ c, v.aNch.toNat ≤ c → v.line c = Line.empty

/-- The vibrato unit's pre-init state: every register of R30, every VIB_WIDX and every cell is 0
(R32); the staging registers hold anything. -/
def Vib.Cleared (v : Vib) : Prop := v = v.clear

/-- R32. -/
def State.VibOk (s : State) : Prop :=
  (s.vib.init = true → s.vib.Running s.cfg) ∧ (s.vib.init = false → s.vib.Cleared)

/-- The legal values of R36 for an initialized PPM unit. -/
structure Ppm.Running (p : Params) (m : Ppm) : Prop where
  rate : F32.isFinite m.aFs = true ∧ F32.fgt m.aFs F32.posZero = true
  channels : 1 ≤ m.aNch.toNat ∧ m.aNch.toNat ≤ p.nchMax
  attack : F32.fle F32.posZero m.acoef = true ∧ F32.fle m.acoef F32.ONE = true
  release : F32.fle F32.posZero m.rcoef = true ∧ F32.fle m.rcoef F32.ONE = true

/-- The PPM unit's pre-init state (R98): every register of R36, every PPM_PREV and PPM_OUT is 0. -/
def Ppm.Cleared (m : Ppm) : Prop := m = m.clear

/-- The first invariant of R39, with the legal values of R36. -/
def State.PpmOk (s : State) : Prop :=
  (s.ppm.init = true → s.ppm.Running s.cfg) ∧ (s.ppm.init = false → s.ppm.Cleared)

/-- What the second invariant of R39 says of PPM_PREV: every entry is ≥ +0 and not NaN. It is no part of
`State.Inv`, since R39 promises it only while the words read are finite, and then not in every mono
block (log 19). -/
def State.PrevOk (s : State) : Prop :=
  ∀ c, F32.isNaN (Cells.word s.ppm.prev c) = false ∧
    F32.fge (Cells.word s.ppm.prev c) F32.posZero = true

/-- `State.PrevOk`, with every entry finite: the form of R39's second invariant that steps keep (log 19). -/
def State.PrevFinite (s : State) : Prop :=
  ∀ c, F32.isFinite (Cells.word s.ppm.prev c) = true ∧
    F32.fge (Cells.word s.ppm.prev c) F32.posZero = true

/-- A sound state: what every state a run reaches satisfies. -/
structure State.Inv (s : State) : Prop where
  params : s.cfg.legal = true
  arrays : s.arraysOk = true
  vib : s.VibOk
  ppm : s.PpmOk

end Sys2Proof.Machine
end

