-- ==== Sys2Proof/Certificates/Slice0/Obligations.lean ====
section
/-! DEFINITION. The statements about the model, for the provers. Every one is about the machine: none is
about a program. The terms they use beyond the model's own are in `Sys2Proof.Spec`. -/

namespace Sys2Proof.Spec

open Sys2Proof.Machine

/-- The three clauses of R60, on the bits of a command word. -/
def IllegalWord (w : Word) : Prop :=
  w.toNat % 2 ^ 8 ∉ [0x01, 0x02, 0x03, 0x04, 0x05, 0x11, 0x12, 0x13, 0x14, 0x15] ∨
  w.toNat / 2 ^ 16 ≠ 0 ∨
  (w.toNat % 2 ^ 8 ∈ [0x01, 0x02, 0x03, 0x11, 0x12, 0x13] ∧ w.toNat / 2 ^ 8 % 2 ^ 8 ≠ 0)

/-- The host's next access is a write of w to CMD; address bits 1:0 are ignored (R24, R44). -/
def Issues (s : State) (w : Word) (rest : List BusEvent) : Prop :=
  ∃ k < 4, s.pending = .write (s.cfg.base + k) w :: rest

/-- The reserved offsets of the window (R22, R23). -/
def ReservedOffset (p : Params) (off : Nat) : Prop :=
  (0x014 ≤ off ∧ off < 0x020) ∨ (0x034 ≤ off ∧ off < 0x040) ∨ (0x05C ≤ off ∧ off < 0x060) ∨
  (0x06C ≤ off ∧ off < 0x070) ∨ (0x084 ≤ off ∧ off < 0x100) ∨
  (0x100 + 4 * p.nchMax ≤ off ∧ off < 0x140) ∨ (0x140 + 4 * p.nchMax ≤ off ∧ off < 0x180) ∨
  (0x180 + 4 * p.nchMax ≤ off ∧ off < 0x1C0) ∨ (0x1C0 ≤ off ∧ off < 0x10000) ∨
  (0x10000 + 4 * (p.nchMax * p.blkMax) ≤ off ∧ off < 0x20000) ∨
  (0x20000 + 4 * (p.nchMax * p.blkMax) ≤ off ∧ off < 0x30000)

/-- The offsets of the registers marked R (R22). -/
def ReadOnlyOffset (p : Params) (off : Nat) : Prop :=
  (0x004 ≤ off ∧ off < 0x008) ∨ (0x00C ≤ off ∧ off < 0x010) ∨ (0x040 ≤ off ∧ off < 0x05C) ∨
  (0x070 ≤ off ∧ off < 0x084) ∨ (0x100 ≤ off ∧ off < 0x100 + 4 * p.nchMax) ∨
  (0x140 ≤ off ∧ off < 0x140 + 4 * p.nchMax) ∨ (0x180 ≤ off ∧ off < 0x180 + 4 * p.nchMax)

/-- R83's check of the staging registers. -/
abbrev VibArgs (s : State) : Prop :=
  (F32.isFinite s.vib.fs = true ∧ F32.fgt s.vib.fs F32.posZero = true) ∧
  (1 ≤ s.vib.nch.toNat ∧ s.vib.nch.toNat ≤ s.cfg.nchMax) ∧
  (F32.isFinite s.vib.freq = true ∧ F32.fge s.vib.freq F32.posZero = true ∧
    F32.flt s.vib.freq (F32.fmul s.vib.fs F32.HALF) = true) ∧
  (F32.isFinite s.vib.width = true ∧ F32.fge s.vib.width F32.posZero = true) ∧
  (F32.isFinite s.vib.amp = true ∧ F32.fge s.vib.amp F32.posZero = true ∧
    F32.fle s.vib.amp s.vib.width = true)

/-- The delay lines fit (R83): P is finite and 2·ceil(P) + 2 ≤ CAP_MAX. -/
abbrev VibFits (s : State) : Prop :=
  F32.isFinite (F32.fmul s.vib.width s.vib.fs) = true ∧
  2 * F32.ceil (F32.fmul s.vib.width s.vib.fs) + 2 ≤ s.cfg.capMax

/-- R99's check of its operands. -/
abbrev PpmArgs (s : State) : Prop :=
  (F32.isFinite s.ppm.fs = true ∧ F32.fgt s.ppm.fs F32.posZero = true) ∧
  (1 ≤ s.ppm.nch.toNat ∧ s.ppm.nch.toNat ≤ s.cfg.nchMax)

/-- The frame count is in range (R85, R103): 0 ≤ sext_32(FRAMES) ≤ BLK_MAX. -/
abbrev FramesOk (s : State) : Prop := 0 ≤ s.frames.toInt ∧ s.frames.toInt ≤ s.cfg.blkMax

/-- A valid delay (R69). -/
abbrev DelayOk (d : Word) (cap : Nat) : Prop :=
  F32.isNaN d = false ∧ F32.fge d F32.posZero = true ∧ F32.fle d (F32.ofNat (cap - 1)) = true

/-- A valid time constant (R93). -/
abbrev TimeOk (p : Nat) (t : Word) : Prop :=
  F32.isNaN t = false ∧ F32.fge t F32.posZero = true ∧
  F32.fle t (if p = 0 then 0x3CA3D70A#32 else 0x40000000#32) = true

/-- The first error of R114's order, for a command that decodes, from the causes of R112. -/
def firstError (s : State) : Instr → ErrCode
  | .vibInit =>
    if ¬VibArgs s then .invalidArgs else if ¬VibFits s then .unknownError else .noError
  | .vibProcess =>
    if s.vib.init = false then .notInitialized else if ¬FramesOk s then .invalidArgs else .noError
  | .vibReset => .noError
  | .dlWrite c =>
    if s.vib.init = false then .notInitialized
    else if s.vib.aNch.toNat ≤ c then .invalidArgs else .noError
  | .dlRead c =>
    if s.vib.init = false then .notInitialized
    else if s.vib.aNch.toNat ≤ c then .invalidArgs
    else if ¬DelayOk s.arg s.vib.cap.toNat then .invalidArgs else .noError
  | .ppmInit => if ¬PpmArgs s then .invalidArgs else .noError
  | .ppmProcess =>
    if s.ppm.init = false then .notInitialized else if ¬FramesOk s then .invalidArgs else .noError
  | .ppmReset => .noError
  | .ppmSetParam p =>
    if s.ppm.init = false then .notInitialized
    else if 2 ≤ p then .invalidArgs
    else if ¬TimeOk p s.arg then .invalidArgs else .noError
  | .ppmGetParam p =>
    if s.ppm.init = false then .notInitialized
    else if 2 ≤ p then .invalidArgs else .noError

/-- The commands of the vibrato unit and its delay lines (R2, R58). -/
def isVib : Instr → Bool
  | .vibInit | .vibProcess | .vibReset | .dlWrite _ | .dlRead _ => true
  | .ppmInit | .ppmProcess | .ppmReset | .ppmSetParam _ | .ppmGetParam _ => false

/-- The phase before frame n (R78, R81). -/
def phaseAt (v : Vib) (n : Nat) : Word := (advance v.pinc)^[n] v.phase

/-- The delay of frame n (R79, R80). -/
def delayAt (v : Vib) (n : Nat) : Word :=
  F32.fadd (F32.ofNat v.cdelay.toNat) (F32.fmul v.amps (F32.config.sin (phaseAt v n)))

/-- Channel c's line after its input samples of n frames have been written (R66, R85). -/
def lineAfter (s : State) (c n : Nat) : Line :=
  (List.range n).foldl (fun l k => l.write s.vib.cap.toNat (s.readIn c k)) (s.vib.line c)

/-- The sample a PPM_PROCESS rectifies for tracked channel c in frame n: the channel's own, or the
channel sum in the mono variant (R103). -/
def meterInput (s : State) (c n : Nat) : Word :=
  if s.ppm.aMode then s.channelSum s.ppm.aNch.toNat n else s.readIn c n

/-- The channels a PPM_PROCESS tracks: all N, or slot 0 alone in the mono variant (R103). -/
def Tracked (s : State) (c : Nat) : Prop := if s.ppm.aMode then c = 0 else c < s.ppm.aNch.toNat

/-- The smoothed value of tracked channel c after n frames (R94, R103). -/
def envelope (s : State) (c : Nat) : Nat → Word
  | 0 => Cells.word s.ppm.prev c
  | n + 1 =>
    smooth (envelope s c n) (F32.fabs (meterInput s c n)) s.ppm.acoef s.ppm.rcoef

/-- If the host's next access runs a PPM_PROCESS that passes its checks, every word it meters is finite:
in the per-channel variant exactly the IN words it reads (R39), in the mono variant their sums. -/
def MetersFinite (s : State) : Prop :=
  ∀ w rest, Issues s w rest → decode w = .ok .ppmProcess → s.ppm.init = true → FramesOk s →
    ∀ c n, Tracked s c → n < s.frames.toNat → F32.isFinite (meterInput s c n) = true

/-- R39's own premise on the host's next access: if it runs a PPM_PROCESS that passes its checks, every
IN word the command reads is finite. -/
def ReadsFinite (s : State) : Prop :=
  ∀ w rest, Issues s w rest → decode w = .ok .ppmProcess → s.ppm.init = true → FramesOk s →
    ∀ c n, c < s.ppm.aNch.toNat → n < s.frames.toNat → F32.isFinite (s.readIn c n) = true

/-- r is the exact magnitude num/den, in units of 2^-149, with the sign neg, rounded once to nearest,
ties to even; from halfway between the largest finite value and 2^128 on it is an infinity (R12). -/
def RoundedTo (neg : Bool) (num den : Nat) (r : Word) : Prop :=
  F32.sign r = neg ∧ F32.isNaN r = false ∧
  if (2 ^ 25 - 1) * 2 ^ 252 * den ≤ num then F32.isInf r = true
  else F32.isFinite r = true ∧
    ∀ v, F32.isFinite v = true →
      |(num : Int) - F32.mag r * den| ≤ |(num : Int) - F32.mag v * den| ∧
      (|(num : Int) - F32.mag r * den| = |(num : Int) - F32.mag v * den| →
        F32.mag v ≠ F32.mag r → r.getLsbD 0 = false)

end Sys2Proof.Spec

section
open Sys2Proof Sys2Proof.Machine Sys2Proof.Spec

/-! ### Encoding -/

/-- Decoding the word of a well-formed command gives the command, whatever its selector (R56 to R58). -/
def Obligations.DecodeEncodeAgree : Prop :=
  ∀ i : Instr, i.wellFormed = true → decode (encode i) = .ok i

/-- A word that decodes is the word of the command it decodes to, so no two words mean the same (R56, R58). -/
def Obligations.DecodedWordsAreEncodings : Prop :=
  ∀ (w : Word) (i : Instr), decode w = .ok i → i.wellFormed = true ∧ encode i = w

/-- R60: executing an illegal word sets STATUS.ERR to IllegalCommand and changes nothing else but CMD;
a word that is not illegal executes the command of its OP's row with operand SEL. -/
def Obligations.IllegalWordsOnlyRaise : Prop :=
  ∀ (s : State) (w : Word) (rest : List BusEvent), Issues s w rest →
    (IllegalWord w →
      step s = .next { s with pending := rest, cmd := w, err := .illegalCommand }) ∧
    (¬IllegalWord w → ∃ i : Instr, i.wellFormed = true ∧ encode i = w ∧
      step s = exec i { s with pending := rest, cmd := w })

/-- A few words written out from R58 and R64 decode to the commands they stand for. -/
def Obligations.SampleWordsDecode : Prop :=
  decode 0x00000001#32 = .ok .vibInit ∧ decode 0x00000205#32 = .ok (.dlRead 2) ∧
  decode 0x00000114#32 = .ok (.ppmSetParam 1) ∧ decode 0x00000012#32 = .ok .ppmProcess ∧
  decode 0x00000904#32 = .ok (.dlWrite 9) ∧ decode 0x00000103#32 = .error .unusedSelector ∧
  decode 0x00010002#32 = .error .reservedBits ∧ decode 0x00000006#32 = .error .reservedOp

/-! ### The step and the host window -/

/-- When the host's next access writes to CMD a word that decodes to i, the step is exec of i, after the
access has left the queue and the word has been stored in CMD (R24, R46); and the word a test places
with withFetchWord is run by the very next step. -/
def Obligations.StepRunsTheDecodedCommand : Prop :=
  (∀ (s : State) (w : Word) (rest : List BusEvent) (i : Instr), Issues s w rest →
    decode w = .ok i → step s = exec i { s with pending := rest, cmd := w }) ∧
  (∀ (s : State) (nbits w : Nat) (i : Instr), decodeTableWord nbits w = some i →
    step (s.withFetchWord nbits w) = exec i { s with cmd := BitVec.ofNat 32 (w % 2 ^ nbits) })

/-- R24: a write to CMD stores the word, even one that encodes no command, and starts the command it
encodes; a read returns the last word written, 0 after reset; the sequencer never writes CMD. -/
def Obligations.CmdHoldsTheLastWordWritten : Prop :=
  (∀ (s : State) (w : Word) (rest : List BusEvent), Issues s w rest →
    (∃ t, step s = .next t ∧ t.cmd = w) ∧
    ∀ i, decode w = .ok i → step s = exec i { s with pending := rest, cmd := w }) ∧
  (∀ (i : Instr) (s t : State), exec i s = .next t → t.cmd = s.cmd) ∧
  (∀ (s : State) (k : Nat) (rest : List BusEvent), k < 4 →
    s.pending = .read (s.cfg.base + k) :: rest →
    step s = .next { s with pending := rest, rdata := some s.cmd }) ∧
  (∀ (s t : State) (a : Nat) (w : Word) (rest : List BusEvent),
    s.pending = .write a w :: rest → (a < s.cfg.base ∨ s.cfg.base + 4 ≤ a) →
    step s = .next t → t.cmd = s.cmd) ∧
  State.reset.cmd = 0 ∧
  (∀ (s t : State) (rest : List BusEvent), s.pending = .reset :: rest → step s = .next t → t.cmd = 0)

/-- R45: a read gives the word and changes nothing else; a write to a word other than CMD stores its
word there (PPM_CTRL keeps bits 1:0 only) and changes no other word of the window and no delay cell; a
write to a read-only or reserved word is ignored; a write to CMD starts the command. -/
def Obligations.HostAccessesHaveOneEffect : Prop :=
  ∀ (s : State) (off : Nat) (rest : List BusEvent), s.cfg.legal = true → off < 0x30000 →
    (s.pending = .read (s.cfg.base + off) :: rest →
      step s = .next { s with pending := rest, rdata := some (s.readOffset off) }) ∧
    (∀ w, s.pending = .write (s.cfg.base + off) w :: rest →
      (off < 4 → step s = ({ s with pending := rest } : State).startCommand w) ∧
      (ReservedOffset s.cfg off ∨ ReadOnlyOffset s.cfg off →
        step s = .next { s with pending := rest }) ∧
      (4 ≤ off → ¬ReservedOffset s.cfg off → ¬ReadOnlyOffset s.cfg off →
        ∃ t, step s = .next t ∧
          t.readOffset off = (if off / 4 = 0x068 / 4 then w &&& 3#32 else w) ∧
          (∀ off' < 0x30000, off' / 4 ≠ off / 4 → t.readOffset off' = s.readOffset off') ∧
          t.vib.lines = s.vib.lines ∧ t.cfg = s.cfg ∧ t.draws = s.draws ∧ t.pending = rest ∧
          t.rdata = s.rdata))

/-- R23: a reserved word reads 0 and ignores writes, a read-only register ignores writes; neither access
raises an error or changes STATUS. -/
def Obligations.ReservedAndReadOnlyWords : Prop :=
  ∀ (s : State) (off : Nat) (rest : List BusEvent), s.cfg.legal = true →
    (ReservedOffset s.cfg off →
      (s.pending = .read (s.cfg.base + off) :: rest →
        step s = .next { s with pending := rest, rdata := some 0 }) ∧
      (∀ w, s.pending = .write (s.cfg.base + off) w :: rest →
        step s = .next { s with pending := rest })) ∧
    (ReadOnlyOffset s.cfg off →
      ∀ w, s.pending = .write (s.cfg.base + off) w :: rest →
        step s = .next { s with pending := rest })

/-- R44: an access to offset a is an access to the word at a − (a mod 4), and none raises an error: each
answers a next state. -/
def Obligations.AddressBitsAreIgnored : Prop :=
  ∀ (s : State) (off : Nat) (w : Word) (rest : List BusEvent), off < 0x30000 →
    (∃ t, step { s with pending := .read (s.cfg.base + off) :: rest } = .next t ∧
      step { s with pending := .read (s.cfg.base + (off - off % 4)) :: rest } = .next t) ∧
    (∃ t, step { s with pending := .write (s.cfg.base + off) w :: rest } = .next t ∧
      step { s with pending := .write (s.cfg.base + (off - off % 4)) w :: rest } = .next t)

/-- The byte lanes of a sample word are little-endian: byte 4k + i of a buffer is bits 8i+7 : 8i of its
word 4k (20_memory.md section 2). -/
def Obligations.ByteLanesAreLittleEndian : Prop :=
  ∀ (s : State) (a i : Nat), i < 4 → s.bufByte (a + i) = (s.bufWord a).extractLsb' (8 * i) 8

/-- The register map is one to one: every named word the parameters give the window decodes from its own
offset, which is a word offset inside the window (10_state.md section 3). -/
def Obligations.RegisterMapRoundTrip : Prop :=
  ∀ (p : Params) (r : Reg), p.legal = true → Reg.exists p r = true →
    regAt p (r.offset p) = some r ∧ r.offset p < 0x30000 ∧ r.offset p % 4 = 0

/-- A step answers a next state unless the host's next access is outside the window: no command, no
access in the window and no reset stops the block, and with nothing pending it holds all state
(20_memory.md section 5, 60_exceptions.md section 1). The fault outside the window is the model's
choice (log 8). -/
def Obligations.OnlyAccessesOutsideTheWindowStop : Prop :=
  ∀ s : State,
    (s.pending = [] → step s = .next s) ∧
    (∀ rest, s.pending = .reset :: rest → ∃ t, step s = .next t) ∧
    (∀ a rest, s.pending = .read a :: rest ∨ (∃ w, s.pending = .write a w :: rest) →
      ((s.cfg.base ≤ a ∧ a < s.cfg.base + 0x30000) → ∃ t, step s = .next t) ∧
      (¬(s.cfg.base ≤ a ∧ a < s.cfg.base + 0x30000) → step s = .fault (.outsideWindow a)))

/-! ### How commands end -/

/-- R113: every command ends; one that raises an error has changed nothing but STATUS.ERR, except that a
failed VIB_INIT has run vib_clear and a failed PPM_INIT has run ppm_clear. -/
def Obligations.FailingCommandsLeaveNoPartialResult : Prop :=
  ∀ (i : Instr) (s : State), ∃ t, exec i s = .next t ∧
    (t.err ≠ .noError →
      t = match i with
        | .vibInit => { s.vibClear with err := t.err }
        | .ppmInit => { s.ppmClear with err := t.err }
        | _ => { s with err := t.err })

/-- R114: when several checks fail, the command reports the first in the rule's order. -/
def Obligations.FirstErrorIsReported : Prop :=
  ∀ (s : State) (w : Word) (rest : List BusEvent), Issues s w rest →
    (IllegalWord w → ∃ t, step s = .next t ∧ t.err = .illegalCommand) ∧
    (∀ i : Instr, i.wellFormed = true → encode i = w →
      ∃ t, step s = .next t ∧ t.err = firstError s i)

/-- R25: the fields of STATUS and their reset values; every command writes ERR, only the commands of
41_vibrato.md write VINIT and only those of 42_ppm.md write PINIT. -/
def Obligations.StatusFieldsAndTheirWriters : Prop :=
  (∀ s : State,
    (s.status.extractLsb' 0 3).toNat =
      (match s.err with
        | .noError => 0 | .notInitialized => 1 | .invalidArgs => 2 | .unknownError => 3
        | .illegalCommand => 4) ∧
    s.status.getLsbD 8 = s.vib.init ∧ s.status.getLsbD 9 = s.ppm.init ∧
    ∀ k, (3 ≤ k ∧ k ≤ 7) ∨ 10 ≤ k → s.status.getLsbD k = false) ∧
  State.reset.status = 0 ∧
  (∀ (s : State) (w : Word) (rest : List BusEvent) (e : ErrCode), Issues s w rest →
    ∃ t u, step s = .next t ∧ step { s with err := e } = .next u ∧ t.err = u.err) ∧
  (∀ (i : Instr) (s t : State), exec i s = .next t →
    (i ≠ .vibInit → i ≠ .vibProcess → i ≠ .vibReset → t.vib.init = s.vib.init) ∧
    (isVib i = true → t.ppm.init = s.ppm.init)) ∧
  (∀ (s t : State) (a : Nat) (w : Word) (rest : List BusEvent),
    s.pending = .write a w :: rest → s.cfg.base + 4 ≤ a → step s = .next t → t.status = s.status)

/-- No command writes CMD, ARG, FRAMES, a staging register or PPM_CTRL, the parameters, or what belongs
to the host (10_state.md sections 4 to 6). -/
def Obligations.CommandsLeaveTheHostsRegisters : Prop :=
  ∀ (i : Instr) (s t : State), exec i s = .next t →
    t.cfg = s.cfg ∧ t.cmd = s.cmd ∧ t.arg = s.arg ∧ t.frames = s.frames ∧ t.draws = s.draws ∧
    t.pending = s.pending ∧ t.rdata = s.rdata ∧
    t.vib.fs = s.vib.fs ∧ t.vib.nch = s.vib.nch ∧ t.vib.freq = s.vib.freq ∧
    t.vib.width = s.vib.width ∧ t.vib.amp = s.vib.amp ∧
    t.ppm.fs = s.ppm.fs ∧ t.ppm.nch = s.ppm.nch ∧ t.ppm.mode = s.ppm.mode ∧ t.ppm.db = s.ppm.db

/-- R27: only DL_READ and PPM_GETPARAM write RESULT, and only when they succeed: the interpolated sample,
the reconstructed time constant; RESULT is read-only to the host. -/
def Obligations.ResultIsWrittenOnlyBySuccess : Prop :=
  (∀ (i : Instr) (s t : State), exec i s = .next t →
    (t.err ≠ .noError → t.result = s.result) ∧
    (t.err = .noError → t.result =
      match i with
      | .dlRead c => (s.vib.line c).read s.vib.cap.toNat s.arg
      | .ppmGetParam p =>
        timeOf F32.config s.ppm.aFs (if p = 0 then s.ppm.acoef else s.ppm.rcoef)
      | _ => s.result)) ∧
  (∀ (s t : State) (a : Nat) (w : Word) (rest : List BusEvent),
    s.pending = .write a w :: rest → s.cfg.base + 4 ≤ a → step s = .next t → t.result = s.result)

/-- R82, through VIB_RESET: every write index, delay cell and latched register is 0 and VINIT is 0; the
staging registers, IN, OUT, ARG, RESULT, FRAMES and the PPM unit are untouched. -/
def Obligations.VibResetClearsTheUnit : Prop :=
  ∀ s : State, ∃ v : Vib, exec .vibReset s = .next { s with err := .noError, vib := v } ∧
    (∀ c, (v.line c).widx = 0 ∧ ∀ k, Cells.word (v.line c).cells k = 0) ∧
    v = { s.vib with
      init := false, aFs := 0, aNch := 0, cap := 0, cdelay := 0, amps := 0, pinc := 0, phase := 0,
      lines := v.lines }

/-- R98, through PPM_RESET: every PPM_PREV, PPM_OUT and latched register is 0 and PINIT is 0; PPM_FS,
PPM_NCH, PPM_CTRL, IN, OUT, ARG, RESULT, FRAMES and the vibrato unit are untouched. -/
def Obligations.PpmResetClearsTheUnit : Prop :=
  ∀ s : State, ∃ m : Ppm, exec .ppmReset s = .next { s with err := .noError, ppm := m } ∧
    (∀ c, Cells.word m.prev c = 0 ∧ Cells.word m.out c = 0) ∧
    m = { s.ppm with
      init := false, aFs := 0, aNch := 0, aMode := false, acoef := 0, rcoef := 0,
      prev := m.prev, out := m.out }

/-- R84 and R100: a failed INIT leaves its unit cleared and uninitialized, even if it was initialized
before; the commands that need the unit raise NotInitialized; and nothing but a successful INIT of
that unit makes it initialized again. -/
def Obligations.FailedInitLeavesTheUnitUnusable : Prop :=
  (∀ s t : State, exec .vibInit s = .next t → t.err ≠ .noError →
    t.vib.init = false ∧ t.vib.Cleared ∧
    ∀ c, (t.vib.line c).widx = 0 ∧ ∀ k, Cells.word (t.vib.line c).cells k = 0) ∧
  (∀ s t : State, exec .ppmInit s = .next t → t.err ≠ .noError →
    t.ppm.init = false ∧ t.ppm.Cleared) ∧
  (∀ s : State, s.vib.init = false → ∀ i, i = .vibProcess ∨ (∃ c, i = .dlWrite c ∨ i = .dlRead c) →
    exec i s = .next { s with err := .notInitialized }) ∧
  (∀ s : State, s.ppm.init = false →
    ∀ i, i = .ppmProcess ∨ (∃ p, i = .ppmSetParam p ∨ i = .ppmGetParam p) →
    exec i s = .next { s with err := .notInitialized }) ∧
  (∀ s t : State, step s = .next t → s.vib.init = false → t.vib.init = true →
    t.err = .noError ∧ ∃ w rest, Issues s w rest ∧ decode w = .ok .vibInit) ∧
  (∀ s t : State, step s = .next t → s.ppm.init = false → t.ppm.init = true →
    t.err = .noError ∧ ∃ w rest, Issues s w rest ∧ decode w = .ok .ppmInit)

/-! ### The delay line -/

/-- R66, through DL_WRITE: the word goes unchanged into the cell at the write index, then the index
advances with wrap-around; nothing else is written. -/
def Obligations.DlWriteStoresAndAdvances : Prop :=
  ∀ (s : State) (c : Nat), s.vib.init = true → c < s.vib.aNch.toNat → 0 < s.vib.cap.toNat →
    ∃ ls : Cells Line,
      exec (.dlWrite c) s = .next { s with err := .noError, vib := { s.vib with lines := ls } } ∧
      let l := s.vib.line c
      let l' := Cells.read Line.empty ls c
      Cells.word l'.cells l.widx.toNat = s.arg ∧
      (∀ k, k ≠ l.widx.toNat → Cells.word l'.cells k = Cells.word l.cells k) ∧
      l'.widx.toNat = (l.widx.toNat + 1) % s.vib.cap.toNat ∧
      ∀ c', c' ≠ c → Cells.read Line.empty ls c' = s.vib.line c'

/-- R69: a delay is valid exactly when it is no NaN and lies between 0 and C − 1, as exact numbers, so
an infinite delay is invalid; DL_READ reports an invalid one and does not clamp it. -/
def Obligations.DelayValidityIsExact : Prop :=
  (∀ (d : Word) (C : Nat), 1 ≤ C → C ≤ 2 ^ 24 →
    (DelayOk d C ↔
      F32.isNaN d = false ∧ 0 ≤ F32.val d ∧ F32.val d ≤ ((C - 1 : Nat) : Int) * 2 ^ 149) ∧
    (F32.isInf d = true → ¬DelayOk d C) ∧
    (F32.isZero d = true → DelayOk d C)) ∧
  (∀ (s : State) (c : Nat), s.vib.init = true → c < s.vib.aNch.toNat →
    ¬DelayOk s.arg s.vib.cap.toNat → exec (.dlRead c) s = .next { s with err := .invalidArgs })

/-- R70 and R68, through DL_READ: with i the whole part of the delay and f its fraction, both exact, the
result is tap i unchanged when f is 0, else (1 − f)·a + f·b over taps i and i + 1 in four rounded
operations; no other state changes. -/
def Obligations.DlReadInterpolates : Prop :=
  ∀ (s : State) (c : Nat), s.vib.init = true → c < s.vib.aNch.toNat →
    1 ≤ s.vib.cap.toNat → s.vib.cap.toNat ≤ 2 ^ 24 → DelayOk s.arg s.vib.cap.toNat →
    ∃ (i : Nat) (f : Word),
      i ≤ s.vib.cap.toNat - 1 ∧ F32.isFinite f = true ∧
      F32.val f = F32.val s.arg - (i : Int) * 2 ^ 149 ∧ 0 ≤ F32.val f ∧ F32.val f < 2 ^ 149 ∧
      (F32.val f ≠ 0 → i + 1 ≤ s.vib.cap.toNat - 1) ∧
      let C := s.vib.cap.toNat
      let l := s.vib.line c
      let a := Cells.word l.cells ((l.widx.toNat + C - 1 - i) % C)
      let b := Cells.word l.cells ((l.widx.toNat + C - 1 - (i + 1)) % C)
      exec (.dlRead c) s = .next { s with
        err := .noError
        result := if F32.val f = 0 then a
          else F32.fadd (F32.fmul (F32.fsub F32.ONE f) a) (F32.fmul f b) }

/-- R74: after the words vs have been written to channel c, a read at whole-number delay k gives the word
written k writes before the most recent, or what the line held before them, +0 when it was clear; a
read of +0 gives the last word; reading twice gives the same; after C writes every cell holds one of
them and the write index is back. -/
def Obligations.DelayLineLaws : Prop :=
  ∀ (s : State) (c : Nat) (vs : List Word), 1 ≤ s.vib.cap.toNat → s.vib.cap.toNat ≤ 2 ^ 24 →
    (s.vib.line c).widx.toNat < s.vib.cap.toNat →
    let t := vs.foldl (fun s v => s.dlWrite c v) s
    (∀ k < s.vib.cap.toNat,
      t.dlRead c (F32.ofNat k) =
        if h : k < vs.length then vs[vs.length - 1 - k]
        else s.dlRead c (F32.ofNat (k - vs.length))) ∧
    (s.vib.line c = Line.empty → ∀ k < s.vib.cap.toNat, vs.length ≤ k →
      t.dlRead c (F32.ofNat k) = 0) ∧
    (∀ h : vs ≠ [], t.dlRead c F32.posZero = vs.getLast h) ∧
    (∀ u, exec (.dlRead c) t = .next u → u.err = .noError → exec (.dlRead c) u = .next u) ∧
    (vs.length = s.vib.cap.toNat →
      (t.vib.line c).widx = (s.vib.line c).widx ∧
      ∀ k < s.vib.cap.toNat, Cells.word (t.vib.line c).cells k ∈ vs)

/-! ### The vibrato unit -/

/-- VIB_INIT with valid parameters that fit: the unit is cleared, the parameters are latched and the
derived values computed, the phase is +0, and nothing else changes (41_vibrato.md sections 1 and 2). -/
def Obligations.VibInitLatchesTheParameters : Prop :=
  ∀ s : State, VibArgs s → VibFits s →
    exec .vibInit s = .next { s with
      err := .noError
      vib := { s.vib with
        init := true
        aFs := s.vib.fs
        aNch := s.vib.nch
        cdelay := BitVec.ofNat 32 (F32.ceil (F32.fmul s.vib.width s.vib.fs))
        cap := BitVec.ofNat 32 (2 * F32.ceil (F32.fmul s.vib.width s.vib.fs) + 2)
        amps := F32.fmul s.vib.amp s.vib.fs
        pinc := F32.fmul 0x40C90FDB#32 (F32.fdiv s.vib.freq s.vib.fs)
        phase := 0
        lines := [] } }

/-- R76: AMPS = fmul(A, fs), and AMPS ≤ P ≤ float(ceil(P)), because rounding is monotone. -/
def Obligations.AmplitudeIsAtMostTheCenterDelay : Prop :=
  ∀ s t : State, s.cfg.legal = true → VibArgs s → VibFits s → exec .vibInit s = .next t →
    t.vib.amps = F32.fmul s.vib.amp s.vib.fs ∧
    F32.fle t.vib.amps (F32.fmul s.vib.width s.vib.fs) = true ∧
    F32.fle (F32.fmul s.vib.width s.vib.fs) (F32.ofNat t.vib.cdelay.toNat) = true

/-- R77: PINC = fmul(TWO_PI, fdiv(f, fs)), and for 0 ≤ f < fs/2 the quotient is at most 0.5 and PINC at
most fmul(TWO_PI, HALF) = 0x40490FDB. -/
def Obligations.PhaseIncrementIsAtMostHalfATurn : Prop :=
  (∀ s t : State, VibArgs s → VibFits s → exec .vibInit s = .next t →
    t.vib.pinc = F32.fmul F32.TWO_PI (F32.fdiv s.vib.freq s.vib.fs)) ∧
  (∀ f fs : Word, F32.isFinite fs = true → F32.fgt fs F32.posZero = true →
    F32.isFinite f = true → F32.fge f F32.posZero = true → F32.flt f (F32.fmul fs F32.HALF) = true →
    F32.fle (F32.fdiv f fs) F32.HALF = true ∧
    F32.fle F32.posZero (F32.fmul F32.TWO_PI (F32.fdiv f fs)) = true ∧
    F32.fle (F32.fmul F32.TWO_PI (F32.fdiv f fs)) 0x40490FDB#32 = true) ∧
  F32.fmul F32.TWO_PI F32.HALF = 0x40490FDB#32

/-- R78: one advance adds PINC and subtracts TWO_PI once when the sum reaches it, exactly; from a phase
in [+0, TWO_PI) with PINC ≤ TWO_PI/2 the phase is again in [+0, TWO_PI). -/
def Obligations.PhaseStaysWithinOneTurn : Prop :=
  ∀ p pinc : Word,
    F32.fle F32.posZero p = true → F32.flt p F32.TWO_PI = true →
    F32.fle F32.posZero pinc = true → F32.fle pinc (F32.fmul F32.TWO_PI F32.HALF) = true →
    let q := F32.fadd p pinc
    (F32.fge q F32.TWO_PI = true →
      advance pinc p = F32.fsub q F32.TWO_PI ∧
      F32.val (advance pinc p) = F32.val q - F32.val F32.TWO_PI) ∧
    (F32.fge q F32.TWO_PI = false → advance pinc p = q) ∧
    F32.fle F32.posZero (advance pinc p) = true ∧ F32.flt (advance pinc p) F32.TWO_PI = true

/-- R80, for any SIN with the properties of R17: the instantaneous delay of an initialized unit lies
between +0 and float(2·Wn) = float(C − 2), so it is a valid delay for capacity C. -/
def Obligations.ModulatedDelayIsAlwaysValid : Prop :=
  ∀ (F : Functions) (s : State), F32.LegalSin F.sin → s.Inv → s.vib.init = true →
    let m := F32.fmul s.vib.amps (F.sin s.vib.phase)
    let d := F32.fadd (F32.ofNat s.vib.cdelay.toNat) m
    instantDelay F s.vib = d ∧
    F32.fle (F32.neg s.vib.amps) m = true ∧ F32.fle m s.vib.amps = true ∧
    F32.fle F32.posZero d = true ∧ F32.fle d (F32.ofNat (2 * s.vib.cdelay.toNat)) = true ∧
    F32.ofNat (2 * s.vib.cdelay.toNat) = F32.ofNat (s.vib.cap.toNat - 2) ∧
    DelayOk d s.vib.cap.toNat

/-- VIB_PROCESS, channel by channel: the phase advances once per frame; each channel's line takes its own
input samples in order; OUT[c][n] is channel c's line, as frame n leaves it, read at frame n's delay;
no other line, register or byte of memory changes (41_vibrato.md sections 1 and 2). -/
def Obligations.VibProcessRunsEachChannel : Prop :=
  ∀ s : State, s.cfg.legal = true → s.vib.init = true → s.vib.aNch.toNat ≤ s.cfg.nchMax →
    FramesOk s →
    let N := s.vib.aNch.toNat
    let nf := s.frames.toNat
    ∃ (ls : Cells Line) (m : Memory),
      let t : State := { s with
        err := .noError, vib := { s.vib with phase := phaseAt s.vib nf, lines := ls }, buf := m }
      exec .vibProcess s = .next t ∧
      (∀ c, t.vib.line c = if c < N then lineAfter s c nf else s.vib.line c) ∧
      (∀ c n, c < N → n < nf →
        t.readOut c n = (lineAfter s c (n + 1)).read s.vib.cap.toNat (delayAt s.vib n)) ∧
      (∀ a, (¬∃ c n j, c < N ∧ n < nf ∧ j < 4 ∧ a = outOffset s.cfg c n + j) →
        t.bufByte a = s.bufByte a)

/-- R86: two VIB_PROCESS commands of n1 and n2 frames, with the next n2 frames of input written to the
start of IN between them, write the same OUT words and leave the same unit as one command of n1 + n2
frames over the concatenated input. -/
def Obligations.BlocksJoinWithoutASeam : Prop :=
  ∀ (s s1 s2 : State) (n1 n2 : Nat),
    s.cfg.legal = true → s.vib.init = true → s.vib.aNch.toNat ≤ s.cfg.nchMax →
    n1 + n2 ≤ s.cfg.blkMax →
    s.frames = BitVec.ofNat 32 (n1 + n2) →
    s1 = { s with frames := BitVec.ofNat 32 n1 } →
    (∃ t1, exec .vibProcess s1 = .next t1 ∧ s2.cfg = s.cfg ∧ s2.vib = t1.vib ∧
      s2.frames = BitVec.ofNat 32 n2 ∧
      ∀ c n, c < s.vib.aNch.toNat → n < n2 → s2.readIn c n = s.readIn c (n1 + n)) →
    ∃ t t1 t2, exec .vibProcess s = .next t ∧ exec .vibProcess s1 = .next t1 ∧
      exec .vibProcess s2 = .next t2 ∧ t2.vib.phase = t.vib.phase ∧
      (∀ c, t2.vib.line c = t.vib.line c) ∧
      { t2.vib with lines := t.vib.lines } = t.vib ∧
      (∀ c n, c < s.vib.aNch.toNat → n < n1 → t1.readOut c n = t.readOut c n) ∧
      (∀ c n, c < s.vib.aNch.toNat → n < n2 → t2.readOut c n = t.readOut c (n1 + n))

/-- R88: when VIB_AMPS or VIB_PINC is ±0, every frame's delay is float(Wn), and every OUT word is the
channel's input word of Wn frames earlier, bit-exactly: this block's, or what an earlier block left in
the line; where there is none since VIB_INIT, +0. -/
def Obligations.UnmodulatedVibratoIsAFixedDelay : Prop :=
  ∀ s : State, s.Inv → s.vib.init = true → FramesOk s →
    F32.isZero s.vib.amps = true ∨ F32.isZero s.vib.pinc = true →
    let C := s.vib.cap.toNat
    let Wn := s.vib.cdelay.toNat
    let nf := s.frames.toNat
    (∀ n, delayAt s.vib n = F32.ofNat Wn) ∧
    ∃ t, exec .vibProcess s = .next t ∧
      ∀ c < s.vib.aNch.toNat,
        (∀ n < nf, t.readOut c n =
          if Wn ≤ n then s.readIn c (n - Wn) else (s.vib.line c).tap C (Wn - 1 - n)) ∧
        (s.vib.line c = Line.empty → ∀ n < nf, n < Wn → t.readOut c n = 0) ∧
        (∀ k < C, (t.vib.line c).tap C k =
          if k < nf then s.readIn c (nf - 1 - k) else (s.vib.line c).tap C (k - nf))

/-- With every cell of a channel's line and every input word of the block ±0, every OUT word of the
channel is ±0 and its cells stay ±0 (41_vibrato.md section 3). -/
def Obligations.ZeroInputGivesZeroOutput : Prop :=
  ∀ (s t : State) (c : Nat), s.Inv → s.vib.init = true → FramesOk s → c < s.vib.aNch.toNat →
    (∀ k, F32.isZero (Cells.word (s.vib.line c).cells k) = true) →
    (∀ n < s.frames.toNat, F32.isZero (s.readIn c n) = true) →
    exec .vibProcess s = .next t →
    (∀ n < s.frames.toNat, F32.isZero (t.readOut c n) = true) ∧
    ∀ k, F32.isZero (Cells.word (t.vib.line c).cells k) = true

/-! ### The PPM unit -/

/-- PPM_INIT with valid parameters: the unit is cleared, the rate, channel count and variant are latched,
both coefficients take their defaults (0.01 s and 1.5 s), and nothing else changes (42_ppm.md
section 2). -/
def Obligations.PpmInitLatchesTheParameters : Prop :=
  ∀ s : State, PpmArgs s →
    exec .ppmInit s = .next { s with
      err := .noError
      ppm := { s.ppm with
        init := true
        aFs := s.ppm.fs
        aNch := s.ppm.nch
        aMode := s.ppm.mode
        acoef := F32.fsub F32.ONE (F32.config.exp (F32.fdiv F32.K22 (F32.fmul s.ppm.fs 0x3C23D70A#32)))
        rcoef := F32.fsub F32.ONE (F32.config.exp (F32.fdiv F32.K22 (F32.fmul s.ppm.fs 0x3FC00000#32)))
        prev := []
        out := [] } }

/-- PPM_SETPARAM with a valid parameter id and time stores the derived coefficient in PPM_ACOEF or
PPM_RCOEF and changes nothing else; −0 is taken as +0 (42_ppm.md sections 1 and 2). -/
def Obligations.SetParamStoresTheCoefficient : Prop :=
  ∀ (s : State) (p : Nat), s.ppm.init = true → p < 2 → TimeOk p s.arg →
    let t := if s.arg = 0x80000000#32 then 0x00000000#32 else s.arg
    let k := F32.fsub F32.ONE (F32.config.exp (F32.fdiv F32.K22 (F32.fmul s.ppm.aFs t)))
    exec (.ppmSetParam p) s = .next { s with
      err := .noError
      ppm := if p = 0 then { s.ppm with acoef := k } else { s.ppm with rcoef := k } }

/-- PPM_GETPARAM with a valid parameter id writes to RESULT the time constant reconstructed from the
stored coefficient and changes nothing else (42_ppm.md sections 1 and 2). -/
def Obligations.GetParamReconstructsTheTime : Prop :=
  ∀ (s : State) (p : Nat), s.ppm.init = true → p < 2 →
    let k := if p = 0 then s.ppm.acoef else s.ppm.rcoef
    exec (.ppmGetParam p) s = .next { s with
      err := .noError
      result := F32.fdiv F32.K22 (F32.fmul s.ppm.aFs (F32.config.ln (F32.fsub F32.ONE k))) }

/-- R91: the coefficient of a valid time constant, for any EXP with the properties of R17: it is 1.0 for a
time of 0, and lies between +0 and 1.0. -/
def Obligations.CoefficientsLieBetweenZeroAndOne : Prop :=
  ∀ (F : Functions) (fs t : Word) (p : Nat), F32.LegalExp F.exp →
    F32.isFinite fs = true → F32.fgt fs F32.posZero = true → TimeOk p t →
    coefOf F fs t =
      F32.fsub F32.ONE (F.exp (F32.fdiv F32.K22
        (F32.fmul fs (if F32.isZero t = true then F32.posZero else t)))) ∧
    (F32.isZero t = true → coefOf F fs t = F32.ONE) ∧
    F32.fle F32.posZero (coefOf F fs t) = true ∧ F32.fle (coefOf F fs t) F32.ONE = true

/-- R92, for any LN with the properties of R17: a coefficient of 1.0 reads back as +0, and one of +0 as
−∞. -/
def Obligations.ReconstructedTimeAtTheBounds : Prop :=
  ∀ (F : Functions) (fs k : Word), F32.LegalLn F.ln →
    F32.isFinite fs = true → F32.fgt fs F32.posZero = true →
    timeOf F fs k = F32.fdiv F32.K22 (F32.fmul fs (F.ln (F32.fsub F32.ONE k))) ∧
    timeOf F fs F32.ONE = F32.posZero ∧ timeOf F fs F32.posZero = F32.negInf

/-- R96 and R97, through PPM_PROCESS in either variant: PPM_PREV follows the smoothing filter over the
rectified samples; the emitted maximum M is +0 or one of the block's smoothed values, at least +0 and
at least every one of them that is no NaN; PPM_OUT is M, or fmul(20, LOG10(M)) with DB set; every
other channel's PPM_PREV and PPM_OUT, and all other state, is unchanged. -/
def Obligations.PpmProcessEmitsTheBlockMaximum : Prop :=
  ∀ s : State, s.ppm.init = true → FramesOk s →
    let nf := s.frames.toNat
    ∃ prev out : Cells Word,
      exec .ppmProcess s =
        .next { s with err := .noError, ppm := { s.ppm with prev := prev, out := out } } ∧
      ∀ c, (Tracked s c →
          Cells.word prev c = envelope s c nf ∧
          ∃ M : Word,
            (M = F32.posZero ∨ ∃ n < nf, M = envelope s c (n + 1)) ∧
            F32.fle F32.posZero M = true ∧
            (∀ n < nf, F32.isNaN (envelope s c (n + 1)) = true ∨
              F32.fle (envelope s c (n + 1)) M = true) ∧
            Cells.word out c =
              (if s.ppm.db then F32.fmul F32.K20 (F32.config.log10 M) else M)) ∧
        (¬Tracked s c → Cells.word prev c = Cells.word s.ppm.prev c ∧
          Cells.word out c = Cells.word s.ppm.out c)

/-- R105: a time of 0 sets a coefficient of 1.0; with RCOEF = 1.0 every RELEASE step from a finite value
gives +0; with ACOEF = 1.0 every ATTACK step on finite values gives the rectified input. -/
def Obligations.ZeroTimesActAtOnce : Prop :=
  (∀ (F : Functions) (fs t : Word), F32.LegalExp F.exp → F32.isFinite fs = true →
    F32.fgt fs F32.posZero = true → F32.isZero t = true → coefOf F fs t = F32.ONE) ∧
  (∀ prev x ac : Word, F32.isFinite prev = true → F32.fgt prev (F32.fabs x) = true →
    smooth prev (F32.fabs x) ac F32.ONE = F32.posZero) ∧
  (∀ prev x rc : Word, F32.isFinite prev = true → F32.isFinite x = true →
    F32.fgt prev (F32.fabs x) = false → smooth prev (F32.fabs x) F32.ONE rc = F32.fabs x)

/-- R39's second invariant, kept by every step from a sound state, in the forms that hold (log 19):
- PPM_PREV stays finite and ≥ +0, hence no NaN, while the metered words are finite: in the per-channel
  variant exactly R39's premise, in the mono variant that of finite channel sums;
- in either variant, for PPM_PREV that may be +∞, R39's invariant with its own premise on the IN words,
  while +0 < ACOEF < 1.0 and RCOEF < 1.0;
- one smoothing step from a finite value stays finite and ≥ +0;
- at the coefficient 1.0 the mono variant does not keep it: from PPM_PREV all +0, finite IN words whose
  sum overflows can leave a NaN, so the premises added above cannot all be dropped.
(10_state.md section 6, 42_ppm.md section 3; see SmoothingNeverMakesANaN.) -/
def Obligations.SmoothingKeepsFiniteNonNegativity : Prop :=
  (∀ s t : State, s.Inv → s.PrevFinite → MetersFinite s → step s = .next t →
    t.PrevFinite ∧ t.PrevOk) ∧
  (∀ s t : State, s.Inv → s.PrevOk → ReadsFinite s →
    (s.ppm.init = true → F32.fgt s.ppm.acoef F32.posZero = true ∧
      F32.flt s.ppm.acoef F32.ONE = true ∧ F32.flt s.ppm.rcoef F32.ONE = true) →
    step s = .next t → t.PrevOk) ∧
  (∀ prev cur ac rc : Word,
    F32.isFinite prev = true → F32.fge prev F32.posZero = true →
    F32.fge ac F32.posZero = true → F32.fle ac F32.ONE = true →
    F32.fge rc F32.posZero = true → F32.fle rc F32.ONE = true →
    F32.isFinite cur = true → F32.fge cur F32.posZero = true →
    F32.isNaN (smooth prev cur ac rc) = false ∧ F32.isFinite (smooth prev cur ac rc) = true ∧
    F32.fge (smooth prev cur ac rc) F32.posZero = true) ∧
  ¬∀ s t : State, s.Inv → s.ppm.init = true → FramesOk s → (∀ c, Cells.word s.ppm.prev c = 0) →
    (∀ c n, c < s.ppm.aNch.toNat → n < s.frames.toNat → F32.isFinite (s.readIn c n) = true) →
    exec .ppmProcess s = .next t → t.PrevOk

/-- R107 as written. It is expected to FAIL: a previous value of +∞ is ≥ +0, and with rc = 1.0 the
RELEASE step is fmul(+0, +∞), a NaN. -/
def Obligations.SmoothingNeverMakesANaN : Prop :=
  ∀ prev cur ac rc : Word,
    F32.fge prev F32.posZero = true →
    F32.fge ac F32.posZero = true → F32.fle ac F32.ONE = true →
    F32.fge rc F32.posZero = true → F32.fle rc F32.ONE = true →
    F32.isFinite cur = true → F32.fge cur F32.posZero = true →
    F32.isNaN (smooth prev cur ac rc) = false ∧ F32.fge (smooth prev cur ac rc) F32.posZero = true

/-- A channel whose smoothed value is a NaN keeps a NaN through every step but PPM_INIT, PPM_RESET and
hardware reset, and no NaN is ever emitted as a linear maximum; an infinite sample rectifies to +∞
and attacks to +∞ from a finite value (42_ppm.md section 3). -/
def Obligations.NaNStaysUntilTheUnitIsCleared : Prop :=
  (∀ (s t : State) (c : Nat), step s = .next t →
    F32.isNaN (Cells.word s.ppm.prev c) = true →
    (∀ rest, s.pending ≠ .reset :: rest) →
    (∀ w rest, Issues s w rest → decode w ≠ .ok .ppmInit ∧ decode w ≠ .ok .ppmReset) →
    F32.isNaN (Cells.word t.ppm.prev c) = true) ∧
  (∀ prev cur ac rc : Word, F32.isNaN prev = true ∨ F32.isNaN cur = true →
    smooth prev cur ac rc = F32.qNaN) ∧
  (∀ (s t : State) (c : Nat), s.ppm.init = true → FramesOk s → s.ppm.db = false →
    exec .ppmProcess s = .next t → Tracked s c → F32.isNaN (Cells.word t.ppm.out c) = false) ∧
  (∀ x prev ac rc : Word, F32.isInf x = true → F32.isFinite prev = true →
    F32.flt F32.posZero ac = true → F32.fle ac F32.ONE = true →
    F32.fabs x = F32.posInf ∧ smooth prev (F32.fabs x) ac rc = F32.posInf)

/-- R109: when every sample PPM_PROCESS reads is ±0 and PPM_PREV starts at +0, PPM_PREV stays +0 and
PPM_OUT is +0, or −∞ with DB set. -/
def Obligations.ZeroInputMetersZero : Prop :=
  ∀ s : State, s.Inv → s.ppm.init = true → FramesOk s →
    (∀ c n, c < s.ppm.aNch.toNat → n < s.frames.toNat → F32.isZero (s.readIn c n) = true) →
    (∀ c, Cells.word s.ppm.prev c = 0) →
    ∃ t, exec .ppmProcess s = .next t ∧ (∀ c, Cells.word t.ppm.prev c = 0) ∧
      ∀ c, Tracked s c →
        Cells.word t.ppm.out c = if s.ppm.db then 0xFF800000#32 else 0x00000000#32

/-- Splitting a run of frames into two PPM_PROCESS commands gives the same PPM_PREV, and only PPM_INIT,
PPM_RESET, PPM_PROCESS and hardware reset change PPM_PREV at all (42_ppm.md section 3). -/
def Obligations.MeterStatePersists : Prop :=
  (∀ (s s1 s2 : State) (n1 n2 : Nat),
    s.ppm.init = true → s.cfg.legal = true → n1 + n2 ≤ s.cfg.blkMax →
    s.frames = BitVec.ofNat 32 (n1 + n2) →
    s1 = { s with frames := BitVec.ofNat 32 n1 } →
    (∃ t1, exec .ppmProcess s1 = .next t1 ∧ s2.cfg = s.cfg ∧ s2.ppm = t1.ppm ∧
      s2.frames = BitVec.ofNat 32 n2 ∧
      ∀ c n, c < max 1 s.ppm.aNch.toNat → n < n2 → s2.readIn c n = s.readIn c (n1 + n)) →
    ∃ t t2, exec .ppmProcess s = .next t ∧ exec .ppmProcess s2 = .next t2 ∧
      ∀ c, Cells.word t2.ppm.prev c = Cells.word t.ppm.prev c) ∧
  (∀ s t : State, step s = .next t → t.ppm.prev ≠ s.ppm.prev →
    (∃ rest, s.pending = .reset :: rest) ∨
    ∃ w rest, Issues s w rest ∧
      (decode w = .ok .ppmInit ∨ decode w = .ok .ppmReset ∨ decode w = .ok .ppmProcess))

/-- With one channel the two variants compute the same values (42_ppm.md section 2). -/
def Obligations.OneChannelVariantsAgree : Prop :=
  ∀ (s t : State), s.ppm.aNch = 1 → s.ppm.aMode = false → exec .ppmProcess s = .next t →
    ∃ u, exec .ppmProcess { s with ppm := { s.ppm with aMode := true } } = .next u ∧
      u.err = t.err ∧ u.ppm.prev = t.ppm.prev ∧ u.ppm.out = t.ppm.out

/-! ### Invariants, reset and independence -/

/-- The state after reset is sound, and every PPM_PREV in it is finite and ≥ +0 (R39). -/
def Obligations.ResetStateIsSound : Prop := State.reset.Inv ∧ State.reset.PrevFinite

/-- R32, with the sparse arrays' canonical form, the parameters' ranges and the PPM unit's legal values:
every step from a sound state gives a sound state, whatever the host does. -/
def Obligations.StepKeepsTheStateSound : Prop :=
  ∀ s t : State, s.Inv → step s = .next t → t.Inv

/-- Every step keeps the canonical form of memory and of the other sparse arrays, in any state. -/
def Obligations.StepKeepsArraysCanonical : Prop :=
  ∀ s t : State, s.arraysOk = true → step s = .next t → t.arraysOk = true ∧ t.cfg = s.cfg

/-- R124: asserting reset gives every register the value 0 and every cell +0, leaves both units
uninitialized, and an INIT before any staging write raises InvalidArgs; State.reset is such a state. -/
def Obligations.ResetGivesTheResetValues : Prop :=
  (∀ (s : State) (rest : List BusEvent), s.pending = .reset :: rest → ∃ t, step s = .next t ∧
    (∀ r : Reg, (∀ c n, r ≠ .inWord c n ∧ r ≠ .outWord c n) → t.readReg r = 0) ∧
    (∀ c k, Cells.word (t.vib.line c).cells k = 0) ∧
    t.err = .noError ∧ t.vib.init = false ∧ t.ppm.init = false ∧
    exec .vibInit t = .next { t with err := .invalidArgs } ∧
    exec .ppmInit t = .next { t with err := .invalidArgs }) ∧
  (∀ r : Reg, (∀ c n, r ≠ .inWord c n ∧ r ≠ .outWord c n) → State.reset.readReg r = 0)

/-- A byte of the sample buffers changes only by a hardware reset, which gives every byte a fresh
arbitrary draw, by a host write to its word, or by a VIB_PROCESS that writes its OUT word; so no command
writes IN (10_state.md section 5, 70_reset_and_hazards.md section 1). The draw is the model's free
value (log 4). -/
def Obligations.BuffersChangeOnlyByTheirWriters : Prop :=
  ∀ (s t : State), step s = .next t →
    (∀ rest, s.pending = .reset :: rest →
      ∀ a, t.bufByte a = Config.bufferDraw t.cfg.base t.draws a ∧ t.draws = s.draws + 1) ∧
    ∀ a, t.bufByte a ≠ s.bufByte a →
      (∃ rest, s.pending = .reset :: rest) ∨
      (∃ w rest off, s.pending = .write (s.cfg.base + off) w :: rest ∧ 0x10000 ≤ off ∧
        off / 4 = a / 4) ∨
      (∃ w rest c n j, Issues s w rest ∧ decode w = .ok .vibProcess ∧ c < s.vib.aNch.toNat ∧
        n < s.frames.toNat ∧ j < 4 ∧ a = outOffset s.cfg c n + j)

/-- The two units are independent: a command of one reads and writes nothing of the other (00_scope.md
section 1). -/
def Obligations.UnitsAreIndependent : Prop :=
  ∀ (i : Instr) (s t : State), exec i s = .next t →
    (isVib i = true → ∀ p : Ppm,
      exec i { s with ppm := p } = .next { t with ppm := p } ∧ t.ppm = s.ppm) ∧
    (isVib i = false → ∀ v : Vib,
      exec i { s with vib := v } = .next { t with vib := v } ∧ t.vib = s.vib ∧ t.buf = s.buf)

/-- R131: changing a staging register changes nothing until the unit's next INIT: any other command has
the same effect and carries the changed register along; PPM_CTRL.DB alone is read afresh by each
PPM_PROCESS, which emits fmul(20, LOG10(M)) where it would have emitted M. -/
def Obligations.StagingTakesEffectOnlyAtInit : Prop :=
  (∀ (i : Instr) (s t : State) (fs nch freq width amp : Word), i ≠ .vibInit →
    exec i s = .next t →
    exec i { s with vib := { s.vib with
        fs := fs, nch := nch, freq := freq, width := width, amp := amp } } =
      .next { t with vib := { t.vib with
        fs := fs, nch := nch, freq := freq, width := width, amp := amp } }) ∧
  (∀ (i : Instr) (s t : State) (fs nch : Word) (mode : Bool), i ≠ .ppmInit →
    exec i s = .next t →
    exec i { s with ppm := { s.ppm with fs := fs, nch := nch, mode := mode } } =
      .next { t with ppm := { t.ppm with fs := fs, nch := nch, mode := mode } }) ∧
  (∀ (i : Instr) (s t : State) (db : Bool), i ≠ .ppmProcess → exec i s = .next t →
    exec i { s with ppm := { s.ppm with db := db } } =
      .next { t with ppm := { t.ppm with db := db } }) ∧
  (∀ (s t : State), s.ppm.init = true → FramesOk s → s.ppm.db = false →
    exec .ppmProcess s = .next t →
    ∃ u, exec .ppmProcess { s with ppm := { s.ppm with db := true } } = .next u ∧
      u.ppm.prev = t.ppm.prev ∧
      ∀ c, Tracked s c →
        Cells.word u.ppm.out c = F32.fmul F32.K20 (F32.config.log10 (Cells.word t.ppm.out c)))

/-- R55: a step of one instance of a platform reads and writes no state of another. -/
def Obligations.InstancesAreDisjoint : Prop :=
  ∀ (p q : Platform) (k : Nat), p.stepAt k = .next q →
    (∀ j, j ≠ k → q[j]? = p[j]?) ∧
    (∀ s, p[k]? = some s → ∃ s', step s = .next s' ∧ q[k]? = some s') ∧
    (∀ p' : Platform, p'[k]? = p[k]? → ∃ q', p'.stepAt k = .next q' ∧ q'[k]? = q[k]?)

/-! ### Arithmetic -/

/-- R12: each primitive rounds the exact result of its operands once, to nearest, ties to even, and
treats infinities, signed zeros and division by zero as IEEE 754 does; no operand or result is
flushed. R12 names IEEE 754 only by reference: the sign of a zero sum, the cases with infinite operands
and the threshold of overflow are the model's reading of it (PRESUMED, log 16). -/
def Obligations.ArithmeticRoundsOnce : Prop :=
  (∀ a b : Word, F32.isFinite a = true → F32.isFinite b = true →
    (F32.val a + F32.val b ≠ 0 →
      RoundedTo (decide (F32.val a + F32.val b < 0)) (F32.val a + F32.val b).natAbs 1 (F32.fadd a b)) ∧
    (F32.val a + F32.val b = 0 →
      F32.fadd a b = if F32.sign a = true ∧ F32.sign b = true then F32.negZero else F32.posZero) ∧
    RoundedTo (F32.sign a != F32.sign b) (F32.mag a * F32.mag b) (2 ^ 149) (F32.fmul a b) ∧
    (F32.isZero b = false →
      RoundedTo (F32.sign a != F32.sign b) (F32.mag a * 2 ^ 149) (F32.mag b) (F32.fdiv a b)) ∧
    (F32.isZero b = true → F32.isZero a = false →
      F32.fdiv a b = if F32.sign a = F32.sign b then F32.posInf else F32.negInf)) ∧
  (∀ a b : Word, F32.fsub a b = F32.fadd a (F32.neg b) ∧ F32.sign (F32.neg b) = !F32.sign b ∧
    F32.absBits (F32.neg b) = F32.absBits b) ∧
  (∀ a b : Word, F32.isZero a = true → F32.isZero b = true → F32.fdiv a b = F32.qNaN) ∧
  (∀ a b : Word, F32.isInf a = true → F32.isFinite b = true →
    F32.fadd a b = a ∧ F32.fadd b a = a ∧
    F32.fdiv a b = (if F32.sign a = F32.sign b then F32.posInf else F32.negInf) ∧
    F32.fdiv b a = (if F32.sign a = F32.sign b then F32.posZero else F32.negZero) ∧
    F32.fmul a b = (if F32.isZero b = true then F32.qNaN
      else if F32.sign a = F32.sign b then F32.posInf else F32.negInf) ∧
    F32.fmul b a = F32.fmul a b) ∧
  (∀ a b : Word, F32.isInf a = true → F32.isInf b = true →
    F32.fadd a b = (if F32.sign a = F32.sign b then a else F32.qNaN) ∧
    F32.fmul a b = (if F32.sign a = F32.sign b then F32.posInf else F32.negInf) ∧
    F32.fdiv a b = F32.qNaN)

/-- A NaN that an arithmetic primitive or a configuration function produces is the canonical one, and a
NaN operand of a primitive gives it (00_scope.md section 5). -/
def Obligations.ProducedNaNsAreCanonical : Prop :=
  (∀ a b : Word, ∀ r ∈ [F32.fadd a b, F32.fsub a b, F32.fmul a b, F32.fdiv a b],
    (F32.isNaN r = true → r = 0x7FC00000#32) ∧
    (F32.isNaN a = true ∨ F32.isNaN b = true → r = 0x7FC00000#32)) ∧
  (∀ x : Word, ∀ r ∈ [F32.config.sin x, F32.config.exp x, F32.config.ln x, F32.config.log10 x],
    F32.isNaN r = true → r = 0x7FC00000#32)

/-- R15: fabs clears bit 31 alone; floor, ceil and float are exact; the fraction fsub(d, float(floor(d)))
is exact. -/
def Obligations.ConversionsAreExact : Prop :=
  (∀ a : Word, (F32.fabs a).msb = false ∧
    ∀ k < 31, (F32.fabs a).getLsbD k = a.getLsbD k) ∧
  (∀ a : Word, F32.isFinite a = true → F32.fge a F32.posZero = true →
    ((F32.floor a : Int) * 2 ^ 149 ≤ F32.val a ∧ F32.val a < (F32.floor a + 1) * 2 ^ 149) ∧
    (F32.val a ≤ (F32.ceil a : Int) * 2 ^ 149 ∧ ((F32.ceil a : Int) - 1) * 2 ^ 149 < F32.val a) ∧
    F32.val (F32.fsub a (F32.ofNat (F32.floor a))) = F32.val a - (F32.floor a : Int) * 2 ^ 149) ∧
  (∀ i : Nat, i < 2 ^ 24 →
    F32.isFinite (F32.ofNat i) = true ∧ F32.val (F32.ofNat i) = (i : Int) * 2 ^ 149)

/-- R16: each named constant has the bits of the table, and is the binary32 value nearest to D0's decimal
literal. -/
def Obligations.ConstantsAreNearestToTheirLiterals : Prop :=
  (F32.TWO_PI = 0x40C90FDB#32 ∧ F32.K22 = 0xC00CCCCD#32 ∧ F32.T_AT_DEF = 0x3C23D70A#32 ∧
    F32.T_RT_DEF = 0x3FC00000#32 ∧ F32.T_AT_MAX = 0x3CA3D70A#32 ∧ F32.T_RT_MAX = 0x40000000#32 ∧
    F32.K20 = 0x41A00000#32 ∧ F32.HALF = 0x3F000000#32 ∧ F32.ONE = 0x3F800000#32) ∧
  F32.Nearest (2 * Real.pi) F32.TWO_PI ∧ F32.Nearest (-2.2) F32.K22 ∧
  F32.Nearest 0.01 F32.T_AT_DEF ∧ F32.Nearest 1.5 F32.T_RT_DEF ∧ F32.Nearest 0.02 F32.T_AT_MAX ∧
  F32.Nearest 2.0 F32.T_RT_MAX ∧ F32.Nearest 20 F32.K20 ∧ F32.Nearest (1 / 2) F32.HALF ∧
  F32.Nearest 1 F32.ONE

/-- R17: this implementation's configuration functions have the named properties, and nothing else is
assumed of them: any functions with the properties (and canonical NaN results) are left as they are. -/
def Obligations.ConfigurationIsAnyLegalOne : Prop :=
  F32.Legal F32.config ∧
  ∀ F : Functions, F32.Legal F →
    F32.legalSin F.sin = F.sin ∧ F32.legalExp F.exp = F.exp ∧ F32.legalLn F.ln = F.ln ∧
    F32.legalLog10 F.log10 = F.log10

/-- The reference configuration, correctly rounded, has the properties every configuration must have
(00_scope.md section 5). -/
def Obligations.ReferenceConfigurationIsLegal : Prop :=
  ∀ F : Functions, F32.Reference F → F32.Legal F

end
end

