-- ==== Sys2Proof/Laws/Binary32.lean ====
section
/-! SUPPORT. What rounding does, said once: the magnitude of a bit pattern, and that `roundMag` is
correct, monotone and exact on representable magnitudes (R12). -/

namespace Sys2Proof.Laws

open Sys2Proof.F32

/-- The magnitude of the bits 30:0, in units of 2^-149. -/
def magOf (b : Nat) : Nat :=
  if b / 2 ^ 23 = 0 then b else (b % 2 ^ 23 + 2 ^ 23) * 2 ^ (b / 2 ^ 23 - 1)

theorem mag_eq (w : Word) : mag w = magOf (absBits w) := rfl

theorem absBits_lt (w : Word) : absBits w < 2 ^ 31 := Nat.mod_lt _ (by decide)

@[simp] theorem magOf_zero : magOf 0 = 0 := rfl

/-- A step e and a significand n give the bits e·2^23 + n, whatever carry n holds. -/
theorem magOf_step (e n : Nat) (hn : n ≤ 2 ^ 24) (h : e = 0 ∨ 2 ^ 23 ≤ n) :
    magOf (e * 2 ^ 23 + n) = n * 2 ^ e := by
  unfold magOf
  rcases Nat.lt_or_ge n (2 ^ 23) with h1 | h1
  · have he : e = 0 := by omega
    subst he
    rw [if_pos (by omega)]; simp
  · rcases Nat.lt_or_ge n (2 ^ 24) with h2 | h2
    · have hd : (e * 2 ^ 23 + n) / 2 ^ 23 = e + 1 := by omega
      have hm : (e * 2 ^ 23 + n) % 2 ^ 23 = n - 2 ^ 23 := by omega
      rw [if_neg (by omega), hd, hm, Nat.sub_add_cancel h1, Nat.add_sub_cancel]
    · have hn : n = 2 ^ 24 := by omega
      have hd : (e * 2 ^ 23 + n) / 2 ^ 23 = e + 2 := by omega
      have hm : (e * 2 ^ 23 + n) % 2 ^ 23 = 0 := by omega
      rw [if_neg (by omega), hd, hm, hn, show e + 2 - 1 = e + 1 by omega, pow_succ]
      ring

/-- Every bit pattern is a step and a significand. -/
theorem exists_step (b : Nat) : ∃ e n, b = e * 2 ^ 23 + n ∧ n < 2 ^ 24 ∧ (e = 0 ∨ 2 ^ 23 ≤ n) := by
  rcases Nat.lt_or_ge b (2 ^ 23) with h | h
  · exact ⟨0, b, by omega, by omega, .inl rfl⟩
  · exact ⟨b / 2 ^ 23 - 1, b % 2 ^ 23 + 2 ^ 23, by omega, by omega, by omega⟩

/-- The magnitude rises strictly with the bits. -/
theorem magOf_strictMono : StrictMono magOf := by
  refine strictMono_nat_of_lt_succ fun b => ?_
  obtain ⟨e, n, rfl, hn, h⟩ := exists_step b
  have h2 : 0 < 2 ^ e := by positivity
  rw [add_assoc, magOf_step e n (by omega) h, magOf_step e (n + 1) (by omega) (by omega)]
  exact Nat.mul_lt_mul_of_pos_right (by omega) h2

theorem magOf_le {a b : Nat} : magOf a ≤ magOf b ↔ a ≤ b := magOf_strictMono.le_iff_le

theorem magOf_lt {a b : Nat} : magOf a < magOf b ↔ a < b := magOf_strictMono.lt_iff_lt

theorem magOf_inj {a b : Nat} : magOf a = magOf b ↔ a = b := magOf_strictMono.injective.eq_iff

/-- The magnitude the model gives an infinity. -/
theorem magOf_inf : magOf 0x7F800000 = 2 ^ 23 * 2 ^ 254 := by
  have := magOf_step 254 (2 ^ 23) (by norm_num) (.inr le_rfl)
  exact this

theorem magOf_max : magOf 0x7F7FFFFF = (2 ^ 24 - 1) * 2 ^ 253 :=
  magOf_step 253 (2 ^ 24 - 1) (by norm_num) (.inr (by norm_num))

/-! ### The rounded quotient -/

/-- A rounded quotient is within half a step, and a tie is even. -/
theorem roundDiv_bounds (a d : Nat) (hd : 0 < d) :
    2 * a ≤ 2 * (roundDiv a d * d) + d ∧ 2 * (roundDiv a d * d) ≤ 2 * a + d ∧
    (2 * a = 2 * (roundDiv a d * d) + d ∨ 2 * (roundDiv a d * d) = 2 * a + d →
      roundDiv a d % 2 = 0) := by
  have h := Nat.div_add_mod a d
  have hlt := Nat.mod_lt a hd
  have hc : d * (a / d) = a / d * d := mul_comm _ _
  unfold roundDiv
  split
  · refine ⟨by omega, by omega, by omega⟩
  · split
    · have : (a / d + 1) * d = a / d * d + d := by ring
      refine ⟨by omega, by omega, by omega⟩
    · rcases Nat.mod_two_eq_zero_or_one (a / d) with h2 | h2
      · rw [h2, Nat.add_zero]; refine ⟨by omega, by omega, by omega⟩
      · rw [h2]
        have : (a / d + 1) * d = a / d * d + d := by ring
        refine ⟨by omega, by omega, by omega⟩

/-- The bounds determine the rounded quotient, and rounding is monotone, over any denominators. -/
theorem roundDiv_mono {a d a' d' : Nat} (hd : 0 < d) (hd' : 0 < d') (h : a * d' ≤ a' * d) :
    roundDiv a d ≤ roundDiv a' d' := by
  obtain ⟨h1, h2, h3⟩ := roundDiv_bounds a d hd
  obtain ⟨k1, k2, k3⟩ := roundDiv_bounds a' d' hd'
  by_contra hlt
  rw [not_le] at hlt
  set n := roundDiv a d
  set n' := roundDiv a' d'
  have e1 : 2 * (n * d) * d' ≤ (2 * a + d) * d' := Nat.mul_le_mul_right _ h2
  have e2 : 2 * a' * d ≤ (2 * (n' * d') + d') * d := Nat.mul_le_mul_right _ k1
  have hdd : 0 < d * d' := by positivity
  have hn : n = n' + 1 := by
    have : n * (d * d') ≤ (n' + 1) * (d * d') := by nlinarith
    have := Nat.le_of_mul_le_mul_right this hdd
    omega
  have t1 : 2 * (n * d) = 2 * a + d := by
    have : (2 * a + d) * d' ≤ 2 * (n * d) * d' := by rw [hn]; nlinarith
    have := Nat.le_of_mul_le_mul_right this hd'
    omega
  have t2 : 2 * a' = 2 * (n' * d') + d' := by
    have : (2 * (n' * d') + d') * d ≤ 2 * a' * d := by rw [hn] at h2 t1; nlinarith
    have := Nat.le_of_mul_le_mul_right this hd
    omega
  have := h3 (.inr t1)
  have := k3 (.inl t2)
  omega

theorem roundDiv_exact (n d : Nat) (hd : 0 < d) : roundDiv (n * d) d = n := by
  simp [roundDiv, Nat.mul_mod_left, hd, Nat.mul_div_cancel _ hd]

theorem roundDiv_le_of_le {a d n : Nat} (hd : 0 < d) (h : a ≤ n * d) : roundDiv a d ≤ n := by
  have := roundDiv_mono (a := a) (a' := n * d) hd hd (Nat.mul_le_mul_right _ h)
  rwa [roundDiv_exact n d hd] at this

theorem le_roundDiv_of_le {a d n : Nat} (hd : 0 < d) (h : n * d ≤ a) : n ≤ roundDiv a d := by
  have := roundDiv_mono (a := n * d) (a' := a) hd hd (Nat.mul_le_mul_right _ h)
  rwa [roundDiv_exact n d hd] at this

/-- A rounded quotient is a nearest natural number, and even where another is as near. -/
theorem roundDiv_nearest (a d : Nat) (hd : 0 < d) (j : Nat) :
    |(a : Int) - (roundDiv a d * d : Nat)| ≤ |(a : Int) - (j * d : Nat)| ∧
    (|(a : Int) - (roundDiv a d * d : Nat)| = |(a : Int) - (j * d : Nat)| → j ≠ roundDiv a d →
      roundDiv a d % 2 = 0) := by
  obtain ⟨h1, h2, h3⟩ := roundDiv_bounds a d hd
  set n := roundDiv a d
  rcases lt_trichotomy j n with h | h | h
  · have : j * d + d ≤ n * d := by nlinarith
    constructor
    · rcases abs_cases ((a : Int) - (n * d : Nat)) with ⟨e, _⟩ | ⟨e, _⟩ <;>
        rcases abs_cases ((a : Int) - (j * d : Nat)) with ⟨f, _⟩ | ⟨f, _⟩ <;> omega
    · intro heq _
      apply h3
      rcases abs_cases ((a : Int) - (n * d : Nat)) with ⟨e, _⟩ | ⟨e, _⟩ <;>
        rcases abs_cases ((a : Int) - (j * d : Nat)) with ⟨f, _⟩ | ⟨f, _⟩ <;> omega
  · subst h; exact ⟨le_rfl, fun _ h => absurd rfl h⟩
  · have : n * d + d ≤ j * d := by nlinarith
    constructor
    · rcases abs_cases ((a : Int) - (n * d : Nat)) with ⟨e, _⟩ | ⟨e, _⟩ <;>
        rcases abs_cases ((a : Int) - (j * d : Nat)) with ⟨f, _⟩ | ⟨f, _⟩ <;> omega
    · intro heq _
      apply h3
      rcases abs_cases ((a : Int) - (n * d : Nat)) with ⟨e, _⟩ | ⟨e, _⟩ <;>
        rcases abs_cases ((a : Int) - (j * d : Nat)) with ⟨f, _⟩ | ⟨f, _⟩ <;> omega

/-! ### The rounded magnitude (R12) -/

/-- The step in which a quotient lies, and its significand, before overflow is looked at. -/
theorem roundMag_step (num den : Nat) (hd : 0 < den) :
    ∃ e n, roundMag num den = min 0x7F800000 (e * 2 ^ 23 + n) ∧
      n = roundDiv num (den * 2 ^ e) ∧ n ≤ 2 ^ 24 ∧ (e = 0 ∨ 2 ^ 23 ≤ n) ∧
      num < 2 ^ 24 * (den * 2 ^ e) ∧ (e = 0 ∨ 2 ^ 23 * (den * 2 ^ e) ≤ num) ∧
      e = Nat.log2 (num / den) - 23 := by
  refine ⟨Nat.log2 (num / den) - 23, _, rfl, rfl, ?_⟩
  set e := Nat.log2 (num / den) - 23 with he
  have hde : 0 < den * 2 ^ e := by positivity
  have hlt : num < 2 ^ 24 * (den * 2 ^ e) := by
    have h1 : num / den < 2 ^ (e + 24) := by
      rcases Nat.eq_zero_or_pos (num / den) with h | h
      · rw [h]; positivity
      · calc num / den < 2 ^ (Nat.log2 (num / den) + 1) := Nat.lt_log2_self
          _ ≤ 2 ^ (e + 24) := Nat.pow_le_pow_right (by decide) (by omega)
    have := (Nat.div_lt_iff_lt_mul hd).1 h1
    calc num < 2 ^ (e + 24) * den := this
      _ = 2 ^ 24 * (den * 2 ^ e) := by rw [pow_add]; ring
  have hge : e = 0 ∨ 2 ^ 23 * (den * 2 ^ e) ≤ num := by
    rcases Nat.eq_zero_or_pos e with h | h
    · exact .inl h
    · right
      have hne : num / den ≠ 0 := by
        intro h0; rw [h0] at he; simp [Nat.log2_zero] at he; omega
      have h1 : 2 ^ (e + 23) ≤ num / den := by
        calc 2 ^ (e + 23) = 2 ^ Nat.log2 (num / den) := by congr 1; omega
          _ ≤ num / den := Nat.log2_self_le hne
      have := (Nat.le_div_iff_mul_le hd).1 h1
      calc 2 ^ 23 * (den * 2 ^ e) = 2 ^ (e + 23) * den := by rw [pow_add]; ring
        _ ≤ num := this
  refine ⟨roundDiv_le_of_le hde hlt.le, ?_, hlt, hge, rfl⟩
  exact hge.imp id (le_roundDiv_of_le hde)

theorem roundMag_le (num den : Nat) : roundMag num den ≤ 0x7F800000 := min_le_left _ _

/-- Rounding is monotone, over any denominators. -/
theorem roundMag_mono {num den num' den' : Nat} (hd : 0 < den) (hd' : 0 < den')
    (h : num * den' ≤ num' * den) : roundMag num den ≤ roundMag num' den' := by
  obtain ⟨e, n, hr, hn, hn24, _, _, _, he⟩ := roundMag_step num den hd
  obtain ⟨e', n', hr', hn', _, hn23', _, _, he'⟩ := roundMag_step num' den' hd'
  have hq : num / den ≤ num' / den' := by
    rw [Nat.le_div_iff_mul_le hd']
    have h1 : num / den * den ≤ num := Nat.div_mul_le_self _ _
    have : (num / den * den') * den ≤ num' * den := by
      calc (num / den * den') * den = (num / den * den) * den' := by ring
        _ ≤ num * den' := Nat.mul_le_mul_right _ h1
        _ ≤ num' * den := h
    exact Nat.le_of_mul_le_mul_right this hd
  have hee : e ≤ e' := by
    rw [he, he']
    refine Nat.sub_le_sub_right ?_ _
    rcases Nat.eq_zero_or_pos (num / den) with h0 | h0
    · rw [h0]; simp [Nat.log2_zero]
    · exact (Nat.le_log2 (by omega)).2 (le_trans (Nat.log2_self_le (by omega)) hq)
  rw [hr, hr']
  refine min_le_min le_rfl ?_
  rcases hee.eq_or_lt with heq | hlt
  · subst heq
    have : n ≤ n' := by
      rw [hn, hn']
      refine roundDiv_mono (by positivity) (by positivity) ?_
      calc num * (den' * 2 ^ e) = num * den' * 2 ^ e := by ring
        _ ≤ num' * den * 2 ^ e := Nat.mul_le_mul_right _ h
        _ = num' * (den * 2 ^ e) := by ring
    omega
  · omega

theorem roundMag_congr {num den num' den' : Nat} (hd : 0 < den) (hd' : 0 < den')
    (h : num * den' = num' * den) : roundMag num den = roundMag num' den' :=
  le_antisymm (roundMag_mono hd hd' h.le) (roundMag_mono hd' hd h.ge)

/-- A representable magnitude is left as it is. -/
theorem roundMag_exact (b den : Nat) (hd : 0 < den) (hb : b ≤ 0x7F800000) :
    roundMag (magOf b * den) den = b := by
  obtain ⟨e, n, rfl, hn, h⟩ := exists_step b
  rw [magOf_step e n (by omega) h]
  have hq : n * 2 ^ e * den / den = n * 2 ^ e := Nat.mul_div_cancel _ hd
  have hl : Nat.log2 (n * 2 ^ e) - 23 = e := by
    rcases h with rfl | h
    · have : Nat.log2 (n * 2 ^ 0) < 24 ∨ n = 0 := by
        rcases Nat.eq_zero_or_pos n with h0 | h0
        · exact .inr h0
        · left; exact (Nat.log2_lt (by omega)).2 (by omega)
      rcases this with h | h
      · omega
      · subst h; simp [Nat.log2_zero]
    · have hne : n * 2 ^ e ≠ 0 := by
        have : 0 < 2 ^ e := by positivity
        have : 0 < n * 2 ^ e := by nlinarith
        omega
      have h1 : Nat.log2 (n * 2 ^ e) < e + 24 := by
        refine (Nat.log2_lt hne).2 ?_
        rw [pow_add, mul_comm (2 ^ e)]; exact Nat.mul_lt_mul_of_pos_right hn (by positivity)
      have h2 : e + 23 ≤ Nat.log2 (n * 2 ^ e) := by
        refine (Nat.le_log2 hne).2 ?_
        rw [pow_add, mul_comm (2 ^ e)]; exact Nat.mul_le_mul_right _ h
      omega
  unfold roundMag
  rw [hq, hl, show n * 2 ^ e * den = n * (den * 2 ^ e) by ring,
    roundDiv_exact n _ (by positivity)]
  exact min_eq_right hb

theorem roundMag_magOf (b : Nat) (hb : b ≤ 0x7F800000) : roundMag (magOf b) 1 = b := by
  have := roundMag_exact b 1 (by decide) hb
  rwa [mul_one] at this

/-- A quotient at most a representable magnitude rounds to at most it. -/
theorem roundMag_le_of_le {num den b : Nat} (hd : 0 < den) (hb : b ≤ 0x7F800000)
    (h : num ≤ magOf b * den) : roundMag num den ≤ b := by
  have := roundMag_mono (num' := magOf b * den) hd hd (Nat.mul_le_mul_right _ h)
  rwa [roundMag_exact b den hd hb] at this

/-- A quotient at least a representable magnitude rounds to at least it. -/
theorem le_roundMag_of_le {num den b : Nat} (hd : 0 < den) (hb : b ≤ 0x7F800000)
    (h : magOf b * den ≤ num) : b ≤ roundMag num den := by
  have := roundMag_mono (num := magOf b * den) hd hd (Nat.mul_le_mul_right _ h)
  rwa [roundMag_exact b den hd hb] at this

theorem roundMag_zero (den : Nat) (hd : 0 < den) : roundMag 0 den = 0 := by
  have := roundMag_exact 0 den hd (by norm_num)
  simpa using this

/-- Exactly the quotients from halfway between the largest finite value and 2^128 on overflow. -/
theorem roundMag_eq_inf (num den : Nat) (hd : 0 < den) :
    roundMag num den = 0x7F800000 ↔ (2 ^ 25 - 1) * 2 ^ 252 * den ≤ num := by
  have key : roundMag ((2 ^ 25 - 1) * 2 ^ 252 * den) den = 0x7F800000 := by
    have h1 : roundMag ((2 ^ 25 - 1) * 2 ^ 252 * den) den = roundMag ((2 ^ 25 - 1) * 2 ^ 252) 1 :=
      roundMag_congr hd (by decide) (by ring)
    rw [h1]; decide +kernel
  constructor
  · intro h
    by_contra hlt
    rw [not_le] at hlt
    obtain ⟨e, n, hr, hn, hn24, hn23, hlt24, hge, _⟩ := roundMag_step num den hd
    rw [h] at hr
    have hb : 0x7F800000 ≤ e * 2 ^ 23 + n := by omega
    have he : 253 ≤ e := by omega
    rcases Nat.eq_or_lt_of_le he with he | he
    · subst he
      have hn : n = 2 ^ 24 := by omega
      obtain ⟨_, h2, h3⟩ := roundDiv_bounds num (den * 2 ^ 253) (by positivity)
      rw [← ‹n = roundDiv num (den * 2 ^ 253)›, hn] at h2
      have hp : (2 : Nat) ^ 253 = 2 * 2 ^ 252 := by rw [pow_succ]; ring
      have : 2 * (2 ^ 24 * (den * 2 ^ 253)) - den * 2 ^ 253 = 2 * ((2 ^ 25 - 1) * 2 ^ 252 * den) := by
        rw [hp]
        generalize (2 : Nat) ^ 252 = P
        have : den * (2 * P) = 2 * (P * den) := by ring
        have h5 : (2 ^ 25 - 1) * P * den = (2 ^ 25 - 1) * (P * den) := by ring
        rw [this, h5]; omega
      omega
    · rcases hge with h0 | hge
      · omega
      · have : (2 : Nat) ^ 254 ≤ 2 ^ e := Nat.pow_le_pow_right (by decide) he
        have hp : (2 : Nat) ^ 254 = 4 * 2 ^ 252 := by rw [show 254 = 252 + 2 from rfl, pow_add]; ring
        rw [hp] at this
        have h4 : 2 ^ 23 * (den * (4 * 2 ^ 252)) ≤ 2 ^ 23 * (den * 2 ^ e) :=
          Nat.mul_le_mul_left _ (Nat.mul_le_mul_left _ this)
        have h5 : 2 ^ 23 * (den * (4 * 2 ^ 252)) = 2 ^ 25 * (2 ^ 252 * den) := by ring
        have h6 : (2 ^ 25 - 1) * 2 ^ 252 * den = (2 ^ 25 - 1) * (2 ^ 252 * den) := by ring
        rw [h6] at hlt
        generalize (2 : Nat) ^ 252 * den = Q at *
        omega
  · intro h
    refine le_antisymm (roundMag_le _ _) ?_
    rw [← key]
    exact roundMag_mono hd hd (Nat.mul_le_mul_right _ h)

/-- Rounding gives a representable magnitude none is nearer than, an even one of two equally near. -/
theorem roundMag_nearest (num den : Nat) (hd : 0 < den)
    (hfin : num < (2 ^ 25 - 1) * 2 ^ 252 * den) (b : Nat) :
    let r := roundMag num den
    |(num : Int) - (magOf r * den : Nat)| ≤ |(num : Int) - (magOf b * den : Nat)| ∧
    (|(num : Int) - (magOf r * den : Nat)| = |(num : Int) - (magOf b * den : Nat)| → b ≠ r →
      r % 2 = 0) := by
  obtain ⟨e, n, hr, hn, hn24, hn23, hlt24, hge, _⟩ := roundMag_step num den hd
  have hne : roundMag num den ≠ 0x7F800000 := by
    rw [Ne, roundMag_eq_inf num den hd]; omega
  have hr' : roundMag num den = e * 2 ^ 23 + n := by
    have := roundMag_le num den
    omega
  simp only [hr']
  rw [magOf_step e n hn24 hn23]
  have hde : 0 < den * 2 ^ e := by positivity
  have hassoc : n * 2 ^ e * den = n * (den * 2 ^ e) := by ring
  rw [hassoc, hn]
  -- a multiple of the step
  have hmul : ∀ j, |(num : Int) - (roundDiv num (den * 2 ^ e) * (den * 2 ^ e) : Nat)| ≤
      |(num : Int) - (j * (den * 2 ^ e) : Nat)| ∧ _ := fun j => roundDiv_nearest num _ hde j
  obtain ⟨e', m, rfl, hm, hm'⟩ := exists_step b
  rcases Nat.lt_or_ge e' e with hlt | hle
  · -- a smaller step: below the lowest multiple in reach
    have hge : 2 ^ 23 * (den * 2 ^ e) ≤ num := by
      rcases hge with h | h
      · omega
      · exact h
    have hb : magOf (e' * 2 ^ 23 + m) * den < 2 ^ 23 * (den * 2 ^ e) := by
      rw [magOf_step e' m (by omega) hm']
      have h1 : 2 ^ (e' + 1) ≤ 2 ^ e := Nat.pow_le_pow_right (by decide) hlt
      have h2 : m * 2 ^ e' < 2 ^ 23 * 2 ^ e := by
        calc m * 2 ^ e' < 2 ^ 24 * 2 ^ e' := Nat.mul_lt_mul_of_pos_right hm (by positivity)
          _ = 2 ^ 23 * 2 ^ (e' + 1) := by rw [pow_succ]; ring
          _ ≤ 2 ^ 23 * 2 ^ e := Nat.mul_le_mul_left _ h1
      calc m * 2 ^ e' * den < 2 ^ 23 * 2 ^ e * den := Nat.mul_lt_mul_of_pos_right h2 hd
        _ = 2 ^ 23 * (den * 2 ^ e) := by ring
    have h1 := (hmul (2 ^ 23)).1
    have h2 : |(num : Int) - ((2 ^ 23 * (den * 2 ^ e) : Nat) : Int)| <
        |(num : Int) - ((magOf (e' * 2 ^ 23 + m) * den : Nat) : Int)| := by
      rw [abs_of_nonneg (by omega), abs_of_nonneg (by omega)]; omega
    refine ⟨le_trans h1 h2.le, fun heq => ?_⟩
    rw [heq] at h1
    exact absurd h1 (not_le.2 h2)
  · obtain ⟨k, rfl⟩ := Nat.exists_eq_add_of_le hle
    have hb : magOf ((e + k) * 2 ^ 23 + m) * den = (m * 2 ^ k) * (den * 2 ^ e) := by
      rw [magOf_step (e + k) m (by omega) hm', pow_add]; ring
    rw [hb]
    refine ⟨(hmul _).1, fun heq hbr => ?_⟩
    have hj : m * 2 ^ k ≠ roundDiv num (den * 2 ^ e) := by
      intro hj
      apply hbr
      apply magOf_inj.1
      rw [magOf_step (e + k) m (by omega) hm', ← hn, magOf_step e n hn24 hn23, hn, ← hj,
          pow_add]
      ring
    have := (hmul _).2 heq hj
    omega

/-! ### Words: sign, magnitude and value (R10, R14) -/

theorem pack_toNat (s : Bool) (b : Nat) (hb : b < 2 ^ 31) :
    (pack s b).toNat = if s then 2 ^ 31 + b else b := by
  simp only [pack, BitVec.toNat_ofNat]
  refine Nat.mod_eq_of_lt ?_
  split <;> omega

theorem absBits_pack (s : Bool) (b : Nat) (hb : b < 2 ^ 31) : absBits (pack s b) = b := by
  rw [absBits, pack_toNat s b hb]
  cases s <;> simp <;> omega

theorem sign_eq (w : Word) : sign w = decide (2 ^ 31 ≤ w.toNat) := BitVec.msb_eq_decide w

theorem sign_pack (s : Bool) (b : Nat) (hb : b < 2 ^ 31) : sign (pack s b) = s := by
  rw [sign_eq, pack_toNat s b hb]
  cases s
  · simp; omega
  · simp

theorem toNat_eq (w : Word) : w.toNat = if sign w then 2 ^ 31 + absBits w else absBits w := by
  have h := w.isLt
  rw [sign_eq, absBits]
  by_cases hs : 2 ^ 31 ≤ w.toNat
  · simp only [hs, decide_true, if_true]; omega
  · simp only [hs, decide_false, Bool.false_eq_true, if_false]; omega

/-- A word is its sign and its magnitude bits. -/
theorem word_ext {a b : Word} (hs : sign a = sign b) (hb : absBits a = absBits b) : a = b := by
  apply BitVec.eq_of_toNat_eq
  rw [toNat_eq a, toNat_eq b, hs, hb]

theorem pack_self (w : Word) : pack (sign w) (absBits w) = w :=
  word_ext (sign_pack _ _ (absBits_lt w)) (absBits_pack _ _ (absBits_lt w))

theorem isNaN_false_iff (w : Word) : isNaN w = false ↔ absBits w ≤ 0x7F800000 := by
  simp [isNaN]

theorem isNaN_true_iff (w : Word) : isNaN w = true ↔ 0x7F800000 < absBits w := by simp [isNaN]

theorem isFinite_iff (w : Word) : isFinite w = true ↔ absBits w < 0x7F800000 := by simp [isFinite]

theorem isInf_iff (w : Word) : isInf w = true ↔ absBits w = 0x7F800000 := by simp [isInf]

theorem isZero_iff (w : Word) : isZero w = true ↔ absBits w = 0 := by simp [isZero]

theorem isNaN_of_isFinite {w : Word} (h : isFinite w = true) : isNaN w = false := by
  rw [isFinite_iff] at h; rw [isNaN_false_iff]; omega

theorem isInf_of_isFinite {w : Word} (h : isFinite w = true) : isInf w = false := by
  rw [isFinite_iff] at h; simp [isInf]; omega

theorem isNaN_of_isInf {w : Word} (h : isInf w = true) : isNaN w = false := by
  rw [isInf_iff] at h; rw [isNaN_false_iff]; omega

theorem isFinite_of_isInf {w : Word} (h : isInf w = true) : isFinite w = false := by
  rw [isInf_iff] at h; simp [isFinite]; omega

theorem isNaN_of_isZero {w : Word} (h : isZero w = true) : isNaN w = false := by
  rw [isZero_iff] at h; rw [isNaN_false_iff]; omega

theorem isFinite_of_isZero {w : Word} (h : isZero w = true) : isFinite w = true := by
  rw [isZero_iff] at h; rw [isFinite_iff]; omega

theorem natAbs_val (w : Word) : (val w).natAbs = mag w := by
  unfold val; split <;> simp

theorem abs_val (w : Word) : |val w| = mag w := by
  unfold val; split <;> simp

theorem mag_eq_zero (w : Word) : mag w = 0 ↔ isZero w = true := by
  rw [isZero_iff, mag_eq]; exact magOf_inj (b := 0)

theorem val_eq_zero (w : Word) : val w = 0 ↔ isZero w = true := by
  rw [← mag_eq_zero, ← natAbs_val, Int.natAbs_eq_zero]

/-- The value of an infinity, as the model has it. -/
theorem isFinite_iff_mag (w : Word) : isFinite w = true ↔ mag w < magOf 0x7F800000 := by
  rw [isFinite_iff, mag_eq, magOf_lt]

theorem isNaN_false_iff_mag (w : Word) : isNaN w = false ↔ mag w ≤ magOf 0x7F800000 := by
  rw [isNaN_false_iff, mag_eq, magOf_le]

theorem val_pack (s : Bool) (b : Nat) (hb : b < 2 ^ 31) :
    val (pack s b) = if s then -(magOf b : Int) else magOf b := by
  unfold val; rw [sign_pack s b hb, mag_eq, absBits_pack s b hb]

theorem val_nonneg_of_sign {w : Word} (h : sign w = false) : 0 ≤ val w := by
  unfold val; simp [h]

theorem sign_of_val_pos {w : Word} (h : 0 < val w) : sign w = false := by
  by_contra hs
  unfold val at h; simp only [Bool.not_eq_false] at hs; rw [if_pos hs] at h; omega

theorem sign_of_val_neg {w : Word} (h : val w < 0) : sign w = true := by
  by_contra hs
  unfold val at h; rw [if_neg hs] at h; omega

/-- Words of the same nonzero value are the same. -/
theorem eq_of_val_eq {a b : Word} (h : val a = val b) (h0 : val a ≠ 0) : a = b := by
  have hm : mag a = mag b := by rw [← natAbs_val, ← natAbs_val, h]
  rw [mag_eq, mag_eq, magOf_inj] at hm
  refine word_ext ?_ hm
  rcases lt_or_gt_of_ne h0 with h1 | h1
  · rw [sign_of_val_neg h1, sign_of_val_neg (h ▸ h1)]
  · rw [sign_of_val_pos h1, sign_of_val_pos (h ▸ h1)]

theorem eq_of_val_eq_of_sign {a b : Word} (h : val a = val b) (hs : sign a = sign b) : a = b := by
  have hm : mag a = mag b := by rw [← natAbs_val, ← natAbs_val, h]
  rw [mag_eq, mag_eq, magOf_inj] at hm
  exact word_ext hs hm

/-! ### Comparisons (R14) -/

theorem fle_iff (a b : Word) :
    fle a b = true ↔ isNaN a = false ∧ isNaN b = false ∧ val a ≤ val b := by
  simp [fle, and_assoc]

theorem flt_iff (a b : Word) :
    flt a b = true ↔ isNaN a = false ∧ isNaN b = false ∧ val a < val b := by
  simp [flt, and_assoc]

theorem fge_iff (a b : Word) :
    fge a b = true ↔ isNaN a = false ∧ isNaN b = false ∧ val b ≤ val a := by
  rw [fge, fle_iff]; tauto

theorem fgt_iff (a b : Word) :
    fgt a b = true ↔ isNaN a = false ∧ isNaN b = false ∧ val b < val a := by
  rw [fgt, flt_iff]; tauto

theorem feq_iff (a b : Word) :
    feq a b = true ↔ isNaN a = false ∧ isNaN b = false ∧ val a = val b := by
  simp [feq, and_assoc]

theorem val_posZero : val posZero = 0 := by decide
theorem val_negZero : val negZero = 0 := by decide
theorem isNaN_posZero : isNaN posZero = false := by decide
theorem val_ONE : val ONE = 2 ^ 149 := by decide +kernel
theorem isNaN_ONE : isNaN ONE = false := by decide
theorem isFinite_ONE : isFinite ONE = true := by decide

theorem feq_posZero (a : Word) : feq a posZero = isZero a := by
  rw [Bool.eq_iff_iff, feq_iff, val_posZero, val_eq_zero]
  exact ⟨fun h => h.2.2, fun h => ⟨isNaN_of_isZero h, isNaN_posZero, h⟩⟩

/-! ### Sign operations (R15) -/

theorem neg_toNat_lt : ∀ w : Word, (neg w).msb = !w.msb := by
  intro w
  rw [neg, BitVec.msb_xor, show negZero.msb = true by decide]; cases w.msb <;> rfl

theorem sign_neg (w : Word) : sign (neg w) = !sign w := neg_toNat_lt w

theorem neg_eq (w : Word) : neg w = pack (!sign w) (absBits w) := by
  apply BitVec.eq_of_toNat_eq
  rw [pack_toNat _ _ (absBits_lt w)]
  have hx : (neg w).toNat = w.toNat ^^^ 2 ^ 31 := by simp [neg, negZero, BitVec.toNat_xor]
  have hlow : (neg w).toNat % 2 ^ 31 = w.toNat % 2 ^ 31 := by
    rw [hx]
    apply Nat.eq_of_testBit_eq
    intro i
    simp only [Nat.testBit_mod_two_pow, Nat.testBit_xor, Nat.testBit_two_pow]
    by_cases h : i < 31
    · have : ¬(31 = i) := by omega
      simp [h, this]
    · simp [h]
  have h1 := toNat_eq (neg w)
  rw [sign_neg] at h1
  rw [h1, show absBits (neg w) = absBits w from hlow]

theorem absBits_neg (w : Word) : absBits (neg w) = absBits w := by
  rw [neg_eq, absBits_pack _ _ (absBits_lt w)]

@[simp] theorem isNaN_neg (w : Word) : isNaN (neg w) = isNaN w := by simp [isNaN, absBits_neg]
@[simp] theorem isInf_neg (w : Word) : isInf (neg w) = isInf w := by simp [isInf, absBits_neg]
@[simp] theorem isFinite_neg (w : Word) : isFinite (neg w) = isFinite w := by
  simp [isFinite, absBits_neg]
@[simp] theorem isZero_neg (w : Word) : isZero (neg w) = isZero w := by simp [isZero, absBits_neg]

theorem val_neg (w : Word) : val (neg w) = -val w := by
  unfold val; rw [sign_neg, mag_eq, mag_eq, absBits_neg]
  cases sign w <;> simp

theorem fabs_eq (w : Word) : fabs w = pack false (absBits w) := by
  apply BitVec.eq_of_toNat_eq
  rw [pack_toNat _ _ (absBits_lt w)]
  have : (fabs w).toNat = w.toNat &&& (2 ^ 31 - 1) := by simp [fabs, BitVec.toNat_and]
  rw [this, Nat.and_two_pow_sub_one_eq_mod]; rfl

theorem absBits_fabs (w : Word) : absBits (fabs w) = absBits w := by
  rw [fabs_eq, absBits_pack _ _ (absBits_lt w)]

theorem sign_fabs (w : Word) : sign (fabs w) = false := by
  rw [fabs_eq, sign_pack _ _ (absBits_lt w)]

@[simp] theorem isNaN_fabs (w : Word) : isNaN (fabs w) = isNaN w := by simp [isNaN, absBits_fabs]
@[simp] theorem isFinite_fabs (w : Word) : isFinite (fabs w) = isFinite w := by
  simp [isFinite, absBits_fabs]

theorem val_fabs (w : Word) : val (fabs w) = mag w := by
  unfold val; rw [sign_fabs, mag_eq, mag_eq, absBits_fabs]; simp

/-! ### Signed rounding: the value of a result (R12) -/

/-- The value of the correctly rounded x/den, x and the value in units of 2^-149. -/
def roundVal (x : Int) (den : Nat) : Int := x.sign * magOf (roundMag x.natAbs den)

theorem roundVal_ofNat (n den : Nat) (hd : 0 < den) : roundVal n den = magOf (roundMag n den) := by
  rcases Nat.eq_zero_or_pos n with h | h
  · subst h; simp [roundVal, roundMag_zero den hd]
  · rw [roundVal, Int.sign_eq_one_of_pos (by omega), one_mul, Int.natAbs_natCast]

theorem roundVal_neg (x : Int) (den : Nat) : roundVal (-x) den = -roundVal x den := by
  simp [roundVal]

theorem roundVal_zero (den : Nat) : roundVal 0 den = 0 := by simp [roundVal]

theorem roundVal_nonneg {x : Int} (h : 0 ≤ x) (den : Nat) : 0 ≤ roundVal x den := by
  obtain ⟨n, rfl⟩ := Int.eq_ofNat_of_zero_le h
  have : 0 ≤ (n : Int).sign := by rcases Nat.eq_zero_or_pos n with h | h <;> simp [h, Int.sign_eq_one_of_pos]
  unfold roundVal; positivity

theorem roundVal_mono {x y : Int} {d d' : Nat} (hd : 0 < d) (hd' : 0 < d')
    (h : x * d' ≤ y * d) : roundVal x d ≤ roundVal y d' := by
  rcases le_or_gt 0 x with hx | hx
  · have hy : 0 ≤ y := by
      by_contra hy
      have h1 : y * d < 0 := mul_neg_of_neg_of_pos (not_le.1 hy) (by exact_mod_cast hd)
      have h2 : 0 ≤ x * d' := by positivity
      omega
    obtain ⟨n, rfl⟩ := Int.eq_ofNat_of_zero_le hx
    obtain ⟨m, rfl⟩ := Int.eq_ofNat_of_zero_le hy
    rw [roundVal_ofNat n d hd, roundVal_ofNat m d' hd']
    have := magOf_le.2 (roundMag_mono hd hd' (by exact_mod_cast h))
    exact_mod_cast this
  · rcases le_or_gt 0 y with hy | hy
    · have h1 := roundVal_nonneg hy d'
      have h2 := roundVal_nonneg (x := -x) (by omega) d
      rw [roundVal_neg] at h2
      omega
    · obtain ⟨n, hn⟩ := Int.eq_ofNat_of_zero_le (a := -x) (by omega)
      obtain ⟨m, hm⟩ := Int.eq_ofNat_of_zero_le (a := -y) (by omega)
      obtain rfl : x = -(n : Int) := by omega
      obtain rfl : y = -(m : Int) := by omega
      rw [roundVal_neg, roundVal_neg, roundVal_ofNat n d hd, roundVal_ofNat m d' hd']
      have h' : m * d ≤ n * d' := by
        have : -((m : Int) * d) ≥ -((n : Int) * d') := by linarith
        have : (m : Int) * d ≤ (n : Int) * d' := by linarith
        exact_mod_cast this
      have := magOf_le.2 (roundMag_mono hd' hd h')
      have : (magOf (roundMag m d') : Int) ≤ magOf (roundMag n d) := by exact_mod_cast this
      omega

/-- A representable value is left as it is. -/
theorem roundVal_exact (w : Word) (hw : isNaN w = false) (den : Nat) (hd : 0 < den) :
    roundVal (val w * den) den = val w := by
  rw [isNaN_false_iff] at hw
  have key : roundVal ((mag w : Int) * den) den = mag w := by
    have := roundVal_ofNat (mag w * den) den hd
    rw [mag_eq, roundMag_exact _ _ hd hw] at this
    rw [mag_eq]; exact_mod_cast this
  unfold val
  split
  · rw [neg_mul, roundVal_neg, key]
  · exact key

theorem roundVal_exact_one (w : Word) (hw : isNaN w = false) : roundVal (val w) 1 = val w := by
  have := roundVal_exact w hw 1 (by decide)
  simpa using this

theorem roundVal_le {x : Int} {den : Nat} {w : Word} (hd : 0 < den) (hw : isNaN w = false)
    (h : x ≤ val w * den) : roundVal x den ≤ val w := by
  rw [← roundVal_exact w hw den hd]
  exact roundVal_mono hd hd (Int.mul_le_mul_of_nonneg_right h (by positivity))

theorem le_roundVal {x : Int} {den : Nat} {w : Word} (hd : 0 < den) (hw : isNaN w = false)
    (h : val w * den ≤ x) : val w ≤ roundVal x den := by
  rw [← roundVal_exact w hw den hd]
  exact roundVal_mono hd hd (Int.mul_le_mul_of_nonneg_right h (by positivity))

theorem roundMag_lt (num den : Nat) : roundMag num den < 2 ^ 31 :=
  lt_of_le_of_lt (roundMag_le num den) (by norm_num)

theorem isNaN_pack_roundMag (s : Bool) (num den : Nat) : isNaN (pack s (roundMag num den)) = false := by
  rw [isNaN_false_iff, absBits_pack _ _ (roundMag_lt num den)]; exact roundMag_le num den

/-- The sum of two finite values is no NaN and has the rounded value. -/
theorem fadd_finite {a b : Word} (ha : isFinite a = true) (hb : isFinite b = true) :
    isNaN (fadd a b) = false ∧ val (fadd a b) = roundVal (val a + val b) 1 := by
  unfold fadd
  simp only [isNaN_of_isFinite ha, isNaN_of_isFinite hb, isInf_of_isFinite ha, isInf_of_isFinite hb,
    Bool.or_self, Bool.false_eq_true, if_false]
  split
  · rename_i h
    rw [h, roundVal_zero]
    split <;> decide
  · refine ⟨isNaN_pack_roundMag _ _ _, ?_⟩
    rw [val_pack _ _ (roundMag_lt _ _)]
    rename_i h
    unfold roundVal
    rcases lt_or_gt_of_ne h with h | h
    · simp [h, Int.sign_eq_neg_one_of_neg h]
    · simp [not_lt.2 h.le, Int.sign_eq_one_of_pos h]

theorem fsub_finite {a b : Word} (ha : isFinite a = true) (hb : isFinite b = true) :
    isNaN (fsub a b) = false ∧ val (fsub a b) = roundVal (val a - val b) 1 := by
  have := fadd_finite ha (b := neg b) (by simpa using hb)
  rwa [val_neg, ← sub_eq_add_neg] at this

theorem val_pack_mul (a b : Word) (num den : Nat) (hd : 0 < den) (x : Int)
    (hx : x = if (sign a != sign b) = true then -(num : Int) else num) :
    val (pack (sign a != sign b) (roundMag num den)) = roundVal x den := by
  rw [val_pack _ _ (roundMag_lt _ _), hx]
  split
  · rw [roundVal_neg, roundVal_ofNat _ _ hd]
  · rw [roundVal_ofNat _ _ hd]

/-- The product of two finite values is no NaN and has the rounded value. -/
theorem fmul_finite {a b : Word} (ha : isFinite a = true) (hb : isFinite b = true) :
    isNaN (fmul a b) = false ∧ val (fmul a b) = roundVal (val a * val b) (2 ^ 149) ∧
    sign (fmul a b) = (sign a != sign b) := by
  unfold fmul
  simp only [isNaN_of_isFinite ha, isNaN_of_isFinite hb, isInf_of_isFinite ha, isInf_of_isFinite hb,
    Bool.or_self, Bool.false_eq_true, if_false]
  refine ⟨isNaN_pack_roundMag _ _ _, ?_, sign_pack _ _ (roundMag_lt _ _)⟩
  apply val_pack_mul _ _ _ _ (by positivity)
  unfold val
  cases sign a <;> cases sign b <;> simp

/-- The quotient of two finite values, the divisor not zero, is no NaN and has the rounded value. -/
theorem fdiv_finite {a b : Word} (ha : isFinite a = true) (hb : isFinite b = true)
    (h0 : isZero b = false) :
    isNaN (fdiv a b) = false ∧
    val (fdiv a b) = roundVal (if sign b = true then -(val a * 2 ^ 149) else val a * 2 ^ 149) (mag b) ∧
    sign (fdiv a b) = (sign a != sign b) := by
  have hm : 0 < mag b := by
    have := mag_eq_zero b
    rw [h0] at this
    simp only [Bool.false_eq_true, iff_false] at this
    omega
  unfold fdiv
  simp only [isNaN_of_isFinite ha, isNaN_of_isFinite hb, isInf_of_isFinite ha, isInf_of_isFinite hb,
    h0, Bool.or_self, Bool.false_eq_true, if_false]
  refine ⟨isNaN_pack_roundMag _ _ _, ?_, sign_pack _ _ (roundMag_lt _ _)⟩
  apply val_pack_mul _ _ _ _ hm
  unfold val
  cases sign a <;> cases sign b <;> simp

/-- A word that is no NaN is finite exactly when its value is below that of an infinity. -/
theorem isFinite_iff_val (w : Word) :
    isFinite w = true ↔ |val w| < magOf 0x7F800000 := by
  rw [abs_val, isFinite_iff_mag]; omega

/-! ### Whole numbers (R15) -/

/-- A significand of at most 24 bits at any step below overflow is representable. -/
theorem exists_magOf (e : Nat) : ∀ n, n < 2 ^ 24 → e ≤ 253 → ∃ b < 0x7F800000, magOf b = n * 2 ^ e := by
  induction e with
  | zero => exact fun n hn _ => ⟨0 * 2 ^ 23 + n, by omega, magOf_step 0 n hn.le (.inl rfl)⟩
  | succ e ih =>
    intro n hn he
    rcases Nat.lt_or_ge n (2 ^ 23) with h | h
    · obtain ⟨b, hb, hm⟩ := ih (n * 2) (by omega) (by omega)
      exact ⟨b, hb, by rw [hm, pow_succ]; ring⟩
    · exact ⟨(e + 1) * 2 ^ 23 + n, by omega, magOf_step (e + 1) n hn.le (.inr h)⟩

/-- A value with a significand of at most 24 bits is left as it is by rounding. -/
theorem roundVal_significand (x : Int) (n e : Nat) (hn : n < 2 ^ 24) (he : e ≤ 253)
    (hx : x.natAbs = n * 2 ^ e) : roundVal x 1 = x := by
  obtain ⟨b, hb, hm⟩ := exists_magOf e n hn he
  unfold roundVal
  rw [hx, ← hm, roundMag_magOf b hb.le, hm, ← hx, Int.sign_mul_natAbs]

theorem sign_ofNat (i : Nat) : sign (ofNat i) = false := sign_pack _ _ (roundMag_lt _ _)

theorem isNaN_ofNat (i : Nat) : isNaN (ofNat i) = false := isNaN_pack_roundMag _ _ _

/-- `float` is exact below 2^24 (R15). -/
theorem ofNat_exact {i : Nat} (hi : i < 2 ^ 24) :
    isFinite (ofNat i) = true ∧ val (ofNat i) = (i : Int) * 2 ^ 149 := by
  obtain ⟨b, hb, hm⟩ := exists_magOf 149 i hi (by norm_num)
  have hr : roundMag (i * 2 ^ 149) 1 = b := by rw [← hm, roundMag_magOf b hb.le]
  have hb31 : b < 2 ^ 31 := by omega
  refine ⟨?_, ?_⟩
  · rw [isFinite_iff, ofNat, hr, absBits_pack _ _ hb31]; exact hb
  · rw [ofNat, hr, val_pack _ _ hb31, hm]; push_cast; simp

theorem val_eq_mag_of_nonneg {a : Word} (h : 0 ≤ val a) : val a = mag a := by
  rw [← abs_val, abs_of_nonneg h]

/-- A finite magnitude is a significand of at most 24 bits at some step. -/
theorem mag_significand {a : Word} (h : isFinite a = true) :
    ∃ n e, mag a = n * 2 ^ e ∧ n < 2 ^ 24 ∧ e ≤ 253 := by
  rw [isFinite_iff] at h
  obtain ⟨e, n, hb, hn, hs⟩ := exists_step (absBits a)
  exact ⟨n, e, by rw [mag_eq, hb, magOf_step e n hn.le hs], hn, by omega⟩

theorem int_unit : (2 : Int) ^ 149 = ((2 ^ 149 : Nat) : Int) := by rw [Nat.cast_pow]; rfl

/-- `floor` is exact on values of at least 0 (R15). -/
theorem floor_spec {a : Word} (h : 0 ≤ val a) :
    (floor a : Int) * 2 ^ 149 ≤ val a ∧ val a < (floor a + 1) * 2 ^ 149 := by
  rw [val_eq_mag_of_nonneg h, floor]
  have h1 := Nat.div_mul_le_self (mag a) (2 ^ 149)
  have h2 := Nat.lt_mul_div_succ (mag a) (show 0 < 2 ^ 149 by positivity)
  rw [mul_comm] at h2
  exact ⟨by exact_mod_cast h1, by exact_mod_cast h2⟩

/-- `ceil` is exact on values of at least 0 (R15). -/
theorem ceil_spec {a : Word} (h : 0 ≤ val a) :
    val a ≤ (ceil a : Int) * 2 ^ 149 ∧ ((ceil a : Int) - 1) * 2 ^ 149 < val a := by
  rw [val_eq_mag_of_nonneg h, ceil, int_unit]
  have hP : 0 < 2 ^ 149 := by positivity
  generalize 2 ^ 149 = P at hP ⊢
  have h1 := Nat.div_mul_le_self (mag a + (P - 1)) P
  have h2 := Nat.lt_mul_div_succ (mag a + (P - 1)) hP
  rw [mul_comm, add_mul, one_mul] at h2
  generalize (mag a + (P - 1)) / P = q at *
  have h3 : mag a ≤ q * P := by omega
  rw [sub_mul, one_mul]
  constructor
  · exact_mod_cast h3
  · have : ((q * P : Nat) : Int) - P < mag a := by omega
    exact_mod_cast this

/-- `float(floor(a))` is exact, however large a is. -/
theorem val_ofNat_floor {a : Word} (hf : isFinite a = true) :
    isFinite (ofNat (floor a)) = true ∧ val (ofNat (floor a)) = (floor a : Int) * 2 ^ 149 := by
  obtain ⟨n, e, hm, hn, he⟩ := mag_significand hf
  rcases Nat.lt_or_ge e 149 with h | h
  · refine ofNat_exact ?_
    rw [floor, hm]
    have : n * 2 ^ e / 2 ^ 149 ≤ n := by
      refine Nat.div_le_of_le_mul ?_
      rw [mul_comm]
      exact Nat.mul_le_mul_right _ (Nat.pow_le_pow_right (by decide) h.le)
    omega
  · have hfl : floor a * 2 ^ 149 = mag a := by
      rw [floor, hm]
      refine Nat.div_mul_cancel (Dvd.dvd.mul_left (pow_dvd_pow 2 h) n)
    have h31 := absBits_lt a
    have hb := hf
    rw [isFinite_iff] at hb
    have hr : ofNat (floor a) = pack false (absBits a) := by
      rw [ofNat, hfl, mag_eq, roundMag_magOf _ hb.le]
    rw [hr]
    refine ⟨?_, ?_⟩
    · rw [isFinite_iff, absBits_pack _ _ h31]; exact hb
    · rw [val_pack _ _ h31, ← mag_eq, ← hfl]; push_cast; simp

/-- The fraction of a value of at least 0 is exact (R15). -/
theorem val_fraction {a : Word} (hf : isFinite a = true) (h : 0 ≤ val a) :
    isFinite (fsub a (ofNat (floor a))) = true ∧
    val (fsub a (ofNat (floor a))) = val a - (floor a : Int) * 2 ^ 149 := by
  obtain ⟨hi, hv⟩ := val_ofNat_floor hf
  obtain ⟨hn, he⟩ := fsub_finite hf hi
  rw [hv] at he
  have hex : roundVal (val a - (floor a : Int) * 2 ^ 149) 1 = val a - (floor a : Int) * 2 ^ 149 := by
    obtain ⟨n, e, hm, hn, he⟩ := mag_significand hf
    have hx : val a - (floor a : Int) * 2 ^ 149 = ((mag a % 2 ^ 149 : Nat) : Int) := by
      rw [val_eq_mag_of_nonneg h, floor]
      have := Nat.div_add_mod (mag a) (2 ^ 149)
      rw [int_unit, mul_comm]
      generalize 2 ^ 149 = P at *
      have h2 : ((P * (mag a / P) : Nat) : Int) + ((mag a % P : Nat) : Int) = mag a := by
        rw [← Nat.cast_add, this]
      rw [Nat.cast_mul] at h2
      omega
    rcases Nat.lt_or_ge e 149 with h | h
    · refine roundVal_significand _ (n % 2 ^ (149 - e)) e
        (lt_of_le_of_lt (Nat.mod_le _ _) hn) he ?_
      rw [hx, Int.natAbs_natCast, hm]
      have : (2 : Nat) ^ 149 = 2 ^ (149 - e) * 2 ^ e := by rw [← pow_add]; congr 1; omega
      rw [this, Nat.mul_mod_mul_right]
    · rw [hx, hm, Nat.mod_eq_zero_of_dvd (Dvd.dvd.mul_left (pow_dvd_pow 2 h) n)]
      rfl
  rw [hex] at he
  refine ⟨?_, he⟩
  rw [isFinite_iff_val, he]
  obtain ⟨h1, h2⟩ := floor_spec h
  have h3 : |val a| < magOf 0x7F800000 := (isFinite_iff_val a).1 hf
  rw [abs_of_nonneg h] at h3
  rw [abs_of_nonneg (sub_nonneg.2 h1)]
  exact lt_of_le_of_lt (sub_le_self _ (mul_nonneg (Int.natCast_nonneg _) (pow_nonneg (by decide) _))) h3

end Sys2Proof.Laws
end

