-- ==== Sys2Proof/Laws/Cells.lean ====
section
/-! SUPPORT. The laws of sparse arrays: read after write, and that every operation keeps the canonical
form, in which equal contents are equal data. -/

namespace Sys2Proof.Laws

open Sys2Proof.Machine

variable {β : Type}

@[simp] theorem lookup_nil (a : Nat) : Cells.lookup ([] : Cells β) a = none := rfl

theorem lookup_cons (k : Nat) (v : β) (m : Cells β) (a : Nat) :
    Cells.lookup ((k, v) :: m) a = if a = k then some v else Cells.lookup m a := rfl

@[simp] theorem read_nil (d : β) (a : Nat) : Cells.read d ([] : Cells β) a = d := rfl

theorem lookup_insert (m : Cells β) (a : Nat) (b : β) (a' : Nat) :
    Cells.lookup (Cells.insert m a b) a' = if a' = a then some b else Cells.lookup m a' := by
  induction m with
  | nil => simp [Cells.insert, lookup_cons]
  | cons e m ih =>
    obtain ⟨k, v⟩ := e
    simp only [Cells.insert]
    split
    · simp [lookup_cons]
    · split
      · subst_vars; simp only [lookup_cons]; split <;> rfl
      · simp only [lookup_cons, ih]; split <;> split <;> simp_all

theorem lookup_erase (m : Cells β) (a a' : Nat) :
    Cells.lookup (Cells.erase m a) a' = if a' = a then none else Cells.lookup m a' := by
  induction m with
  | nil => simp [Cells.erase]
  | cons e m ih =>
    obtain ⟨k, v⟩ := e
    simp only [Cells.erase, List.filter_cons] at ih ⊢
    by_cases hk : k = a
    · subst hk; simp only [bne_self_eq_false, Bool.false_eq_true, if_false, ih, lookup_cons]
      split <;> rfl
    · have : (k != a) = true := by simp [hk]
      simp only [this, if_true, lookup_cons, ih]
      split <;> split <;> simp_all

theorem lookup_write [DecidableEq β] (fill : Option β) (m : Cells β) (a : Nat) (b : β) (a' : Nat) :
    Cells.lookup (Cells.write fill m a b) a' =
      if a' = a then (if fill = some b then none else some b) else Cells.lookup m a' := by
  unfold Cells.write
  split <;> simp [lookup_erase, lookup_insert]

/-- Read after write, when unlisted keys read as the fill. -/
theorem read_write [DecidableEq β] (d : β) (m : Cells β) (a : Nat) (b : β) (a' : Nat) :
    Cells.read d (Cells.write (some d) m a b) a' = if a' = a then b else Cells.read d m a' := by
  unfold Cells.read
  rw [lookup_write]
  by_cases h : a' = a
  · subst h
    by_cases hb : d = b
    · simp [hb]
    · simp [hb]
  · simp [h]

/-- Read after write, when nothing is the fill. -/
theorem read_write_none [DecidableEq β] (d : β) (m : Cells β) (a : Nat) (b : β) (a' : Nat) :
    Cells.read d (Cells.write none m a b) a' = if a' = a then b else Cells.read d m a' := by
  unfold Cells.read
  rw [lookup_write]
  by_cases h : a' = a <;> simp [h]

@[simp] theorem word_nil (a : Nat) : Cells.word [] a = 0 := rfl

theorem word_setWord (m : Cells Word) (a : Nat) (w : Word) (a' : Nat) :
    Cells.word (Cells.setWord m a w) a' = if a' = a then w else Cells.word m a' :=
  read_write 0 m a w a'

@[simp] theorem word_setWord_same (m : Cells Word) (a : Nat) (w : Word) :
    Cells.word (Cells.setWord m a w) a = w := by simp [word_setWord]

theorem word_setWord_ne (m : Cells Word) (a : Nat) (w : Word) {a' : Nat} (h : a' ≠ a) :
    Cells.word (Cells.setWord m a w) a' = Cells.word m a' := by simp [word_setWord, h]

/-! ### The canonical form is kept -/

theorem all_insert (p : Nat × β → Bool) (m : Cells β) (a : Nat) (b : β)
    (hm : m.all p = true) (hb : p (a, b) = true) : (Cells.insert m a b).all p = true := by
  induction m with
  | nil => simp [Cells.insert, hb]
  | cons e m ih =>
    obtain ⟨k, v⟩ := e
    simp only [List.all_cons, Bool.and_eq_true] at hm
    simp only [Cells.insert]
    split
    · simp [hb, hm.1, hm.2]
    · split
      · simp [hb, hm.2]
      · simp [hm.1, ih hm.2]

theorem all_erase (p : Nat × β → Bool) (m : Cells β) (a : Nat)
    (hm : m.all p = true) : (Cells.erase m a).all p = true := by
  simp only [Cells.erase, List.all_eq_true, List.mem_filter] at hm ⊢
  exact fun e he => hm e he.1

theorem all_write [DecidableEq β] (p : Nat × β → Bool) (fill : Option β) (m : Cells β) (a : Nat)
    (b : β) (hm : m.all p = true) (hb : fill ≠ some b → p (a, b) = true) :
    (Cells.write fill m a b).all p = true := by
  unfold Cells.write
  split
  · exact all_erase p m a hm
  · exact all_insert p m a b hm (hb ‹_›)

theorem sorted_insert (m : Cells β) (a : Nat) (b : β) (h : Cells.sorted m = true) :
    Cells.sorted (Cells.insert m a b) = true := by
  induction m with
  | nil => simp [Cells.insert, Cells.sorted]
  | cons e m ih =>
    obtain ⟨k, v⟩ := e
    simp only [Cells.sorted, Bool.and_eq_true] at h
    simp only [Cells.insert]
    split
    · rename_i hlt
      simp only [Cells.sorted, List.all_cons, Bool.and_eq_true, decide_eq_true_eq]
      refine ⟨⟨hlt, ?_⟩, h⟩
      have := h.1
      simp only [List.all_eq_true, decide_eq_true_eq] at this ⊢
      exact fun e he => lt_trans hlt (this e he)
    · split
      · subst_vars; simpa [Cells.sorted] using h
      · simp only [Cells.sorted, Bool.and_eq_true]
        refine ⟨all_insert _ m a b h.1 ?_, ih h.2⟩
        simp only [decide_eq_true_eq]
        omega

theorem sorted_erase (m : Cells β) (a : Nat) (h : Cells.sorted m = true) :
    Cells.sorted (Cells.erase m a) = true := by
  induction m with
  | nil => rfl
  | cons e m ih =>
    obtain ⟨k, v⟩ := e
    simp only [Cells.sorted, Bool.and_eq_true] at h
    have ih' := ih h.2
    simp only [Cells.erase, List.filter_cons] at ih' ⊢
    split
    · simp only [Cells.sorted, Bool.and_eq_true]
      exact ⟨all_erase _ m a h.1, ih'⟩
    · exact ih'

/-- Every write keeps the canonical form. -/
theorem wf_write [DecidableEq β] (fill : Option β) (m : Cells β) (a : Nat) (b : β)
    (h : Cells.wf fill m = true) : Cells.wf fill (Cells.write fill m a b) = true := by
  simp only [Cells.wf, Bool.and_eq_true] at h ⊢
  refine ⟨?_, all_write _ fill m a b h.2 (by simp)⟩
  unfold Cells.write
  split
  · exact sorted_erase m a h.1
  · exact sorted_insert m a b h.1

@[simp] theorem wf_nil [DecidableEq β] (fill : Option β) : Cells.wf fill ([] : Cells β) = true := rfl

theorem wf_setWord (m : Cells Word) (a : Nat) (w : Word) (h : Cells.wf (some 0) m = true) :
    Cells.wf (some 0) (Cells.setWord m a w) = true := wf_write (some 0) m a w h

/-- Writing a word into the sample buffers' memory keeps its canonical form. -/
theorem wf_memory_setWord (m : Memory) (a : Nat) (w : Word) (h : Memory.wf m = true) :
    Memory.wf (Memory.setWord m a w) = true :=
  wf_write _ _ _ _ (wf_write _ _ _ _ (wf_write _ _ _ _ (wf_write _ _ _ _ h)))

/-- Two keys below every listed key are unlisted. -/
theorem lookup_eq_none_of_all_lt (m : Cells β) (k a : Nat)
    (h : m.all (fun e => decide (k < e.1)) = true) (ha : a ≤ k) : Cells.lookup m a = none := by
  induction m with
  | nil => rfl
  | cons e m ih =>
    obtain ⟨k', v⟩ := e
    simp only [List.all_cons, Bool.and_eq_true, decide_eq_true_eq] at h
    rw [lookup_cons, if_neg (by omega)]
    exact ih h.2

/-- In canonical form, equal contents are equal data. -/
theorem eq_of_lookup_eq (m m' : Cells β) (h : Cells.sorted m = true) (h' : Cells.sorted m' = true)
    (e : ∀ a, Cells.lookup m a = Cells.lookup m' a) : m = m' := by
  induction m generalizing m' with
  | nil =>
    cases m' with
    | nil => rfl
    | cons x m' => obtain ⟨k, v⟩ := x; have := e k; simp [lookup_cons] at this
  | cons x m ih =>
    obtain ⟨k, v⟩ := x
    cases m' with
    | nil => have := e k; simp [lookup_cons] at this
    | cons x' m' =>
      obtain ⟨k', v'⟩ := x'
      simp only [Cells.sorted, Bool.and_eq_true] at h h'
      have hk : k = k' := by
        rcases lt_trichotomy k k' with hlt | heq | hgt
        · have := e k
          rw [lookup_cons, if_pos rfl, lookup_cons, if_neg (by omega),
            lookup_eq_none_of_all_lt m' k' k h'.1 (by omega)] at this
          cases this
        · exact heq
        · have := e k'
          rw [lookup_cons, if_neg (by omega), lookup_cons, if_pos rfl,
            lookup_eq_none_of_all_lt m k k' h.1 (by omega)] at this
          cases this
      subst hk
      have hv : v = v' := by
        have := e k
        rw [lookup_cons, if_pos rfl, lookup_cons, if_pos rfl] at this
        exact Option.some.inj this
      subst hv
      refine congrArg _ (ih m' h.2 h'.2 ?_)
      intro a
      by_cases ha : a = k
      · subst ha
        rw [lookup_eq_none_of_all_lt m a a h.1 le_rfl, lookup_eq_none_of_all_lt m' a a h'.1 le_rfl]
      · have := e a
        rwa [lookup_cons, if_neg ha, lookup_cons, if_neg ha] at this

/-- A canonical array holds no entry equal to its fill, so reading decides what is listed. -/
theorem lookup_of_read [DecidableEq β] (d : β) (m : Cells β) (h : Cells.wf (some d) m = true)
    (a : Nat) : Cells.lookup m a = if Cells.read d m a = d then none else some (Cells.read d m a) := by
  have key : ∀ v, Cells.lookup m a = some v → v ≠ d := by
    simp only [Cells.wf, Bool.and_eq_true, List.all_eq_true, decide_eq_true_eq] at h
    intro v hv
    have hmem : ∃ k, (k, v) ∈ m := by
      clear h
      induction m with
      | nil => cases hv
      | cons e m ih =>
        obtain ⟨k, w⟩ := e
        rw [lookup_cons] at hv
        split at hv
        · exact ⟨k, by cases hv; simp⟩
        · obtain ⟨k', hk'⟩ := ih hv; exact ⟨k', by simp [hk']⟩
    obtain ⟨k, hk⟩ := hmem
    have := h.2 _ hk
    intro hd; subst hd; simp at this
  unfold Cells.read
  cases hl : Cells.lookup m a with
  | none => simp
  | some v => simp [key v hl]

/-- In canonical form, arrays that read the same are the same. -/
theorem eq_of_read_eq [DecidableEq β] (d : β) (m m' : Cells β) (h : Cells.wf (some d) m = true)
    (h' : Cells.wf (some d) m' = true) (e : ∀ a, Cells.read d m a = Cells.read d m' a) : m = m' := by
  refine eq_of_lookup_eq m m' ?_ ?_ fun a => ?_
  · simp only [Cells.wf, Bool.and_eq_true] at h; exact h.1
  · simp only [Cells.wf, Bool.and_eq_true] at h'; exact h'.1
  · rw [lookup_of_read d m h, lookup_of_read d m' h', e]

end Sys2Proof.Laws
end

