-- ==== Sys2Proof/Laws/State.lean ====
section
/-! SUPPORT. One lemma per field per named update, true by rfl, so that no later proof unfolds a
record update. -/

namespace Sys2Proof.Laws

open Sys2Proof.Machine

/-! ### State.setErr -/

@[simp] theorem setErr_cfg (s : State) (e : ErrCode) : (s.setErr e).cfg = s.cfg := rfl
@[simp] theorem setErr_cmd (s : State) (e : ErrCode) : (s.setErr e).cmd = s.cmd := rfl
@[simp] theorem setErr_err (s : State) (e : ErrCode) : (s.setErr e).err = e := rfl
@[simp] theorem setErr_arg (s : State) (e : ErrCode) : (s.setErr e).arg = s.arg := rfl
@[simp] theorem setErr_result (s : State) (e : ErrCode) : (s.setErr e).result = s.result := rfl
@[simp] theorem setErr_frames (s : State) (e : ErrCode) : (s.setErr e).frames = s.frames := rfl
@[simp] theorem setErr_vib (s : State) (e : ErrCode) : (s.setErr e).vib = s.vib := rfl
@[simp] theorem setErr_ppm (s : State) (e : ErrCode) : (s.setErr e).ppm = s.ppm := rfl
@[simp] theorem setErr_buf (s : State) (e : ErrCode) : (s.setErr e).buf = s.buf := rfl
@[simp] theorem setErr_draws (s : State) (e : ErrCode) : (s.setErr e).draws = s.draws := rfl
@[simp] theorem setErr_pending (s : State) (e : ErrCode) : (s.setErr e).pending = s.pending := rfl
@[simp] theorem setErr_rdata (s : State) (e : ErrCode) : (s.setErr e).rdata = s.rdata := rfl

/-! ### State.setResult -/

@[simp] theorem setResult_cfg (s : State) (w : Word) : (s.setResult w).cfg = s.cfg := rfl
@[simp] theorem setResult_cmd (s : State) (w : Word) : (s.setResult w).cmd = s.cmd := rfl
@[simp] theorem setResult_err (s : State) (w : Word) : (s.setResult w).err = s.err := rfl
@[simp] theorem setResult_arg (s : State) (w : Word) : (s.setResult w).arg = s.arg := rfl
@[simp] theorem setResult_result (s : State) (w : Word) : (s.setResult w).result = w := rfl
@[simp] theorem setResult_frames (s : State) (w : Word) : (s.setResult w).frames = s.frames := rfl
@[simp] theorem setResult_vib (s : State) (w : Word) : (s.setResult w).vib = s.vib := rfl
@[simp] theorem setResult_ppm (s : State) (w : Word) : (s.setResult w).ppm = s.ppm := rfl
@[simp] theorem setResult_buf (s : State) (w : Word) : (s.setResult w).buf = s.buf := rfl
@[simp] theorem setResult_draws (s : State) (w : Word) : (s.setResult w).draws = s.draws := rfl
@[simp] theorem setResult_pending (s : State) (w : Word) : (s.setResult w).pending = s.pending := rfl
@[simp] theorem setResult_rdata (s : State) (w : Word) : (s.setResult w).rdata = s.rdata := rfl

/-! ### State.setVib -/

@[simp] theorem setVib_cfg (s : State) (v : Vib) : (s.setVib v).cfg = s.cfg := rfl
@[simp] theorem setVib_cmd (s : State) (v : Vib) : (s.setVib v).cmd = s.cmd := rfl
@[simp] theorem setVib_err (s : State) (v : Vib) : (s.setVib v).err = s.err := rfl
@[simp] theorem setVib_arg (s : State) (v : Vib) : (s.setVib v).arg = s.arg := rfl
@[simp] theorem setVib_result (s : State) (v : Vib) : (s.setVib v).result = s.result := rfl
@[simp] theorem setVib_frames (s : State) (v : Vib) : (s.setVib v).frames = s.frames := rfl
@[simp] theorem setVib_vib (s : State) (v : Vib) : (s.setVib v).vib = v := rfl
@[simp] theorem setVib_ppm (s : State) (v : Vib) : (s.setVib v).ppm = s.ppm := rfl
@[simp] theorem setVib_buf (s : State) (v : Vib) : (s.setVib v).buf = s.buf := rfl
@[simp] theorem setVib_draws (s : State) (v : Vib) : (s.setVib v).draws = s.draws := rfl
@[simp] theorem setVib_pending (s : State) (v : Vib) : (s.setVib v).pending = s.pending := rfl
@[simp] theorem setVib_rdata (s : State) (v : Vib) : (s.setVib v).rdata = s.rdata := rfl

/-! ### State.setPpm -/

@[simp] theorem setPpm_cfg (s : State) (p : Ppm) : (s.setPpm p).cfg = s.cfg := rfl
@[simp] theorem setPpm_cmd (s : State) (p : Ppm) : (s.setPpm p).cmd = s.cmd := rfl
@[simp] theorem setPpm_err (s : State) (p : Ppm) : (s.setPpm p).err = s.err := rfl
@[simp] theorem setPpm_arg (s : State) (p : Ppm) : (s.setPpm p).arg = s.arg := rfl
@[simp] theorem setPpm_result (s : State) (p : Ppm) : (s.setPpm p).result = s.result := rfl
@[simp] theorem setPpm_frames (s : State) (p : Ppm) : (s.setPpm p).frames = s.frames := rfl
@[simp] theorem setPpm_vib (s : State) (p : Ppm) : (s.setPpm p).vib = s.vib := rfl
@[simp] theorem setPpm_ppm (s : State) (p : Ppm) : (s.setPpm p).ppm = p := rfl
@[simp] theorem setPpm_buf (s : State) (p : Ppm) : (s.setPpm p).buf = s.buf := rfl
@[simp] theorem setPpm_draws (s : State) (p : Ppm) : (s.setPpm p).draws = s.draws := rfl
@[simp] theorem setPpm_pending (s : State) (p : Ppm) : (s.setPpm p).pending = s.pending := rfl
@[simp] theorem setPpm_rdata (s : State) (p : Ppm) : (s.setPpm p).rdata = s.rdata := rfl

/-! ### State.setBuf -/

@[simp] theorem setBuf_cfg (s : State) (m : Memory) : (s.setBuf m).cfg = s.cfg := rfl
@[simp] theorem setBuf_cmd (s : State) (m : Memory) : (s.setBuf m).cmd = s.cmd := rfl
@[simp] theorem setBuf_err (s : State) (m : Memory) : (s.setBuf m).err = s.err := rfl
@[simp] theorem setBuf_arg (s : State) (m : Memory) : (s.setBuf m).arg = s.arg := rfl
@[simp] theorem setBuf_result (s : State) (m : Memory) : (s.setBuf m).result = s.result := rfl
@[simp] theorem setBuf_frames (s : State) (m : Memory) : (s.setBuf m).frames = s.frames := rfl
@[simp] theorem setBuf_vib (s : State) (m : Memory) : (s.setBuf m).vib = s.vib := rfl
@[simp] theorem setBuf_ppm (s : State) (m : Memory) : (s.setBuf m).ppm = s.ppm := rfl
@[simp] theorem setBuf_buf (s : State) (m : Memory) : (s.setBuf m).buf = m := rfl
@[simp] theorem setBuf_draws (s : State) (m : Memory) : (s.setBuf m).draws = s.draws := rfl
@[simp] theorem setBuf_pending (s : State) (m : Memory) : (s.setBuf m).pending = s.pending := rfl
@[simp] theorem setBuf_rdata (s : State) (m : Memory) : (s.setBuf m).rdata = s.rdata := rfl

/-! ### Clearing a unit (R82, R98) -/

@[simp] theorem vib_clear_init (v : Vib) : v.clear.init = false := rfl
@[simp] theorem vib_clear_fs (v : Vib) : v.clear.fs = v.fs := rfl
@[simp] theorem vib_clear_nch (v : Vib) : v.clear.nch = v.nch := rfl
@[simp] theorem vib_clear_freq (v : Vib) : v.clear.freq = v.freq := rfl
@[simp] theorem vib_clear_width (v : Vib) : v.clear.width = v.width := rfl
@[simp] theorem vib_clear_amp (v : Vib) : v.clear.amp = v.amp := rfl
@[simp] theorem vib_clear_aFs (v : Vib) : v.clear.aFs = 0 := rfl
@[simp] theorem vib_clear_aNch (v : Vib) : v.clear.aNch = 0 := rfl
@[simp] theorem vib_clear_cap (v : Vib) : v.clear.cap = 0 := rfl
@[simp] theorem vib_clear_cdelay (v : Vib) : v.clear.cdelay = 0 := rfl
@[simp] theorem vib_clear_amps (v : Vib) : v.clear.amps = 0 := rfl
@[simp] theorem vib_clear_pinc (v : Vib) : v.clear.pinc = 0 := rfl
@[simp] theorem vib_clear_phase (v : Vib) : v.clear.phase = 0 := rfl
@[simp] theorem vib_clear_lines (v : Vib) : v.clear.lines = [] := rfl

@[simp] theorem ppm_clear_init (p : Ppm) : p.clear.init = false := rfl
@[simp] theorem ppm_clear_fs (p : Ppm) : p.clear.fs = p.fs := rfl
@[simp] theorem ppm_clear_nch (p : Ppm) : p.clear.nch = p.nch := rfl
@[simp] theorem ppm_clear_mode (p : Ppm) : p.clear.mode = p.mode := rfl
@[simp] theorem ppm_clear_db (p : Ppm) : p.clear.db = p.db := rfl
@[simp] theorem ppm_clear_aFs (p : Ppm) : p.clear.aFs = 0 := rfl
@[simp] theorem ppm_clear_aNch (p : Ppm) : p.clear.aNch = 0 := rfl
@[simp] theorem ppm_clear_aMode (p : Ppm) : p.clear.aMode = false := rfl
@[simp] theorem ppm_clear_acoef (p : Ppm) : p.clear.acoef = 0 := rfl
@[simp] theorem ppm_clear_rcoef (p : Ppm) : p.clear.rcoef = 0 := rfl
@[simp] theorem ppm_clear_prev (p : Ppm) : p.clear.prev = [] := rfl
@[simp] theorem ppm_clear_out (p : Ppm) : p.clear.out = [] := rfl

@[simp] theorem vibClear_cfg (s : State) : s.vibClear.cfg = s.cfg := rfl
@[simp] theorem vibClear_cmd (s : State) : s.vibClear.cmd = s.cmd := rfl
@[simp] theorem vibClear_err (s : State) : s.vibClear.err = s.err := rfl
@[simp] theorem vibClear_arg (s : State) : s.vibClear.arg = s.arg := rfl
@[simp] theorem vibClear_result (s : State) : s.vibClear.result = s.result := rfl
@[simp] theorem vibClear_frames (s : State) : s.vibClear.frames = s.frames := rfl
@[simp] theorem vibClear_vib (s : State) : s.vibClear.vib = s.vib.clear := rfl
@[simp] theorem vibClear_ppm (s : State) : s.vibClear.ppm = s.ppm := rfl
@[simp] theorem vibClear_buf (s : State) : s.vibClear.buf = s.buf := rfl
@[simp] theorem vibClear_draws (s : State) : s.vibClear.draws = s.draws := rfl
@[simp] theorem vibClear_pending (s : State) : s.vibClear.pending = s.pending := rfl
@[simp] theorem vibClear_rdata (s : State) : s.vibClear.rdata = s.rdata := rfl

@[simp] theorem ppmClear_cfg (s : State) : s.ppmClear.cfg = s.cfg := rfl
@[simp] theorem ppmClear_cmd (s : State) : s.ppmClear.cmd = s.cmd := rfl
@[simp] theorem ppmClear_err (s : State) : s.ppmClear.err = s.err := rfl
@[simp] theorem ppmClear_arg (s : State) : s.ppmClear.arg = s.arg := rfl
@[simp] theorem ppmClear_result (s : State) : s.ppmClear.result = s.result := rfl
@[simp] theorem ppmClear_frames (s : State) : s.ppmClear.frames = s.frames := rfl
@[simp] theorem ppmClear_vib (s : State) : s.ppmClear.vib = s.vib := rfl
@[simp] theorem ppmClear_ppm (s : State) : s.ppmClear.ppm = s.ppm.clear := rfl
@[simp] theorem ppmClear_buf (s : State) : s.ppmClear.buf = s.buf := rfl
@[simp] theorem ppmClear_draws (s : State) : s.ppmClear.draws = s.draws := rfl
@[simp] theorem ppmClear_pending (s : State) : s.ppmClear.pending = s.pending := rfl
@[simp] theorem ppmClear_rdata (s : State) : s.ppmClear.rdata = s.rdata := rfl

/-! ### Parts of the vibrato unit -/

@[simp] theorem vib_setLines_init (v : Vib) (ls : Cells Line) : (v.setLines ls).init = v.init := rfl
@[simp] theorem vib_setLines_fs (v : Vib) (ls : Cells Line) : (v.setLines ls).fs = v.fs := rfl
@[simp] theorem vib_setLines_nch (v : Vib) (ls : Cells Line) : (v.setLines ls).nch = v.nch := rfl
@[simp] theorem vib_setLines_freq (v : Vib) (ls : Cells Line) : (v.setLines ls).freq = v.freq := rfl
@[simp] theorem vib_setLines_width (v : Vib) (ls : Cells Line) : (v.setLines ls).width = v.width := rfl
@[simp] theorem vib_setLines_amp (v : Vib) (ls : Cells Line) : (v.setLines ls).amp = v.amp := rfl
@[simp] theorem vib_setLines_aFs (v : Vib) (ls : Cells Line) : (v.setLines ls).aFs = v.aFs := rfl
@[simp] theorem vib_setLines_aNch (v : Vib) (ls : Cells Line) : (v.setLines ls).aNch = v.aNch := rfl
@[simp] theorem vib_setLines_cap (v : Vib) (ls : Cells Line) : (v.setLines ls).cap = v.cap := rfl
@[simp] theorem vib_setLines_cdelay (v : Vib) (ls : Cells Line) : (v.setLines ls).cdelay = v.cdelay := rfl
@[simp] theorem vib_setLines_amps (v : Vib) (ls : Cells Line) : (v.setLines ls).amps = v.amps := rfl
@[simp] theorem vib_setLines_pinc (v : Vib) (ls : Cells Line) : (v.setLines ls).pinc = v.pinc := rfl
@[simp] theorem vib_setLines_phase (v : Vib) (ls : Cells Line) : (v.setLines ls).phase = v.phase := rfl
@[simp] theorem vib_setLines_lines (v : Vib) (ls : Cells Line) : (v.setLines ls).lines = ls := rfl

@[simp] theorem vib_setPhase_init (v : Vib) (p : Word) : (v.setPhase p).init = v.init := rfl
@[simp] theorem vib_setPhase_fs (v : Vib) (p : Word) : (v.setPhase p).fs = v.fs := rfl
@[simp] theorem vib_setPhase_nch (v : Vib) (p : Word) : (v.setPhase p).nch = v.nch := rfl
@[simp] theorem vib_setPhase_freq (v : Vib) (p : Word) : (v.setPhase p).freq = v.freq := rfl
@[simp] theorem vib_setPhase_width (v : Vib) (p : Word) : (v.setPhase p).width = v.width := rfl
@[simp] theorem vib_setPhase_amp (v : Vib) (p : Word) : (v.setPhase p).amp = v.amp := rfl
@[simp] theorem vib_setPhase_aFs (v : Vib) (p : Word) : (v.setPhase p).aFs = v.aFs := rfl
@[simp] theorem vib_setPhase_aNch (v : Vib) (p : Word) : (v.setPhase p).aNch = v.aNch := rfl
@[simp] theorem vib_setPhase_cap (v : Vib) (p : Word) : (v.setPhase p).cap = v.cap := rfl
@[simp] theorem vib_setPhase_cdelay (v : Vib) (p : Word) : (v.setPhase p).cdelay = v.cdelay := rfl
@[simp] theorem vib_setPhase_amps (v : Vib) (p : Word) : (v.setPhase p).amps = v.amps := rfl
@[simp] theorem vib_setPhase_pinc (v : Vib) (p : Word) : (v.setPhase p).pinc = v.pinc := rfl
@[simp] theorem vib_setPhase_phase (v : Vib) (p : Word) : (v.setPhase p).phase = p := rfl
@[simp] theorem vib_setPhase_lines (v : Vib) (p : Word) : (v.setPhase p).lines = v.lines := rfl

/-! ### The operations on one channel -/

@[simp] theorem vib_setLine_init (v : Vib) (c : Nat) (l : Line) : (v.setLine c l).init = v.init := rfl
@[simp] theorem vib_setLine_fs (v : Vib) (c : Nat) (l : Line) : (v.setLine c l).fs = v.fs := rfl
@[simp] theorem vib_setLine_nch (v : Vib) (c : Nat) (l : Line) : (v.setLine c l).nch = v.nch := rfl
@[simp] theorem vib_setLine_freq (v : Vib) (c : Nat) (l : Line) : (v.setLine c l).freq = v.freq := rfl
@[simp] theorem vib_setLine_width (v : Vib) (c : Nat) (l : Line) : (v.setLine c l).width = v.width := rfl
@[simp] theorem vib_setLine_amp (v : Vib) (c : Nat) (l : Line) : (v.setLine c l).amp = v.amp := rfl
@[simp] theorem vib_setLine_aFs (v : Vib) (c : Nat) (l : Line) : (v.setLine c l).aFs = v.aFs := rfl
@[simp] theorem vib_setLine_aNch (v : Vib) (c : Nat) (l : Line) : (v.setLine c l).aNch = v.aNch := rfl
@[simp] theorem vib_setLine_cap (v : Vib) (c : Nat) (l : Line) : (v.setLine c l).cap = v.cap := rfl
@[simp] theorem vib_setLine_cdelay (v : Vib) (c : Nat) (l : Line) : (v.setLine c l).cdelay = v.cdelay := rfl
@[simp] theorem vib_setLine_amps (v : Vib) (c : Nat) (l : Line) : (v.setLine c l).amps = v.amps := rfl
@[simp] theorem vib_setLine_pinc (v : Vib) (c : Nat) (l : Line) : (v.setLine c l).pinc = v.pinc := rfl
@[simp] theorem vib_setLine_phase (v : Vib) (c : Nat) (l : Line) : (v.setLine c l).phase = v.phase := rfl

@[simp] theorem dlWrite_cfg (s : State) (c : Nat) (w : Word) : (s.dlWrite c w).cfg = s.cfg := rfl
@[simp] theorem dlWrite_cmd (s : State) (c : Nat) (w : Word) : (s.dlWrite c w).cmd = s.cmd := rfl
@[simp] theorem dlWrite_err (s : State) (c : Nat) (w : Word) : (s.dlWrite c w).err = s.err := rfl
@[simp] theorem dlWrite_arg (s : State) (c : Nat) (w : Word) : (s.dlWrite c w).arg = s.arg := rfl
@[simp] theorem dlWrite_result (s : State) (c : Nat) (w : Word) : (s.dlWrite c w).result = s.result := rfl
@[simp] theorem dlWrite_frames (s : State) (c : Nat) (w : Word) : (s.dlWrite c w).frames = s.frames := rfl
@[simp] theorem dlWrite_ppm (s : State) (c : Nat) (w : Word) : (s.dlWrite c w).ppm = s.ppm := rfl
@[simp] theorem dlWrite_buf (s : State) (c : Nat) (w : Word) : (s.dlWrite c w).buf = s.buf := rfl
@[simp] theorem dlWrite_draws (s : State) (c : Nat) (w : Word) : (s.dlWrite c w).draws = s.draws := rfl
@[simp] theorem dlWrite_pending (s : State) (c : Nat) (w : Word) : (s.dlWrite c w).pending = s.pending := rfl
@[simp] theorem dlWrite_rdata (s : State) (c : Nat) (w : Word) : (s.dlWrite c w).rdata = s.rdata := rfl
@[simp] theorem dlWrite_vib_init (s : State) (c : Nat) (w : Word) : (s.dlWrite c w).vib.init = s.vib.init := rfl
@[simp] theorem dlWrite_vib_fs (s : State) (c : Nat) (w : Word) : (s.dlWrite c w).vib.fs = s.vib.fs := rfl
@[simp] theorem dlWrite_vib_nch (s : State) (c : Nat) (w : Word) : (s.dlWrite c w).vib.nch = s.vib.nch := rfl
@[simp] theorem dlWrite_vib_freq (s : State) (c : Nat) (w : Word) : (s.dlWrite c w).vib.freq = s.vib.freq := rfl
@[simp] theorem dlWrite_vib_width (s : State) (c : Nat) (w : Word) : (s.dlWrite c w).vib.width = s.vib.width := rfl
@[simp] theorem dlWrite_vib_amp (s : State) (c : Nat) (w : Word) : (s.dlWrite c w).vib.amp = s.vib.amp := rfl
@[simp] theorem dlWrite_vib_aFs (s : State) (c : Nat) (w : Word) : (s.dlWrite c w).vib.aFs = s.vib.aFs := rfl
@[simp] theorem dlWrite_vib_aNch (s : State) (c : Nat) (w : Word) : (s.dlWrite c w).vib.aNch = s.vib.aNch := rfl
@[simp] theorem dlWrite_vib_cap (s : State) (c : Nat) (w : Word) : (s.dlWrite c w).vib.cap = s.vib.cap := rfl
@[simp] theorem dlWrite_vib_cdelay (s : State) (c : Nat) (w : Word) : (s.dlWrite c w).vib.cdelay = s.vib.cdelay := rfl
@[simp] theorem dlWrite_vib_amps (s : State) (c : Nat) (w : Word) : (s.dlWrite c w).vib.amps = s.vib.amps := rfl
@[simp] theorem dlWrite_vib_pinc (s : State) (c : Nat) (w : Word) : (s.dlWrite c w).vib.pinc = s.vib.pinc := rfl
@[simp] theorem dlWrite_vib_phase (s : State) (c : Nat) (w : Word) : (s.dlWrite c w).vib.phase = s.vib.phase := rfl

@[simp] theorem writeOut_cfg (s : State) (c n : Nat) (w : Word) : (s.writeOut c n w).cfg = s.cfg := rfl
@[simp] theorem writeOut_cmd (s : State) (c n : Nat) (w : Word) : (s.writeOut c n w).cmd = s.cmd := rfl
@[simp] theorem writeOut_err (s : State) (c n : Nat) (w : Word) : (s.writeOut c n w).err = s.err := rfl
@[simp] theorem writeOut_arg (s : State) (c n : Nat) (w : Word) : (s.writeOut c n w).arg = s.arg := rfl
@[simp] theorem writeOut_result (s : State) (c n : Nat) (w : Word) : (s.writeOut c n w).result = s.result := rfl
@[simp] theorem writeOut_frames (s : State) (c n : Nat) (w : Word) : (s.writeOut c n w).frames = s.frames := rfl
@[simp] theorem writeOut_vib (s : State) (c n : Nat) (w : Word) : (s.writeOut c n w).vib = s.vib := rfl
@[simp] theorem writeOut_ppm (s : State) (c n : Nat) (w : Word) : (s.writeOut c n w).ppm = s.ppm := rfl
@[simp] theorem writeOut_draws (s : State) (c n : Nat) (w : Word) : (s.writeOut c n w).draws = s.draws := rfl
@[simp] theorem writeOut_pending (s : State) (c n : Nat) (w : Word) : (s.writeOut c n w).pending = s.pending := rfl
@[simp] theorem writeOut_rdata (s : State) (c n : Nat) (w : Word) : (s.writeOut c n w).rdata = s.rdata := rfl

@[simp] theorem writeIn_cfg (s : State) (c n : Nat) (w : Word) : (s.writeIn c n w).cfg = s.cfg := rfl
@[simp] theorem writeIn_cmd (s : State) (c n : Nat) (w : Word) : (s.writeIn c n w).cmd = s.cmd := rfl
@[simp] theorem writeIn_err (s : State) (c n : Nat) (w : Word) : (s.writeIn c n w).err = s.err := rfl
@[simp] theorem writeIn_arg (s : State) (c n : Nat) (w : Word) : (s.writeIn c n w).arg = s.arg := rfl
@[simp] theorem writeIn_result (s : State) (c n : Nat) (w : Word) : (s.writeIn c n w).result = s.result := rfl
@[simp] theorem writeIn_frames (s : State) (c n : Nat) (w : Word) : (s.writeIn c n w).frames = s.frames := rfl
@[simp] theorem writeIn_vib (s : State) (c n : Nat) (w : Word) : (s.writeIn c n w).vib = s.vib := rfl
@[simp] theorem writeIn_ppm (s : State) (c n : Nat) (w : Word) : (s.writeIn c n w).ppm = s.ppm := rfl
@[simp] theorem writeIn_draws (s : State) (c n : Nat) (w : Word) : (s.writeIn c n w).draws = s.draws := rfl
@[simp] theorem writeIn_pending (s : State) (c n : Nat) (w : Word) : (s.writeIn c n w).pending = s.pending := rfl
@[simp] theorem writeIn_rdata (s : State) (c n : Nat) (w : Word) : (s.writeIn c n w).rdata = s.rdata := rfl

@[simp] theorem advancePhase_cfg (s : State) : s.advancePhase.cfg = s.cfg := rfl
@[simp] theorem advancePhase_cmd (s : State) : s.advancePhase.cmd = s.cmd := rfl
@[simp] theorem advancePhase_err (s : State) : s.advancePhase.err = s.err := rfl
@[simp] theorem advancePhase_arg (s : State) : s.advancePhase.arg = s.arg := rfl
@[simp] theorem advancePhase_result (s : State) : s.advancePhase.result = s.result := rfl
@[simp] theorem advancePhase_frames (s : State) : s.advancePhase.frames = s.frames := rfl
@[simp] theorem advancePhase_ppm (s : State) : s.advancePhase.ppm = s.ppm := rfl
@[simp] theorem advancePhase_buf (s : State) : s.advancePhase.buf = s.buf := rfl
@[simp] theorem advancePhase_draws (s : State) : s.advancePhase.draws = s.draws := rfl
@[simp] theorem advancePhase_pending (s : State) : s.advancePhase.pending = s.pending := rfl
@[simp] theorem advancePhase_rdata (s : State) : s.advancePhase.rdata = s.rdata := rfl
@[simp] theorem advancePhase_vib_init (s : State) : s.advancePhase.vib.init = s.vib.init := rfl
@[simp] theorem advancePhase_vib_fs (s : State) : s.advancePhase.vib.fs = s.vib.fs := rfl
@[simp] theorem advancePhase_vib_nch (s : State) : s.advancePhase.vib.nch = s.vib.nch := rfl
@[simp] theorem advancePhase_vib_freq (s : State) : s.advancePhase.vib.freq = s.vib.freq := rfl
@[simp] theorem advancePhase_vib_width (s : State) : s.advancePhase.vib.width = s.vib.width := rfl
@[simp] theorem advancePhase_vib_amp (s : State) : s.advancePhase.vib.amp = s.vib.amp := rfl
@[simp] theorem advancePhase_vib_aFs (s : State) : s.advancePhase.vib.aFs = s.vib.aFs := rfl
@[simp] theorem advancePhase_vib_aNch (s : State) : s.advancePhase.vib.aNch = s.vib.aNch := rfl
@[simp] theorem advancePhase_vib_cap (s : State) : s.advancePhase.vib.cap = s.vib.cap := rfl
@[simp] theorem advancePhase_vib_cdelay (s : State) : s.advancePhase.vib.cdelay = s.vib.cdelay := rfl
@[simp] theorem advancePhase_vib_amps (s : State) : s.advancePhase.vib.amps = s.vib.amps := rfl
@[simp] theorem advancePhase_vib_pinc (s : State) : s.advancePhase.vib.pinc = s.vib.pinc := rfl
@[simp] theorem advancePhase_vib_lines (s : State) : s.advancePhase.vib.lines = s.vib.lines := rfl
@[simp] theorem advancePhase_vib_phase (s : State) : s.advancePhase.vib.phase = advance s.vib.pinc s.vib.phase := rfl

/-! ### Issuing a command -/

@[simp] theorem issueCommand_cfg (s : State) (w : Word) : (s.issueCommand w).cfg = s.cfg := rfl
@[simp] theorem issueCommand_cmd (s : State) (w : Word) : (s.issueCommand w).cmd = s.cmd := rfl
@[simp] theorem issueCommand_err (s : State) (w : Word) : (s.issueCommand w).err = s.err := rfl
@[simp] theorem issueCommand_arg (s : State) (w : Word) : (s.issueCommand w).arg = s.arg := rfl
@[simp] theorem issueCommand_result (s : State) (w : Word) : (s.issueCommand w).result = s.result := rfl
@[simp] theorem issueCommand_frames (s : State) (w : Word) : (s.issueCommand w).frames = s.frames := rfl
@[simp] theorem issueCommand_vib (s : State) (w : Word) : (s.issueCommand w).vib = s.vib := rfl
@[simp] theorem issueCommand_ppm (s : State) (w : Word) : (s.issueCommand w).ppm = s.ppm := rfl
@[simp] theorem issueCommand_buf (s : State) (w : Word) : (s.issueCommand w).buf = s.buf := rfl
@[simp] theorem issueCommand_draws (s : State) (w : Word) : (s.issueCommand w).draws = s.draws := rfl
@[simp] theorem issueCommand_rdata (s : State) (w : Word) : (s.issueCommand w).rdata = s.rdata := rfl
@[simp] theorem issueCommand_pending (s : State) (w : Word) : (s.issueCommand w).pending = .write (s.cfg.base + Reg.offset s.cfg .cmd) w :: s.pending := rfl

end Sys2Proof.Laws
end

