-- ==== Sys2Proof/Laws/Ops.lean ====
section
/-! SUPPORT. What each shared operation does, said once: the sample buffers, one delay line, the lines
of the channels, and how a command ends. -/

namespace Sys2Proof.Laws

open Sys2Proof.Machine

/-! ### Words and their bytes (R43) -/

theorem wordOf_byteOf (w : Word) :
    wordOf (byteOf w 0) (byteOf w 1) (byteOf w 2) (byteOf w 3) = w := by
  apply BitVec.eq_of_getLsbD_eq
  intro i hi
  simp only [wordOf, byteOf, BitVec.getLsbD_append, BitVec.getLsbD_extractLsb']
  split
  · simp_all
  · split
    · simp_all
    · split
      · have : i - 8 - 8 < 8 := by omega
        simp [this]; congr 1; omega
      · have : i - 8 - 8 - 8 < 8 := by omega
        simp [this]; congr 1; omega

/-- Reading a byte of the buffers after a word was written at `a`. -/
theorem bufByte_setWord (s : State) (a : Nat) (w : Word) (b : Nat) :
    (s.setBuf (Memory.setWord s.buf a w)).bufByte b =
      if b = a + 3 then byteOf w 3 else if b = a + 2 then byteOf w 2
      else if b = a + 1 then byteOf w 1 else if b = a then byteOf w 0 else s.bufByte b := by
  simp only [State.bufByte, setBuf_buf, setBuf_cfg, setBuf_draws, Memory.setWord, read_write_none]

/-- A byte outside the four written keeps its value. -/
theorem bufByte_setWord_outside (s : State) (a : Nat) (w : Word) (b : Nat)
    (h : b < a ∨ a + 4 ≤ b) : (s.setBuf (Memory.setWord s.buf a w)).bufByte b = s.bufByte b := by
  rw [bufByte_setWord, if_neg (by omega), if_neg (by omega), if_neg (by omega), if_neg (by omega)]

/-- A word of the buffers read back after it was written. -/
theorem bufWord_setWord_same (s : State) (a : Nat) (w : Word) :
    (s.setBuf (Memory.setWord s.buf a w)).bufWord a = w := by
  simp only [State.bufWord, bufByte_setWord]
  simp [wordOf_byteOf]

/-- A word of the buffers that shares no byte with the one written keeps its value. -/
theorem bufWord_setWord_disjoint (s : State) (a : Nat) (w : Word) (b : Nat)
    (h : b + 4 ≤ a ∨ a + 4 ≤ b) : (s.setBuf (Memory.setWord s.buf a w)).bufWord b = s.bufWord b := by
  simp only [State.bufWord]
  rw [bufByte_setWord_outside, bufByte_setWord_outside, bufByte_setWord_outside,
    bufByte_setWord_outside] <;> omega

/-! ### IN and OUT (R34) -/

theorem readOut_writeOut_same (s : State) (c n : Nat) (w : Word) :
    (s.writeOut c n w).readOut c n = w := bufWord_setWord_same s _ w

theorem readIn_writeIn_same (s : State) (c n : Nat) (w : Word) :
    (s.writeIn c n w).readIn c n = w := bufWord_setWord_same s _ w

/-- Two places of a buffer, each within BLK_MAX, are the same word only when they are the same place. -/
theorem slot_inj {blk c n c' n' : Nat} (hn : n < blk) (hn' : n' < blk)
    (h : c * blk + n = c' * blk + n') : c = c' ∧ n = n' := by
  have hc : c = c' := by
    rcases lt_trichotomy c c' with hlt | heq | hgt
    · have : c * blk + blk ≤ c' * blk := by
        calc c * blk + blk = (c + 1) * blk := by ring
          _ ≤ c' * blk := Nat.mul_le_mul_right _ hlt
      omega
    · exact heq
    · have : c' * blk + blk ≤ c * blk := by
        calc c' * blk + blk = (c' + 1) * blk := by ring
          _ ≤ c * blk := Nat.mul_le_mul_right _ hgt
      omega
  subst hc
  exact ⟨rfl, by omega⟩

theorem readOut_writeOut_ne (s : State) {c n c' n' : Nat} (w : Word)
    (hn : n < s.cfg.blkMax) (hn' : n' < s.cfg.blkMax) (h : ¬(c' = c ∧ n' = n)) :
    (s.writeOut c n w).readOut c' n' = s.readOut c' n' := by
  have hne : c * s.cfg.blkMax + n ≠ c' * s.cfg.blkMax + n' := fun e =>
    h (by have := slot_inj hn hn' e; exact ⟨this.1.symm, this.2.symm⟩)
  exact bufWord_setWord_disjoint s _ w _ (by simp only [outOffset, writeOut_cfg]; omega)

/-- The slots of a legal configuration lie inside a buffer's 16384 words. -/
theorem slot_lt {p : Params} (hp : p.legal = true) {c n : Nat} (hc : c < p.nchMax)
    (hn : n < p.blkMax) : c * p.blkMax + n < 16384 := by
  simp only [Params.legal, Bool.and_eq_true, decide_eq_true_eq] at hp
  have h1 : (c + 1) * p.blkMax ≤ p.nchMax * p.blkMax := Nat.mul_le_mul_right _ hc
  have h2 : (c + 1) * p.blkMax = c * p.blkMax + p.blkMax := by ring
  omega

/-- No write to OUT reaches IN. -/
theorem readIn_writeOut (s : State) (hp : s.cfg.legal = true) {c n : Nat} (w : Word) {c' n' : Nat}
    (hc' : c' < s.cfg.nchMax) (hn' : n' < s.cfg.blkMax) :
    (s.writeOut c n w).readIn c' n' = s.readIn c' n' := by
  have := slot_lt hp hc' hn'
  exact bufWord_setWord_disjoint s _ w _ (by simp only [outOffset, inOffset, writeOut_cfg]; omega)

/-! ### Delay lines (R65 to R67) -/

theorem line_setLine (v : Vib) (c : Nat) (l : Line) (c' : Nat) :
    (v.setLine c l).line c' = if c' = c then l else v.line c' :=
  read_write Line.empty v.lines c l c'

@[simp] theorem line_setLine_same (v : Vib) (c : Nat) (l : Line) : (v.setLine c l).line c = l := by
  simp [line_setLine]

theorem line_dlWrite (s : State) (c : Nat) (w : Word) (c' : Nat) :
    (s.dlWrite c w).vib.line c' =
      if c' = c then (s.vib.line c).write s.vib.cap.toNat w else s.vib.line c' :=
  line_setLine s.vib c _ c'

/-- The cells after a write (R66). -/
theorem write_cells (cap : Nat) (l : Line) (v : Word) (k : Nat) :
    Cells.word (l.write cap v).cells k = if k = l.widx.toNat then v else Cells.word l.cells k :=
  word_setWord l.cells l.widx.toNat v k

/-- The write index after a write (R66). -/
theorem write_widx (cap : Nat) (l : Line) (v : Word) (hc : 0 < cap) (hcap : cap ≤ 2 ^ 32) :
    (l.write cap v).widx.toNat = (l.widx.toNat + 1) % cap := by
  have h : (l.widx.toNat + 1) % cap < cap := Nat.mod_lt _ hc
  simp only [Line.write, BitVec.toNat_ofNat]
  exact Nat.mod_eq_of_lt (by omega)

theorem write_widx_lt (cap : Nat) (l : Line) (v : Word) (hc : 0 < cap) (hcap : cap ≤ 2 ^ 32) :
    (l.write cap v).widx.toNat < cap := by
  rw [write_widx cap l v hc hcap]; exact Nat.mod_lt _ hc

/-- Where tap k lies (R67), without the wrap written as a remainder. -/
theorem tap_index (cap w k : Nat) (hw : w < cap) (hk : k < cap) :
    (w + cap - 1 - k) % cap = if k < w then w - 1 - k else w + cap - 1 - k := by
  split
  · rw [show w + cap - 1 - k = (w - 1 - k) + cap by omega, Nat.add_mod_right]
    exact Nat.mod_eq_of_lt (by omega)
  · exact Nat.mod_eq_of_lt (by omega)

/-! ### How a command ends (R113) -/

@[simp] theorem raise_eq (s : State) (e : ErrCode) : s.raise e = .next (s.setErr e) := rfl

@[simp] theorem finish_eq (s : State) : s.finish = .next (s.setErr .noError) := rfl

@[simp] theorem setErr_setErr (s : State) (e e' : ErrCode) : (s.setErr e).setErr e' = s.setErr e' := rfl

/-- The memory of a state after one buffer word was written keeps its canonical form. -/
theorem wf_writeOut (s : State) (c n : Nat) (w : Word) (h : Memory.wf s.buf = true) :
    Memory.wf (s.writeOut c n w).buf = true := wf_memory_setWord s.buf _ w h

end Sys2Proof.Laws
end

