-- ==== Sys2Proof/Laws/Bus.lean ====
section
/-! SUPPORT. What the host window does, said once: where an address leads, which word an offset names,
what a read after a write gives (R22, R23, R44, R45). -/

namespace Sys2Proof.Laws

open Sys2Proof.Machine

theorem windowOffset_inside (p : Params) {off : Nat} (h : off < 0x30000) :
    windowOffset p (p.base + off) = some off := by
  rw [windowOffset, if_pos ⟨by omega, by omega⟩]; congr 1; omega

theorem windowOffset_some {p : Params} {a off : Nat} (h : windowOffset p a = some off) :
    a = p.base + off ∧ off < 0x30000 := by
  unfold windowOffset at h
  split at h
  · cases h; omega
  · cases h

/-- A host read inside the window. -/
theorem busRead_inside (s : State) {off : Nat} (h : off < 0x30000) :
    s.busRead (s.cfg.base + off) = .next { s with rdata := some (s.readOffset off) } := by
  rw [State.busRead, windowOffset_inside _ h]

/-- A host write inside the window. -/
theorem busWrite_inside (s : State) {off : Nat} (w : Word) (h : off < 0x30000) :
    s.busWrite (s.cfg.base + off) w = s.writeOffset off w := by
  rw [State.busWrite, windowOffset_inside _ h]

theorem step_nil {s : State} (h : s.pending = []) : step s = .next s := by
  simp only [step, State.performNext, h]

theorem step_cons {s : State} {e : BusEvent} {rest : List BusEvent} (h : s.pending = e :: rest) :
    step s = ({ s with pending := rest } : State).perform e := by
  simp only [step, State.performNext, h]

/-- Offsets in one word name the same register (R44). -/
theorem regAt_aligned (p : Params) (off : Nat) : regAt p (off - off % 4) = regAt p off := by
  rw [regAt, regAt]; congr 2; omega

/-- Offsets 0 to 3 name CMD. -/
theorem regAt_cmd (p : Params) {k : Nat} (hk : k < 4) : regAt p k = some .cmd := by
  rw [regAt, show k - k % 4 = 0 by omega]; rfl

theorem singleReg_offset (p : Params) {a : Nat} {r : Reg} (h : singleReg a = some r) :
    r.offset p = a := by
  unfold singleReg at h
  split at h <;> first | (cases h; rfl) | cases h

/-- A named word stands at the word offset that names it, and the parameters give it. -/
theorem regAt_offset {p : Params} {off : Nat} {r : Reg} (h : regAt p off = some r) :
    r.offset p = off - off % 4 ∧ Reg.exists p r = true := by
  unfold regAt at h
  obtain ⟨h1, h2⟩ := Option.filter_eq_some_iff.1 h
  refine ⟨?_, h2⟩
  generalize ha : off - off % 4 = a at h1
  have h4 : a % 4 = 0 := by omega
  have hin := Nat.div_add_mod ((a - 0x10000) / 4) p.blkMax
  have hout := Nat.div_add_mod ((a - 0x20000) / 4) p.blkMax
  rw [mul_comm] at hin hout
  unfold slotReg at h1
  split at h1
  · exact singleReg_offset p h1
  · repeat' split at h1
    all_goals first
      | (cases h1; simp only [Reg.offset, inOffset, outOffset]; omega)
      | cases h1

/-- Which words the host cannot write (R22, R23). -/
def readOnly : Reg → Bool
  | .status | .result => true
  | .vibAFs | .vibANch | .vibCap | .vibCdelay | .vibAmps | .vibPinc | .vibPhase => true
  | .ppmAFs | .ppmANch | .ppmAMode | .ppmAcoef | .ppmRcoef => true
  | .vibWidx _ | .ppmPrev _ | .ppmOut _ => true
  | _ => false

theorem writeReg_readOnly (s : State) (r : Reg) (w : Word) (h : readOnly r = true) :
    s.writeReg r w = s := by
  cases r <;> first | rfl | cases h

@[simp] theorem writeReg_cfg (s : State) (r : Reg) (w : Word) : (s.writeReg r w).cfg = s.cfg := by
  cases r <;> rfl

/-- PPM_CTRL keeps bits 1:0 of what is written (R35). -/
theorem ctrl_bits (w : Word) :
    (BitVec.ofNat 32 (bit (w.getLsbD 0) + 2 * bit (w.getLsbD 1)) : Word) = w &&& 3#32 := by
  apply BitVec.eq_of_toNat_eq
  rw [BitVec.toNat_and, show (3#32).toNat = 2 ^ 2 - 1 from rfl, Nat.and_two_pow_sub_one_eq_mod,
    BitVec.toNat_ofNat]
  have h0 : bit (w.getLsbD 0) = w.toNat % 2 := by
    rw [BitVec.getLsbD, Nat.testBit_zero]; unfold bit; split <;> simp_all
  have h1 : bit (w.getLsbD 1) = w.toNat / 2 % 2 := by
    rw [BitVec.getLsbD, Nat.testBit_succ, Nat.testBit_zero]; unfold bit; split <;> simp_all
  rw [h0, h1]; omega

/-- A writable word read back. -/
theorem readReg_writeReg_same (s : State) (r : Reg) (w : Word) (h : readOnly r = false) :
    (s.writeReg r w).readReg r = if r = .ppmCtrl then w &&& 3#32 else w := by
  cases r
  case ppmCtrl => exact ctrl_bits w
  case inWord => exact readIn_writeIn_same s _ _ w
  case outWord => exact readOut_writeOut_same s _ _ w
  all_goals first | rfl | cases h

/-- Writing a buffer word changes no other word of the window. -/
theorem readReg_setWord_ne (s : State) (hp : s.cfg.legal = true) (o : Nat) (w : Word) (r r' : Reg)
    (hr : r.offset s.cfg = o) (hb : (∃ c n, r = .inWord c n) ∨ ∃ c n, r = .outWord c n)
    (he : Reg.exists s.cfg r = true) (he' : Reg.exists s.cfg r' = true) (hne : r ≠ r') :
    (s.setBuf (Memory.setWord s.buf o w)).readReg r' = s.readReg r' := by
  have key : ∀ b, (b + 4 ≤ o ∨ o + 4 ≤ b) →
      (s.setBuf (Memory.setWord s.buf o w)).bufWord b = s.bufWord b :=
    fun b h => bufWord_setWord_disjoint s o w b h
  subst hr
  cases r' <;> try rfl
  all_goals
    rename_i c' n'
    refine key _ ?_
    rcases hb with ⟨c, n, rfl⟩ | ⟨c, n, rfl⟩
    all_goals
      simp only [Reg.exists, Bool.and_eq_true, decide_eq_true_eq] at he he'
      have h1 := slot_lt hp he.1 he.2
      have h2 := slot_lt hp he'.1 he'.2
      simp only [Reg.offset, inOffset, outOffset, setBuf_cfg]
      try omega
  all_goals
    have : c * s.cfg.blkMax + n ≠ c' * s.cfg.blkMax + n' := fun e =>
      hne (by obtain ⟨rfl, rfl⟩ := slot_inj he.2 he'.2 e; rfl)
    omega

/-- Writing a word changes no other word of the window. -/
theorem readReg_writeReg_ne (s : State) (hp : s.cfg.legal = true) (r r' : Reg) (w : Word)
    (he : Reg.exists s.cfg r = true) (he' : Reg.exists s.cfg r' = true) (hne : r ≠ r') :
    (s.writeReg r w).readReg r' = s.readReg r' := by
  cases r
  case inWord c n => exact readReg_setWord_ne s hp _ w _ r' rfl (.inl ⟨c, n, rfl⟩) he he' hne
  case outWord c n => exact readReg_setWord_ne s hp _ w _ r' rfl (.inr ⟨c, n, rfl⟩) he he' hne
  all_goals cases r' <;> first | rfl | exact absurd rfl hne

end Sys2Proof.Laws
end

