-- ==== Sys2Proof/Laws/DelayLine.lean ====
section
/-! SUPPORT. What writing and reading one delay line does, said once (R66, R67, R70). -/

namespace Sys2Proof.Laws

open Sys2Proof.Machine

/-- The taps after a write: the written word first, then the old taps moved by one. -/
theorem tap_write (C : Nat) (l : Line) (v : Word) (hw : l.widx.toNat < C) (hC : C ≤ 2 ^ 32) (k : Nat)
    (hk : k < C) : (l.write C v).tap C k = if k = 0 then v else l.tap C (k - 1) := by
  unfold Line.tap
  rw [write_cells, write_widx C l v (by omega) hC]
  have hm : (l.widx.toNat + 1) % C = if l.widx.toNat + 1 = C then 0 else l.widx.toNat + 1 := by
    split
    · rename_i h; rw [h]; exact Nat.mod_self C
    · exact Nat.mod_eq_of_lt (by omega)
  rw [tap_index C _ k (Nat.mod_lt _ (by omega)) hk, hm]
  by_cases h0 : k = 0
  · subst h0
    rw [if_pos rfl, if_pos]
    repeat' split
    all_goals omega
  · rw [if_neg h0, tap_index C _ (k - 1) hw (by omega), if_neg]
    · congr 1
      repeat' split
      all_goals omega
    · repeat' split
      all_goals omega

/-- A word never written holds what it held; a line keeps its index below C and its spare cells at +0. -/
theorem write_spare (C : Nat) (l : Line) (v : Word) (hw : l.widx.toNat < C)
    (h : ∀ k, C ≤ k → Cells.word l.cells k = 0) (k : Nat) (hk : C ≤ k) :
    Cells.word (l.write C v).cells k = 0 := by
  rw [write_cells, if_neg (by omega)]; exact h k hk

/-- The whole part of a whole number is that number. -/
theorem floor_ofNat {k : Nat} (hk : k < 2 ^ 24) : F32.floor (F32.ofNat k) = k := by
  obtain ⟨-, hv⟩ := ofNat_exact hk
  have h0 : 0 ≤ F32.val (F32.ofNat k) := by rw [hv]; positivity
  have h1 := val_eq_mag_of_nonneg h0
  rw [hv] at h1
  have : F32.mag (F32.ofNat k) = k * 2 ^ 149 := by exact_mod_cast h1.symm
  rw [F32.floor, this]
  exact Nat.mul_div_cancel _ (by positivity)

/-- A read at a whole-number delay is its tap, unchanged (R70). -/
theorem read_ofNat (C : Nat) (l : Line) {k : Nat} (hk : k < 2 ^ 24) :
    l.read C (F32.ofNat k) = l.tap C k := by
  obtain ⟨hf, hv⟩ := ofNat_exact hk
  have h0 : 0 ≤ F32.val (F32.ofNat k) := by rw [hv]; positivity
  have hz : F32.isZero (F32.fsub (F32.ofNat k) (F32.ofNat k)) = true := by
    have := (val_fraction hf h0).2
    rw [floor_ofNat hk, hv, sub_self] at this
    exact (val_eq_zero _).1 this
  unfold Line.read
  simp only [floor_ofNat hk, feq_posZero, hz, if_true]

end Sys2Proof.Laws
end

