-- ==== Sys2Proof/Laws/Operands.lean ====
section
/-! SUPPORT. What each check of a command's operands says, as a proposition. -/

namespace Sys2Proof.Laws

open Sys2Proof.Machine

theorem rateAndChannelsOk_iff (p : Params) (fs nch : Word) :
    rateAndChannelsOk p fs nch = true ↔
      (F32.isFinite fs = true ∧ F32.fgt fs F32.posZero = true) ∧
      (1 ≤ nch.toNat ∧ nch.toNat ≤ p.nchMax) := by
  simp only [rateAndChannelsOk, Bool.and_eq_true, decide_eq_true_eq, and_assoc]

theorem vibArgsOk_iff (s : State) :
    s.vibArgsOk = true ↔
      ((F32.isFinite s.vib.fs = true ∧ F32.fgt s.vib.fs F32.posZero = true) ∧
        (1 ≤ s.vib.nch.toNat ∧ s.vib.nch.toNat ≤ s.cfg.nchMax)) ∧
      (F32.isFinite s.vib.freq = true ∧ F32.fge s.vib.freq F32.posZero = true ∧
        F32.flt s.vib.freq (F32.fmul s.vib.fs F32.HALF) = true) ∧
      (F32.isFinite s.vib.width = true ∧ F32.fge s.vib.width F32.posZero = true) ∧
      (F32.isFinite s.vib.amp = true ∧ F32.fge s.vib.amp F32.posZero = true ∧
        F32.fle s.vib.amp s.vib.width = true) := by
  simp only [State.vibArgsOk, Bool.and_eq_true, rateAndChannelsOk_iff, and_assoc]

theorem vibFits_iff (s : State) :
    s.vibFits = true ↔
      F32.isFinite (F32.fmul s.vib.width s.vib.fs) = true ∧
      2 * F32.ceil (F32.fmul s.vib.width s.vib.fs) + 2 ≤ s.cfg.capMax := by
  simp only [State.vibFits, Bool.and_eq_true, decide_eq_true_eq]

theorem badFrameCount_eq_false_iff (s : State) :
    s.badFrameCount = false ↔ 0 ≤ s.frames.toInt ∧ s.frames.toInt ≤ s.cfg.blkMax := by
  simp only [State.badFrameCount, Bool.or_eq_false_iff, decide_eq_false_iff_not, not_lt]

/-- A frame count that is not negative is the word itself. -/
theorem numFrames_eq (s : State) (h : 0 ≤ s.frames.toInt) : s.numFrames = s.frames.toNat := by
  have := BitVec.toInt_eq_toNat_of_msb (x := s.frames) (by
    rw [← Bool.not_eq_true, BitVec.msb_eq_toInt]; simpa using h)
  simp only [State.numFrames, State.frameCount]
  omega

theorem validDelay_iff (d : Word) (cap : Nat) :
    validDelay d cap = true ↔
      F32.isNaN d = false ∧ F32.fge d F32.posZero = true ∧
      F32.fle d (F32.ofNat (cap - 1)) = true := by
  simp only [validDelay, Bool.and_eq_true, Bool.not_eq_true', and_assoc]

theorem validTime_iff (p : Nat) (t : Word) :
    validTime p t = true ↔
      F32.isNaN t = false ∧ F32.fge t F32.posZero = true ∧ F32.fle t (timeLimit p) = true := by
  simp only [validTime, Bool.and_eq_true, Bool.not_eq_true', and_assoc]

end Sys2Proof.Laws
end

