-- ==== Sys2Proof/Laws/PerInstr.lean ====
section
/-! SUPPORT. Statements about every command as syntax, one lemma per constructor: the word of a command
fits its row of the opcode table (R58). -/

namespace Sys2Proof.Laws

/-- The mask of a command's row in the opcode table (R58): the bits that must equal the match. -/
def rowMask : Instr → Word
  | .vibInit => 0xFFFFFFFF#32
  | .vibProcess => 0xFFFFFFFF#32
  | .vibReset => 0xFFFFFFFF#32
  | .dlWrite _ => 0xFFFF00FF#32
  | .dlRead _ => 0xFFFF00FF#32
  | .ppmInit => 0xFFFFFFFF#32
  | .ppmProcess => 0xFFFFFFFF#32
  | .ppmReset => 0xFFFFFFFF#32
  | .ppmSetParam _ => 0xFFFF00FF#32
  | .ppmGetParam _ => 0xFFFF00FF#32

/-- The match of a command's row in the opcode table (R58). -/
def rowMatch : Instr → Word
  | .vibInit => 0x00000001#32
  | .vibProcess => 0x00000002#32
  | .vibReset => 0x00000003#32
  | .dlWrite _ => 0x00000004#32
  | .dlRead _ => 0x00000005#32
  | .ppmInit => 0x00000011#32
  | .ppmProcess => 0x00000012#32
  | .ppmReset => 0x00000013#32
  | .ppmSetParam _ => 0x00000014#32
  | .ppmGetParam _ => 0x00000015#32

/-- The word of a well-formed command fits its row of the opcode table. -/
def EncodingFitsRow.Statement (i : Instr) : Prop :=
  i.wellFormed = true → encode i &&& rowMask i = rowMatch i

/-- A selector below 256 leaves the four OPs that take one alone, and stays out of RSV. -/
theorem selector_masked : ∀ k : Fin 256,
    (0x04#32 ||| (BitVec.ofNat 32 k.val <<< 8)) &&& 0xFFFF00FF#32 = 0x04#32 ∧
    (0x05#32 ||| (BitVec.ofNat 32 k.val <<< 8)) &&& 0xFFFF00FF#32 = 0x05#32 ∧
    (0x14#32 ||| (BitVec.ofNat 32 k.val <<< 8)) &&& 0xFFFF00FF#32 = 0x14#32 ∧
    (0x15#32 ||| (BitVec.ofNat 32 k.val <<< 8)) &&& 0xFFFF00FF#32 = 0x15#32 := by decide +kernel

theorem EncodingFitsRow.vibInit : EncodingFitsRow.Statement .vibInit := fun _ => by decide
theorem EncodingFitsRow.vibProcess : EncodingFitsRow.Statement .vibProcess := fun _ => by decide
theorem EncodingFitsRow.vibReset : EncodingFitsRow.Statement .vibReset := fun _ => by decide
theorem EncodingFitsRow.dlWrite (channel : Nat) : EncodingFitsRow.Statement (.dlWrite channel) := by
  intro h
  have := (selector_masked ⟨channel, by have := of_decide_eq_true h; simpa [Instr.sel] using this⟩).1
  simpa only [encode, opCode, Instr.sel, rowMask, rowMatch] using this
theorem EncodingFitsRow.dlRead (channel : Nat) : EncodingFitsRow.Statement (.dlRead channel) := by
  intro h
  have := (selector_masked ⟨channel, by have := of_decide_eq_true h; simpa [Instr.sel] using this⟩).2.1
  simpa only [encode, opCode, Instr.sel, rowMask, rowMatch] using this
theorem EncodingFitsRow.ppmInit : EncodingFitsRow.Statement .ppmInit := fun _ => by decide
theorem EncodingFitsRow.ppmProcess : EncodingFitsRow.Statement .ppmProcess := fun _ => by decide
theorem EncodingFitsRow.ppmReset : EncodingFitsRow.Statement .ppmReset := fun _ => by decide
theorem EncodingFitsRow.ppmSetParam (param : Nat) :
    EncodingFitsRow.Statement (.ppmSetParam param) := by
  intro h
  have := (selector_masked ⟨param, by have := of_decide_eq_true h; simpa [Instr.sel] using this⟩).2.2.1
  simpa only [encode, opCode, Instr.sel, rowMask, rowMatch] using this
theorem EncodingFitsRow.ppmGetParam (param : Nat) :
    EncodingFitsRow.Statement (.ppmGetParam param) := by
  intro h
  have := (selector_masked ⟨param, by have := of_decide_eq_true h; simpa [Instr.sel] using this⟩).2.2.2
  simpa only [encode, opCode, Instr.sel, rowMask, rowMatch] using this

end Sys2Proof.Laws
end

