-- ==== Sys2Proof/Laws/Ppm.lean ====
section
/-! SUPPORT. What the frame loops of PPM_PROCESS do, said once per loop (R103). -/

namespace Sys2Proof.Laws

open Sys2Proof.Machine

/-- One channel's step changes its own slot only. -/
theorem meterStep_prev (m : Meter) (c : Nat) (cur ac rc : Word) (c' : Nat) :
    Cells.word (m.step c cur ac rc).prev c' =
      if c' = c then smooth (Cells.word m.prev c) cur ac rc else Cells.word m.prev c' :=
  word_setWord _ _ _ _

theorem meterStep_peak (m : Meter) (c : Nat) (cur ac rc : Word) (c' : Nat) :
    Cells.word (m.step c cur ac rc).peak c' =
      if c' = c then peakOf (Cells.word m.peak c) (smooth (Cells.word m.prev c) cur ac rc)
      else Cells.word m.peak c' :=
  word_setWord _ _ _ _

theorem meterFrame_succ (s : State) (N n : Nat) (m : Meter) :
    s.meterFrame (N + 1) n m =
      (s.meterFrame N n m).step N (F32.fabs (s.readIn N n)) s.ppm.acoef s.ppm.rcoef := by
  simp [State.meterFrame, List.range_succ]

/-- A frame of the per-channel variant smooths each channel's own sample. -/
theorem meterFrame_prev (s : State) (N n : Nat) (m : Meter) (c : Nat) :
    Cells.word (s.meterFrame N n m).prev c =
      if c < N then
        smooth (Cells.word m.prev c) (F32.fabs (s.readIn c n)) s.ppm.acoef s.ppm.rcoef
      else Cells.word m.prev c := by
  induction N with
  | zero => simp [State.meterFrame]
  | succ N ih =>
    rw [meterFrame_succ, meterStep_prev]
    by_cases h : c = N
    · subst h; rw [if_neg (by omega)] at ih; rw [if_pos rfl, if_pos (by omega), ih]
    · rw [if_neg h, ih]
      by_cases h2 : c < N
      · rw [if_pos h2, if_pos (by omega)]
      · rw [if_neg h2, if_neg (by omega)]

/-- A frame of the per-channel variant takes each channel's smoothed value into its maximum. -/
theorem meterFrame_peak (s : State) (N n : Nat) (m : Meter) (c : Nat) :
    Cells.word (s.meterFrame N n m).peak c =
      if c < N then
        peakOf (Cells.word m.peak c)
          (smooth (Cells.word m.prev c) (F32.fabs (s.readIn c n)) s.ppm.acoef s.ppm.rcoef)
      else Cells.word m.peak c := by
  induction N with
  | zero => simp [State.meterFrame]
  | succ N ih =>
    have hp := meterFrame_prev s N n m c
    rw [meterFrame_succ, meterStep_peak]
    by_cases h : c = N
    · subst h
      rw [if_neg (by omega)] at ih hp
      rw [if_pos rfl, if_pos (by omega), ih, hp]
    · rw [if_neg h, ih]
      by_cases h2 : c < N
      · rw [if_pos h2, if_pos (by omega)]
      · rw [if_neg h2, if_neg (by omega)]

theorem meterRun_succ (s : State) (N nf : Nat) :
    s.meterRun N (nf + 1) =
      if s.ppm.aMode then s.monoFrame N nf (s.meterRun N nf)
      else s.meterFrame N nf (s.meterRun N nf) := by
  simp [State.meterRun, List.range_succ]

/-- What PPM_OUT holds after the channels that emit have emitted. -/
theorem emitAll_word (F : Functions) (s : State) (N : Nat) (m : Meter) (c : Nat) :
    Cells.word (s.emitAll F N m) c =
      if c < s.emitters N then emit F (Cells.word m.peak c) s.ppm.db
      else Cells.word s.ppm.out c := by
  unfold State.emitAll
  generalize s.emitters N = E
  induction E with
  | zero => simp
  | succ E ih =>
    rw [List.range_succ, List.foldl_append]
    simp only [List.foldl_cons, List.foldl_nil, word_setWord]
    by_cases h : c = E
    · subst h; rw [if_pos rfl, if_pos (by omega)]
    · rw [if_neg h, ih]
      by_cases h2 : c < E
      · rw [if_pos h2, if_pos (by omega)]
      · rw [if_neg h2, if_neg (by omega)]

end Sys2Proof.Laws
end

