-- ==== Sys2Proof/Laws/Reference.lean ====
section
/-! SUPPORT. Correct rounding of real numbers exists, so a reference configuration exists (R12, R18). -/

namespace Sys2Proof.Laws

open Sys2Proof.F32

theorem absBits_mod_two (w : Word) : w.getLsbD 0 = decide (absBits w % 2 = 1) := by
  have h := toNat_eq w
  rw [BitVec.getLsbD, Nat.testBit_zero]
  congr 1
  rw [h]
  split
  · simp; omega
  · rfl

/-- Between two finite words of different values, both odd, lies a third. -/
theorem exists_between {v w : Word} (hv : isFinite v = true) (hw : isFinite w = true)
    (bv : absBits v % 2 = 1) (bw : absBits w % 2 = 1) (h : val v < val w) :
    ∃ u, isFinite u = true ∧ val v < val u ∧ val u < val w := by
  rw [isFinite_iff] at hv hw
  have value : ∀ x, val x = if sign x = true then -(magOf (absBits x) : Int) else magOf (absBits x) :=
    fun _ => rfl
  have hpos : ∀ b, b % 2 = 1 → 0 < magOf b := fun b hb => by
    have := magOf_lt (a := 0) (b := b); simp only [magOf_zero] at this; omega
  have pv := hpos _ bv
  have pw := hpos _ bw
  cases sv : sign v <;> cases sw : sign w
  · have hlt : absBits v < absBits w := by
      rw [← magOf_lt]; rw [value v, value w, sv, sw] at h; simpa using h
    have h31 : absBits v + 1 < 2 ^ 31 := by omega
    refine ⟨pack false (absBits v + 1), ?_, ?_, ?_⟩
    · rw [isFinite_iff, absBits_pack _ _ h31]; omega
    · rw [val_pack _ _ h31, value v, sv]
      have : magOf (absBits v) < magOf (absBits v + 1) := magOf_lt.2 (by omega)
      simpa using this
    · rw [val_pack _ _ h31, value w, sw]
      have : magOf (absBits v + 1) < magOf (absBits w) := magOf_lt.2 (by omega)
      simpa using this
  · rw [value v, value w, sv, sw] at h; simp at h; omega
  · refine ⟨posZero, by decide, ?_, ?_⟩
    · rw [val_posZero, value v, sv]; simp; omega
    · rw [val_posZero, value w, sw]; simp; omega
  · have hlt : absBits w < absBits v := by
      rw [← magOf_lt]; rw [value v, value w, sv, sw] at h; simpa using h
    have h31 : absBits w + 1 < 2 ^ 31 := by omega
    refine ⟨pack true (absBits w + 1), ?_, ?_, ?_⟩
    · rw [isFinite_iff, absBits_pack _ _ h31]; omega
    · rw [val_pack _ _ h31, value v, sv]
      have : magOf (absBits w + 1) < magOf (absBits v) := magOf_lt.2 (by omega)
      simpa using this
    · rw [val_pack _ _ h31, value w, sw]
      have : magOf (absBits w) < magOf (absBits w + 1) := magOf_lt.2 (by omega)
      simpa using this

/-- What lies strictly between two equally distant numbers is nearer than they are. -/
theorem nearer_between {r x y u : ℝ} (h : |r - x| = |r - y|) (h1 : x < u) (h2 : u < y) :
    |r - u| < |r - x| := by
  rcases abs_cases (r - x) with ⟨a, _⟩ | ⟨a, _⟩ <;> rcases abs_cases (r - y) with ⟨b, _⟩ | ⟨b, _⟩ <;>
    rcases abs_cases (r - u) with ⟨c, _⟩ | ⟨c, _⟩ <;> linarith

/-- Every real number has a nearest binary32 value. -/
theorem exists_nearest (r : ℝ) : ∃ w, Nearest r w := by
  by_cases hb : (2 : ℝ) ^ 128 - 2 ^ 103 ≤ |r|
  · exact ⟨_, by rw [Nearest, if_pos hb]⟩
  · let A := { v : Word // isFinite v = true }
    have : Finite A := Finite.of_injective (fun v : A => v.1.toFin)
      fun a b h => Subtype.ext (BitVec.toFin_inj.1 h)
    have : Nonempty A := ⟨⟨posZero, by decide⟩⟩
    obtain ⟨⟨w, hw⟩, hmin⟩ := Finite.exists_min
      (fun v : A => toLex (|r * 2 ^ 149 - (val v.1 : ℝ)|, absBits v.1 % 2))
    have near : ∀ v, isFinite v = true → |r * 2 ^ 149 - (val w : ℝ)| ≤ |r * 2 ^ 149 - (val v : ℝ)| :=
      fun v hv => by
        rcases Prod.Lex.le_iff.1 (hmin ⟨v, hv⟩) with h | ⟨h, -⟩
        · exact h.le
        · exact h.le
    have even : ∀ v, isFinite v = true →
        |r * 2 ^ 149 - (val w : ℝ)| = |r * 2 ^ 149 - (val v : ℝ)| → val v ≠ val w →
        w.getLsbD 0 = false := by
      intro v hv he hne
      rw [absBits_mod_two, decide_eq_false_iff_not]
      intro hodd
      have hvodd : absBits v % 2 = 1 := by
        rcases Prod.Lex.le_iff.1 (hmin ⟨v, hv⟩) with h | ⟨-, h⟩
        · exact absurd he h.ne
        · have h' : absBits w % 2 ≤ absBits v % 2 := h
          omega
      rcases lt_or_gt_of_ne hne with h | h
      · obtain ⟨u, hu, h1, h2⟩ := exists_between hv hw hvodd hodd h
        have := nearer_between he.symm (Int.cast_lt (R := ℝ).2 h1) (Int.cast_lt (R := ℝ).2 h2)
        exact absurd (near u hu) (not_le.2 (he.symm ▸ this))
      · obtain ⟨u, hu, h1, h2⟩ := exists_between hw hv hodd hvodd h
        have := nearer_between he (Int.cast_lt (R := ℝ).2 h1) (Int.cast_lt (R := ℝ).2 h2)
        exact absurd (near u hu) (not_le.2 this)
    by_cases hz : isZero w = true
    · have h0 : val w = 0 := (val_eq_zero w).2 hz
      have hz' : ∀ s, val (pack s 0) = 0 ∧ isFinite (pack s 0) = true ∧
          (pack s 0).getLsbD 0 = false ∧ sign (pack s 0) = s := by decide
      obtain ⟨z1, z2, z3, z4⟩ := hz' (decide (r < 0))
      refine ⟨pack (decide (r < 0)) 0, ?_⟩
      rw [Nearest, if_neg hb, z1]
      rw [h0] at near
      exact ⟨z2, near, fun _ _ _ _ => z3, fun _ => by rw [z4, decide_eq_true_eq]⟩
    · refine ⟨w, ?_⟩
      rw [Nearest, if_neg hb]
      exact ⟨hw, near, even, fun h => absurd h hz⟩

/-- There is a reference configuration (R18). -/
theorem exists_reference : ∃ F, Reference F := by
  classical
  choose near hnear using exists_nearest
  let real : Word → ℝ := fun x => (val x : ℝ) / 2 ^ 149
  have den : ∀ x r, Denotes x r → r = real x := fun x r h => by
    have hp : (2 : ℝ) ^ 149 ≠ 0 := by positivity
    exact (eq_div_iff hp).2 h.2
  have fin : ∀ x r, Denotes x r → isFinite x = true := fun _ _ h => h.1
  refine ⟨{
    sin := fun x => if isZero x then x else if isFinite x then near (Real.sin (real x)) else qNaN
    exp := fun x => if isFinite x then near (Real.exp (real x))
      else if x = negInf then posZero else if x = posInf then posInf else qNaN
    ln := fun x => if isZero x then negInf
      else if isNaN x = true ∨ flt x posZero = true then qNaN
      else if isFinite x then near (Real.log (real x)) else posInf
    log10 := fun x => if isZero x then negInf
      else if isNaN x = true ∨ flt x posZero = true then qNaN
      else if isFinite x then near (Real.logb 10 (real x)) else posInf }, ?_⟩
  have positive : ∀ x r, Denotes x r → 0 < r →
      isZero x = false ∧ ¬(isNaN x = true ∨ flt x posZero = true) := by
    intro x r h h0
    have hv : 0 < val x := by
      have hp : (0 : ℝ) < 2 ^ 149 := by positivity
      have := mul_pos h0 hp
      rw [h.2] at this
      exact_mod_cast this
    refine ⟨?_, ?_⟩
    · by_contra hz; rw [Bool.not_eq_false, ← val_eq_zero] at hz; omega
    · rintro (hn | hl)
      · rw [isNaN_of_isFinite h.1] at hn; cases hn
      · rw [flt_iff, val_posZero] at hl; omega
  refine ⟨?_, ?_, ?_, ?_, ?_, ?_, ?_, ?_, ?_, ?_, ?_, ?_⟩
  · intro x r h hz
    simp only [hz, fin x r h, Bool.false_eq_true, if_false, if_true, ← den x r h]
    exact hnear _
  · intro x hz; simp only [hz, if_true]
  · intro x hf
    have hz : isZero x = false := by
      by_contra hz; rw [Bool.not_eq_false] at hz; rw [isFinite_of_isZero hz] at hf; cases hf
    simp only [hz, hf, Bool.false_eq_true, if_false]
  · intro x r h
    simp only [fin x r h, if_true, ← den x r h]
    exact hnear _
  · simp only [show isFinite negInf = false by decide, Bool.false_eq_true, if_false, if_true]
  · simp only [show isFinite posInf = false by decide, Bool.false_eq_true, if_false, if_true,
      show ¬posInf = negInf by decide]
  · intro x hn
    have hf : isFinite x = false := by
      by_contra hf; rw [Bool.not_eq_false] at hf; rw [isNaN_of_isFinite hf] at hn; cases hn
    have h1 : x ≠ negInf := by rintro rfl; revert hn; decide
    have h2 : x ≠ posInf := by rintro rfl; revert hn; decide
    simp only [hf, h1, h2, Bool.false_eq_true, if_false]
  · intro x r h h0
    obtain ⟨hz, hn⟩ := positive x r h h0
    simp only [hz, hn, fin x r h, Bool.false_eq_true, if_false, if_true, ← den x r h]
    exact ⟨hnear _, hnear _⟩
  · intro x hz; simp only [hz, if_true]; exact ⟨trivial, trivial⟩
  · have h : ¬(isNaN posInf = true ∨ flt posInf posZero = true) := by decide +kernel
    simp only [show isZero posInf = false by decide, show isFinite posInf = false by decide, h,
      Bool.false_eq_true, if_false]
  · have h : ¬(isNaN posInf = true ∨ flt posInf posZero = true) := by decide +kernel
    simp only [show isZero posInf = false by decide, show isFinite posInf = false by decide, h,
      Bool.false_eq_true, if_false]
  · intro x h
    have hz : isZero x = false := by
      by_contra hz
      rw [Bool.not_eq_false] at hz
      rcases h with h | h
      · rw [isNaN_of_isZero hz] at h; cases h
      · rw [flt_iff, val_posZero, (val_eq_zero x).2 hz] at h; omega
    simp only [hz, h, Bool.false_eq_true, if_false, if_true]
    exact ⟨trivial, trivial⟩

end Sys2Proof.Laws
end

