-- ==== Sys2Proof/Laws/Vibrato.lean ====
section
/-! SUPPORT. What the frame loops of VIB_PROCESS do, said once per loop (R85). -/

namespace Sys2Proof.Laws

open Sys2Proof.Machine

theorem writeFrame_succ (N n : Nat) (s : State) :
    s.writeFrame (N + 1) n = (s.writeFrame N n).dlWrite N ((s.writeFrame N n).readIn N n) := by
  simp [State.writeFrame, List.range_succ]

theorem readFrame_succ (N n : Nat) (d : Word) (s : State) :
    s.readFrame (N + 1) n d =
      (s.readFrame N n d).writeOut N n ((s.readFrame N n d).dlRead N d) := by
  simp [State.readFrame, List.range_succ]

theorem vibFrames_succ (F : Functions) (N nf : Nat) (s : State) :
    s.vibFrames F N (nf + 1) = (s.vibFrames F N nf).vibFrame F N nf := by
  simp [State.vibFrames, List.range_succ]

/-- The first loop of a frame changes the delay lines only. -/
theorem writeFrame_frame (N n : Nat) (s : State) :
    s.writeFrame N n = { s with vib := { s.vib with lines := (s.writeFrame N n).vib.lines } } := by
  induction N with
  | zero => rfl
  | succ N ih => rw [writeFrame_succ, ih]; rfl

/-- The first loop of a frame writes each channel's input sample into its own line. -/
theorem writeFrame_line (N n : Nat) (s : State) (c : Nat) :
    (s.writeFrame N n).vib.line c =
      if c < N then (s.vib.line c).write s.vib.cap.toNat (s.readIn c n) else s.vib.line c := by
  induction N with
  | zero => simp [State.writeFrame]
  | succ N ih =>
    have hcap : (s.writeFrame N n).vib.cap = s.vib.cap := by rw [writeFrame_frame N n s]
    have hin : (s.writeFrame N n).readIn N n = s.readIn N n := by rw [writeFrame_frame N n s]; rfl
    rw [writeFrame_succ, line_dlWrite, hin]
    by_cases h : c = N
    · subst h; rw [if_pos rfl, if_pos (by omega), ih, if_neg (by omega), hcap]
    · rw [if_neg h, ih]
      by_cases h2 : c < N
      · rw [if_pos h2, if_pos (by omega)]
      · rw [if_neg h2, if_neg (by omega)]

/-- The second loop of a frame changes the sample buffers only. -/
theorem readFrame_frame (N n : Nat) (d : Word) (s : State) :
    s.readFrame N n d = { s with buf := (s.readFrame N n d).buf } := by
  induction N with
  | zero => rfl
  | succ N ih => rw [readFrame_succ, ih]; rfl

theorem readFrame_cfg (N n : Nat) (d : Word) (s : State) : (s.readFrame N n d).cfg = s.cfg := by
  rw [readFrame_frame]

theorem readFrame_dlRead (N n : Nat) (d : Word) (s : State) (c : Nat) (d' : Word) :
    (s.readFrame N n d).dlRead c d' = s.dlRead c d' := by
  rw [readFrame_frame]; rfl

/-- The second loop of a frame writes each channel's line, read at the frame's delay, to OUT. -/
theorem readFrame_readOut (N n : Nat) (d : Word) (s : State) (hn : n < s.cfg.blkMax) (c n' : Nat)
    (hn' : n' < s.cfg.blkMax) :
    (s.readFrame N n d).readOut c n' =
      if c < N ∧ n' = n then s.dlRead c d else s.readOut c n' := by
  induction N with
  | zero => simp [State.readFrame]
  | succ N ih =>
    have hc := readFrame_cfg N n d s
    rw [readFrame_succ]
    by_cases h : c = N ∧ n' = n
    · obtain ⟨rfl, rfl⟩ := h
      rw [readOut_writeOut_same, readFrame_dlRead, if_pos ⟨by omega, rfl⟩]
    · rw [readOut_writeOut_ne _ _ (by rw [hc]; exact hn) (by rw [hc]; exact hn') h, ih]
      by_cases h2 : c < N ∧ n' = n
      · rw [if_pos h2, if_pos ⟨by omega, h2.2⟩]
      · rw [if_neg h2, if_neg (by omega)]

/-- The second loop of a frame changes no byte outside the OUT words it writes. -/
theorem readFrame_bufByte (N n : Nat) (d : Word) (s : State) (a : Nat)
    (h : ¬∃ c j, c < N ∧ j < 4 ∧ a = outOffset s.cfg c n + j) :
    (s.readFrame N n d).bufByte a = s.bufByte a := by
  induction N with
  | zero => simp [State.readFrame]
  | succ N ih =>
    rw [readFrame_succ, State.writeOut, bufByte_setWord_outside]
    · exact ih fun ⟨c, j, hc, hj, ha⟩ => h ⟨c, j, by omega, hj, ha⟩
    · rw [readFrame_cfg]
      by_contra hlt
      exact h ⟨N, a - outOffset s.cfg N n, by omega, by omega, by omega⟩

/-- The second loop of a frame changes no IN word. -/
theorem readFrame_readIn (N n : Nat) (d : Word) (s : State) (hp : s.cfg.legal = true) {c n' : Nat}
    (hc : c < s.cfg.nchMax) (hn : n' < s.cfg.blkMax) :
    (s.readFrame N n d).readIn c n' = s.readIn c n' := by
  induction N with
  | zero => simp [State.readFrame]
  | succ N ih =>
    have h := readFrame_cfg N n d s
    rw [readFrame_succ, readIn_writeOut _ (by rw [h]; exact hp) _ (by rw [h]; exact hc)
      (by rw [h]; exact hn), ih]

/-- A run of frames changes VIB_PHASE, the delay lines and the sample buffers only. -/
theorem vibFrames_frame (F : Functions) (N nf : Nat) (s : State) :
    s.vibFrames F N nf = { s with
      vib := { s.vib with
        phase := (s.vibFrames F N nf).vib.phase, lines := (s.vibFrames F N nf).vib.lines }
      buf := (s.vibFrames F N nf).buf } := by
  induction nf with
  | zero => rfl
  | succ nf ih =>
    rw [vibFrames_succ, State.vibFrame, readFrame_frame, writeFrame_frame, ih]
    rfl

end Sys2Proof.Laws
end

