-- ==== Sys2Proof/Laws/WeightedSum.lean ====
section
/-! SUPPORT. What bounds a rounded weighted sum of finite magnitudes, as the smoothing filter forms it
(R12, R94). -/

namespace Sys2Proof.Laws

open Sys2Proof.F32

/-- A quotient below the midpoint of two neighbouring magnitudes rounds to at most the lower. -/
theorem roundMag_le_of_lt_mid (b num den : Nat) (hd : 0 < den) (hb : b < 0x7F800000)
    (h : 2 * num < (magOf b + magOf (b + 1)) * den) : roundMag num den ≤ b := by
  by_contra hlt
  rw [not_le] at hlt
  have hle := roundMag_le num den
  have hm1 : magOf (b + 1) ≤ magOf (roundMag num den) := magOf_le.2 hlt
  have hm0 : magOf b < magOf (b+1) := magOf_lt.2 (by omega)
  by_cases hfin : num < (2 ^ 25 - 1) * 2 ^ 252 * den
  · obtain ⟨h1, -⟩ := roundMag_nearest num den hd hfin b
    set r := magOf (roundMag num den)
    have a1 : magOf (b+1) * den ≤ r * den := Nat.mul_le_mul_right _ hm1
    rw [add_mul] at h
    have a2 : magOf b * den < magOf (b+1) * den := Nat.mul_lt_mul_of_pos_right hm0 hd
    generalize magOf (b+1) * den = p at *
    generalize magOf b * den = q at *
    generalize r * den = u at *
    rw [abs_of_nonpos (by omega)] at h1
    rcases le_total q num with hq | hq
    · rw [abs_of_nonneg (by omega)] at h1; omega
    · rw [abs_of_nonpos (by omega)] at h1; omega
  · rw [not_lt] at hfin
    have e1 : magOf (b+1) ≤ magOf 0x7F800000 := magOf_le.2 (by omega)
    have e0 : magOf b ≤ magOf 0x7F7FFFFF := magOf_le.2 (by omega)
    rw [magOf_inf] at e1; rw [magOf_max] at e0
    have : (magOf b + magOf (b+1)) * den ≤ (2 * ((2 ^ 25 - 1) * 2 ^ 252)) * den := by
      refine Nat.mul_le_mul_right _ ?_
      norm_num at e0 e1 ⊢; omega
    rw [mul_assoc] at this
    omega

/-- A quotient short of a normal magnitude by 2^-24 of it rounds to less than it. -/
theorem roundMag_lt_of_shy (d num den : Nat) (hden : 0 < den) (hd : d ≤ 0x7F800000)
    (hbig : 2 ^ 24 ≤ magOf d) (h : num * 2 ^ 24 ≤ magOf d * (2 ^ 24 - 1) * den) : roundMag num den < d := by
  have hd0 : d ≠ 0 := by rintro rfl; simp at hbig
  obtain ⟨c, rfl⟩ : ∃ c, d = c + 1 := ⟨d - 1, by omega⟩
  refine Nat.lt_succ_of_le (roundMag_le_of_lt_mid c num den hden (by omega) ?_)
  obtain ⟨e, n, rfl, hn, hs⟩ := exists_step c
  rw [add_assoc, magOf_step e (n+1) (by omega) (by omega)] at *
  rw [magOf_step e n (by omega) hs]
  have hn23 : 2 ^ 23 ≤ n := by
    rcases hs with rfl | hs
    · simp at hbig; omega
    · exact hs
  have hp : 0 < 2 ^ e * den := by positivity
  have h' : num * 2 ^ 24 ≤ (n+1) * (2^24-1) * (2^e*den) := by
    calc _ ≤ _ := h
      _ = _ := by ring
  have : (n * 2 ^ e + (n + 1) * 2 ^ e) * den = (2*n+1) * (2^e*den) := by ring
  rw [this]
  generalize 2^e*den = P at *
  have k : (n+1) * (2^24-1) * P + P * (n+1) = (n+1) * 2^24 * P := by
    have : (2:Nat)^24 = (2^24-1)+1 := by norm_num
    conv_rhs => rw [this]
    ring
  have k2 : P * (2^23+1) ≤ P * (n+1) := Nat.mul_le_mul_left _ (by omega)
  have k3 : (2 * n + 1) * P * 2^24 + P * 2^24 = 2 * ((n+1) * 2^24 * P) := by ring
  have k4 : P * (2^23+1) * 2 = P * 2^24 + 2 * P := by ring
  have : 2 * num * 2 ^ 24 < (2 * n + 1) * P * 2^24 := by
    have : 2 * num * 2^24 = 2 * (num * 2^24) := by ring
    rw [this]; omega
  exact Nat.lt_of_mul_lt_mul_right this

/-- A representable magnitude in [1/2, 1] is a multiple of 2^-24. -/
theorem exists_grid_of_half_le {A : Nat} (a : Nat) (hA : A = magOf a) (h1 : 2 ^ 148 ≤ A)
    (h2 : A ≤ 2 ^ 149) :
    ∃ k, A = k * 2 ^ 125 ∧ 2 ^ 23 ≤ k ∧ k ≤ 2 ^ 24 := by
  obtain ⟨e, n, rfl, hn, hs⟩ := exists_step a
  rw [magOf_step e n (by omega) hs] at hA
  have he : 125 ≤ e := by
    by_contra hlt
    have : 2 ^ e ≤ 2 ^ 124 := Nat.pow_le_pow_right (by decide) (by omega)
    have : n * 2 ^ e < 2 ^ 24 * 2 ^ 124 := lt_of_le_of_lt (Nat.mul_le_mul_left _ this)
      (Nat.mul_lt_mul_of_pos_right hn (by positivity))
    norm_num at this h1; omega
  obtain ⟨f, rfl⟩ : ∃ f, e = f + 125 := ⟨e - 125, by omega⟩
  refine ⟨n * 2 ^ f, by rw [hA, pow_add]; ring, ?_, ?_⟩
  · rw [hA, pow_add, ← mul_assoc] at h1
    have : 2 ^ 23 * 2 ^ 125 ≤ n * 2 ^ f * 2 ^ 125 := by rw [← pow_add]; exact h1
    exact Nat.le_of_mul_le_mul_right this (by positivity)
  · rw [hA, pow_add, ← mul_assoc] at h2
    have : n * 2 ^ f * 2 ^ 125 ≤ 2 ^ 24 * 2 ^ 125 := by rw [← pow_add]; exact h2
    exact Nat.le_of_mul_le_mul_right this (by positivity)

/-- The largest finite magnitude, in units of 2^-149. -/
def maxMag : Nat := (2 ^ 24 - 1) * 2 ^ 253

/-- A finite magnitude times a multiple of 2^-24 in (1/2, 1], rounded. -/
theorem rounded_mul_le_of_grid {k A x : Nat} (hA : A = k * 2 ^ 125) (hk1 : 2 ^ 23 < k) (hk : k ≤ 2 ^ 24)
    (hx : x ≤ maxMag) :
    magOf (roundMag (A * x) (2 ^ 149)) ≤ (k - 1) * 2 ^ 253 := by
  obtain ⟨b, hb, hm⟩ := exists_magOf 253 (k - 1) (by omega) (by omega)
  have hstep : magOf (b + 1) = k * 2 ^ 253 := by
    obtain ⟨e, n, rfl, hn, hs⟩ := exists_step b
    rw [magOf_step e n (by omega) hs] at hm
    have he : e = 253 := by
      have u1 : 2 ^ 276 ≤ n * 2 ^ e := by
        rw [hm]
        calc (2:Nat)^276 = 2^23 * 2^253 := by rw [← pow_add]
          _ ≤ _ := Nat.mul_le_mul_right _ (by omega)
      by_contra hne
      have hlt : e ≤ 252 := by omega
      have : 2 ^ e ≤ 2 ^ 252 := Nat.pow_le_pow_right (by decide) hlt
      have : n * 2 ^ e < 2 ^ 24 * 2 ^ 252 := lt_of_le_of_lt (Nat.mul_le_mul_left _ this)
        (Nat.mul_lt_mul_of_pos_right hn (by positivity))
      norm_num at this u1; omega
    subst he
    have hn' : n = k - 1 := Nat.eq_of_mul_eq_mul_right (by positivity) hm
    rw [add_assoc, magOf_step 253 (n+1) (by omega) (by omega)]
    congr 1; omega
  rw [← hm, magOf_le]
  refine Nat.le_of_lt_succ (roundMag_lt_of_shy (b+1) _ _ (by positivity) (by omega) ?_ ?_)
  · rw [hstep]
    calc 2^24 ≤ 1 * 2^253 := by norm_num
      _ ≤ _ := Nat.mul_le_mul_right _ (by omega)
  · rw [hstep, hA]
    calc k * 2 ^ 125 * x * 2 ^ 24 ≤ k * 2 ^ 125 * maxMag * 2 ^ 24 := by gcongr
      _ = k * 2 ^ 253 * (2^24-1) * 2 ^ 149 := by unfold maxMag; ring

/-- A finite magnitude times at most 1/2, rounded. -/
theorem rounded_mul_le_of_le_half {A x : Nat} (hA : A ≤ 2 ^ 148) (hx : x ≤ maxMag) :
    magOf (roundMag (A * x) (2 ^ 149)) ≤ (2 ^ 24 - 1) * 2 ^ 252 := by
  obtain ⟨b, hb, hm⟩ := exists_magOf 252 (2^24-1) (by norm_num) (by omega)
  rw [← hm, magOf_le]
  refine roundMag_le_of_le (by positivity) hb.le ?_
  rw [hm]
  calc A * x ≤ 2 ^ 148 * maxMag := Nat.mul_le_mul hA hx
    _ ≤ _ := by unfold maxMag; norm_num

/-- Two finite magnitudes weighted by a coefficient a ≤ 1 and by 1 − a, each operation rounded, have a sum
below the threshold of overflow. -/
theorem weighted_sum_lt_overflow (a x y : Nat) (ha : magOf a ≤ 2 ^ 149) (hx : x ≤ maxMag)
    (hy : y ≤ maxMag) :
    magOf (roundMag (magOf a * x) (2 ^ 149)) +
      magOf (roundMag (magOf (roundMag (2 ^ 149 - magOf a) 1) * y) (2 ^ 149)) < (2 ^ 25 - 1) * 2 ^ 252 := by
  have hONE : magOf 0x3F800000 = 2 ^ 149 := by decide +kernel
  have hHALF : magOf 0x3F000000 = 2 ^ 148 := by decide +kernel
  set A := magOf a with hAdef
  set r := roundMag (2 ^ 149 - A) 1 with hr
  rcases Nat.lt_or_ge A (2 ^ 148) with hlt | hge
  · have hB1 : 2 ^ 148 ≤ magOf r := by
      rw [← hHALF, magOf_le]
      exact le_roundMag_of_le (by decide) (by decide) (by rw [hHALF]; omega)
    have hB2 : magOf r ≤ 2 ^ 149 := by
      rw [← hONE, magOf_le]
      exact roundMag_le_of_le (by decide) (by decide) (by rw [hONE]; omega)
    have hB3 : magOf r + A ≤ 2 ^ 149 + 2 ^ 124 := by
      obtain ⟨e, n, h1, h2, h3, h4, h5, h6, -⟩ := roundMag_step (2 ^ 149 - A) 1 (by decide)
      have hr' : r = e * 2 ^ 23 + n := by
        have : r ≤ 0x3F800000 := by rw [← magOf_le, hONE]; exact hB2
        rw [hr, h1] at *; omega
      rw [hr', magOf_step e n h3 h4]
      rw [one_mul] at *
      obtain ⟨q1, q2, -⟩ := roundDiv_bounds (2 ^ 149 - A) (2 ^ e) (by positivity)
      rw [← h2] at q1 q2
      rcases Nat.lt_or_ge e 126 with he | he
      · have : 2 ^ e ≤ 2 ^ 125 := Nat.pow_le_pow_right (by decide) (by omega)
        omega
      · have : 2 ^ 126 ≤ 2 ^ e := Nat.pow_le_pow_right (by decide) he
        rcases h6 with h6 | h6
        · omega
        · have : r ≤ 0x3F800000 := by rw [← magOf_le, hONE]; exact hB2
          rw [hr', ← magOf_le, magOf_step e n h3 h4, hONE] at this
          have : 2^23 * 2^126 ≤ 2^23 * 2^e := by omega
          norm_num at *; omega
    obtain ⟨k, hk, hk1, hk2⟩ := exists_grid_of_half_le r rfl hB1 hB2
    rcases Nat.eq_or_lt_of_le hk1 with h | h
    · have a1 := rounded_mul_le_of_le_half hlt.le hx
      have a2 := rounded_mul_le_of_le_half (A := magOf r) (by rw [hk, ← h]; norm_num) hy
      norm_num at *; omega
    · have a2 := rounded_mul_le_of_grid hk h hk2 hy
      have a1 : magOf (roundMag (A * x) (2 ^ 149)) < (2 * (2^24 - k) + 1) * 2 ^ 252 := by
        obtain ⟨d, hd, hm⟩ := exists_magOf 252 (2 * (2^24 - k) + 1) (by omega) (by omega)
        rw [← hm, magOf_lt]
        refine roundMag_lt_of_shy d _ _ (by positivity) hd.le ?_ ?_
        · rw [hm]
          calc 2^24 ≤ 1 * 2^252 := by norm_num
            _ ≤ _ := Nat.mul_le_mul_right _ (by omega)
        · rw [hm]
          have hA : A ≤ (2 * (2^24 - k) + 1) * 2 ^ 124 := by rw [hk] at hB3; omega
          calc A * x * 2 ^ 24 ≤ (2 * (2^24 - k) + 1) * 2 ^ 124 * maxMag * 2 ^ 24 := by gcongr
            _ = _ := by unfold maxMag; ring
      omega
  · obtain ⟨k, hk, hk1, hk2⟩ := exists_grid_of_half_le a hAdef hge ha
    obtain ⟨b, hb, hm⟩ := exists_magOf 125 (2^24 - k) (by omega) (by omega)
    have hB : magOf r = (2^24 - k) * 2 ^ 125 := by
      have : 2 ^ 149 - A = magOf b := by rw [hm, hk]; omega
      rw [hr, this, roundMag_magOf b hb.le, hm]
    rcases Nat.eq_or_lt_of_le hk1 with h | h
    · have a1 := rounded_mul_le_of_le_half (A := A) (by rw [hk, ← h]; norm_num) hx
      have a2 := rounded_mul_le_of_le_half (A := magOf r) (by rw [hB, ← h]; norm_num) hy
      norm_num at *; omega
    · have a1 := rounded_mul_le_of_grid hk h hk2 hx
      have a2 : magOf (roundMag (magOf r * y) (2 ^ 149)) ≤ (2^24 - k) * 2 ^ 253 := by
        obtain ⟨d, hd, hm'⟩ := exists_magOf 253 (2^24 - k) (by omega) (by omega)
        rw [← hm', magOf_le]
        refine roundMag_le_of_le (by positivity) hd.le ?_
        rw [hm', hB]
        calc (2^24 - k) * 2 ^ 125 * y ≤ (2^24 - k) * 2 ^ 125 * (2^24 * 2^253) := by
              exact Nat.mul_le_mul_left _ (hy.trans (by unfold maxMag; norm_num))
          _ = _ := by ring
      norm_num at *; omega

end Sys2Proof.Laws
end

