-- ==== Sys2Proof/Tests/Slice0.lean ====
section
/-! SUPPORT. Tests of the model's own. Expected values come from the spec's worked examples and from
95_test_vectors.md (named V-…), never from the model. -/

namespace Sys2Proof.Tests

open Sys2Proof.Machine

-- Kernel evaluations one after another: in parallel they would hold a thread each.
set_option Elab.async false

/-! ### Well-formedness: each check refuses an ill-formed term -/

theorem test_wellFormed_refuses_wide_channel : (Instr.dlWrite 256).wellFormed = false := by decide
theorem test_wellFormed_refuses_wide_read_channel : (Instr.dlRead 300).wellFormed = false := by decide
theorem test_wellFormed_refuses_wide_parameter : (Instr.ppmSetParam 256).wellFormed = false := by decide
theorem test_wellFormed_refuses_wide_get_parameter : (Instr.ppmGetParam 999).wellFormed = false := by
  decide
theorem test_wellFormed_keeps_out_of_range_channel : (Instr.dlWrite 255).wellFormed = true := by decide

/-! ### Decoding: one word written out from R58 for every constructor -/

theorem test_decode_vibInit : decode 0b00000000000000000000000000000001#32 = .ok .vibInit := by decide
theorem test_decode_vibProcess :
    decode 0b00000000000000000000000000000010#32 = .ok .vibProcess := by decide
theorem test_decode_vibReset :
    decode 0b00000000000000000000000000000011#32 = .ok .vibReset := by decide
theorem test_decode_dlWrite :
    decode 0b00000000000000000000000100000100#32 = .ok (.dlWrite 1) := by decide
theorem test_decode_dlRead :
    decode 0b00000000000000000000001000000101#32 = .ok (.dlRead 2) := by decide
theorem test_decode_ppmInit :
    decode 0b00000000000000000000000000010001#32 = .ok .ppmInit := by decide
theorem test_decode_ppmProcess :
    decode 0b00000000000000000000000000010010#32 = .ok .ppmProcess := by decide
theorem test_decode_ppmReset :
    decode 0b00000000000000000000000000010011#32 = .ok .ppmReset := by decide
theorem test_decode_ppmSetParam :
    decode 0b00000000000000000000000100010100#32 = .ok (.ppmSetParam 1) := by decide
theorem test_decode_ppmGetParam :
    decode 0b00000000000000001111111100010101#32 = .ok (.ppmGetParam 255) := by decide
/-- V-DEC-1, V-DEC-6, V-DEC-7: the three ways to be illegal. -/
theorem test_decode_illegal :
    decode 0x00000000#32 = .error .reservedOp ∧ decode 0x00010002#32 = .error .reservedBits ∧
    decode 0x00000103#32 = .error .unusedSelector := by decide
theorem test_encode_examples :
    encode (.dlRead 2) = 0x00000205#32 ∧ encode (.ppmSetParam 1) = 0x00000114#32 := by decide
theorem test_decodeTableWord :
    decodeTableWord 32 0x00000904 = some (.dlWrite 9) ∧ decodeTableWord 8 0xFF13 = some .ppmReset ∧
    decodeTableWord 32 0x80000011 = none := by decide

/-! ### Arithmetic (R12 to R16; V-DL-10, V-VP-5) -/

theorem test_fmul_rounds : F32.fmul 0x3F666666#32 0x40400000#32 = 0x402CCCCC#32 := by decide +kernel
theorem test_fadd_ties_to_even :
    F32.fadd (F32.fmul 0x34000000#32 0x40C00000#32) (F32.fmul 0x3F7FFFFE#32 0x40A00000#32) =
      0x40A00000#32 := by decide +kernel
theorem test_fdiv_by_zero :
    F32.fdiv F32.K22 F32.posZero = F32.negInf ∧ F32.fdiv F32.posZero F32.negZero = F32.qNaN := by
  decide +kernel
theorem test_opposite_infinities : F32.fadd F32.posInf F32.negInf = F32.qNaN := by decide +kernel
theorem test_subnormal_kept : F32.fmul 0x00000001#32 F32.ONE = 0x00000001#32 := by decide +kernel

/-! ### The host window (V-BUS) -/

/-- A state whose next access is the one given. -/
def facing (s : State) (e : BusEvent) : State := { s with pending := [e] }

/-- A field of the next state, if there is one. -/
def after {α : Type} (f : State → α) : Result → Option α
  | .next t => some (f t)
  | _ => none

theorem test_reserved_reads_zero :
    after (·.rdata) (step (facing State.reset (.read 0x014))) = some (some 0) := by decide +kernel
theorem test_low_address_bits_ignored :
    after (·.arg) (step (facing State.reset (.write 0x00B 0x3F800000#32))) = some 0x3F800000#32 := by
  decide +kernel
theorem test_ppm_ctrl_keeps_two_bits :
    after (·.ppm.ctrl) (step (facing State.reset (.write 0x068 0xFFFFFFFF#32))) = some 3 := by
  decide +kernel
theorem test_sample_word_stored :
    after (·.readIn 1 3) (step (facing State.reset (.write 0x1200C 0x40490FDB#32))) =
      some 0x40490FDB#32 := by decide +kernel
theorem test_illegal_word_kept_in_cmd :
    after (fun t => (t.cmd, t.status)) (step (State.reset.withFetchWord 32 0xFF)) =
      some (0xFF#32, 4) := by decide +kernel
theorem test_outside_window :
    step (facing State.reset (.read 0x30000)) = .fault (.outsideWindow 0x30000) := rfl
theorem test_reset_keeps_the_host :
    after (fun t => (t.arg, t.draws)) (step (facing { State.reset with arg := 7 } .reset)) =
      some (0, 1) := by decide +kernel
theorem test_notation_examples :
    HostLine.expand Params.default (.cmd (.dlRead 2)) = .write 0x000 0x00000205#32 ∧
    HostLine.expand Params.default (.wrf .arg (.num false 5 1)) = .write 0x008 0x3F000000#32 ∧
    HostLine.expand Params.default (.wr (.inWord 1 0) 9) = .write 0x12000 9 := by decide +kernel

/-! ### Small states -/

/-- Staging of 41_vibrato.md's VIB_INIT example, with the amplitude given. -/
def vibStaged (amp : Word) : State :=
  { State.reset with
    vib := { Vib.reset with
      fs := 0x40800000#32, nch := 1, freq := 0x3F800000#32, width := 0x3F000000#32, amp := amp } }

/-- The initialized vibrato unit of V-VI-1 and VS1 (C = 6, Wn = 2), with two channels. -/
def vibReady (amps : Word) (lines : Cells Line) : State :=
  { State.reset with
    vib := { Vib.reset with
      init := true, aFs := 0x40800000#32, aNch := 2, cap := 6, cdelay := 2, amps := amps,
      pinc := 0x3FC90FDB#32, lines := lines } }

/-- Section L2.3's start: 1.0, then 3.0, written to channel 0. -/
def twoSamples : Cells Line :=
  [(0, { widx := 2, cells := [(0, 0x3F800000#32), (1, 0x40400000#32)] })]

/-- The initialized PPM unit of V-PP-3: both coefficients 1.0. -/
def ppmReady (nch : Word) (mono : Bool) (db : Bool) (buf : Memory) (frames : Word) : State :=
  { State.reset with
    frames := frames
    buf := buf
    ppm := { Ppm.reset with
      init := true, aFs := 0x472C4400#32, aNch := nch, aMode := mono, db := db,
      acoef := F32.ONE, rcoef := F32.ONE } }

/-- IN words laid out from channel 0, frame 0 of a channel on. -/
def inputs (c : Nat) (ws : List Word) : Memory :=
  (List.zip (List.range ws.length) ws).foldl
    (fun m e => Memory.setWord m (inOffset Params.default c e.1) e.2) []

/-- The values of SIN that V-VP-5 uses. -/
def sinTable (x : Word) : Word :=
  if x = 0x3FC90FDB#32 then 0x3F800000#32
  else if x = 0x40490FDB#32 then 0xB3BBBD2E#32
  else if x = 0x4096CBE4#32 then 0xBF800000#32 else 0

/-- The values of EXP that a PPM_INIT at 1 Hz uses (V-PI-4, V-PP-1): EXP(−220) underflows to +0, and
1 − EXP(−2.2/1.5) is 0x3F44F14B. -/
def expTable (x : Word) : Word := if x = 0xBFBBBBBC#32 then 0x3E6C3AD4#32 else 0

def tables : Functions := { sin := sinTable, exp := expTable, ln := fun _ => 0, log10 := fun _ => 0 }

/-! ### One command each (worked examples and V-vectors) -/

/-- R83's example. -/
theorem test_vibInit_example :
    after (fun t => (t.status, t.vib.cdelay, t.vib.cap, t.vib.amps, t.vib.pinc, t.vib.phase))
      (exec .vibInit (vibStaged 0x3E800000#32)) =
      some (0x100, 2, 6, 0x3F800000#32, 0x3FC90FDB#32, 0) := by decide +kernel
/-- V-VI-17: A > W. -/
theorem test_vibInit_rejects_amplitude :
    after (·.status) (exec .vibInit (vibStaged 0x3F19999A#32)) = some 2 := by decide +kernel
/-- V-VP-5, first four frames: the modulated reads, and the wrap of the phase to +0. -/
theorem test_vibProcess_modulated :
    after (fun t => ((List.range 4).map (t.readOut 0), t.vib.phase, (t.vib.line 0).widx))
      (vibProcess tables
        { vibReady F32.ONE [] with
          frames := 4
          buf := inputs 0 [0x3F800000#32, 0x40000000#32, 0x40400000#32, 0x40800000#32]
          vib := { (vibReady F32.ONE []).vib with aNch := 1 } }) =
      some ([0, 0, 0x3F800001#32, 0x40400000#32], 0, 4) := by decide +kernel
/-- V-VP-2: FRAMES = −1. -/
theorem test_vibProcess_rejects_negative_count :
    after (·.status) (exec .vibProcess { vibReady 0 [] with frames := 0xFFFFFFFF#32 }) =
      some 0x102 := by decide +kernel
/-- V-VR-1. -/
theorem test_vibReset_clears :
    after (fun t => (t.status, t.vib.cap, (t.vib.line 0).widx)) (exec .vibReset (vibReady 0 twoSamples)) =
      some (0, 0, 0) := by decide +kernel
/-- V-DL-21: the sixth write wraps the index to 0. -/
theorem test_dlWrite_wraps :
    after (fun t => ((t.vib.line 0).widx, Cells.word (t.vib.line 0).cells 5))
      (exec (.dlWrite 0) { vibReady 0 [(0, { widx := 5, cells := [] })] with arg := 0x3F800000#32 }) =
      some (0, 0x3F800000#32) := by decide +kernel
/-- V-DL-17: no such channel. -/
theorem test_dlWrite_rejects_channel :
    after (·.status) (exec (.dlWrite 9) (vibReady 0 twoSamples)) = some 0x102 := by decide +kernel
/-- V-DL-10: a rounded interpolation. -/
theorem test_dlRead_interpolates :
    after (·.result) (exec (.dlRead 0) { vibReady 0 twoSamples with arg := 0x3DCCCCCD#32 }) =
      some 0x40333332#32 := by decide +kernel
/-- V-DL-11: beyond C − 1. -/
theorem test_dlRead_rejects_delay :
    after (fun t => (t.status, t.result))
      (exec (.dlRead 0) { vibReady 0 twoSamples with arg := 0x40B00000#32 }) = some (0x102, 0) := by
  decide +kernel
/-- V-PI-4. -/
theorem test_ppmInit_coefficients :
    after (fun t => (t.status, t.ppm.acoef, t.ppm.rcoef))
      (ppmInit tables
        { State.reset with ppm := { Ppm.reset with fs := 0x3F800000#32, nch := 1 } }) =
      some (0x200, 0x3F800000#32, 0x3F44F14B#32) := by decide +kernel
/-- V-PI-5: the reset values are no valid configuration. -/
theorem test_ppmInit_rejects_reset_values : after (·.status) (exec .ppmInit State.reset) = some 2 := by
  decide +kernel
/-- R103's example, V-PP-3. -/
theorem test_ppmProcess_per_channel :
    after (fun t => (Cells.word t.ppm.prev 0, Cells.word t.ppm.out 0))
      (exec .ppmProcess (ppmReady 1 false false
        (inputs 0 [0x3F000000#32, 0xBF400000#32, 0x3E800000#32, 0x3F800000#32]) 4)) =
      some (0x3F800000#32, 0x3F800000#32) := by decide +kernel
/-- V-PP-10, mono: the channel sums are 1.0, then 0.5; only slot 0 is written. -/
theorem test_ppmProcess_mono :
    after (fun t => (Cells.word t.ppm.prev 0, Cells.word t.ppm.out 0, Cells.word t.ppm.out 1))
      (exec .ppmProcess { ppmReady 2 true false
        (inputs 0 [0x3F800000#32, 0] ++ inputs 1 [0, 0x3F000000#32]) 2 with
        ppm := { (ppmReady 2 true false [] 2).ppm with rcoef := 0x3F44F14B#32 } }) =
      some (0x3E6C3AD4#32, 0x3F800000#32, 0) := by decide +kernel
/-- V-PR-1. -/
theorem test_ppmReset_clears :
    after (fun t => (t.status, t.ppm.acoef, t.ppm.aNch)) (exec .ppmReset (ppmReady 1 false false [] 0)) =
      some (0, 0, 0) := by decide +kernel
/-- V-SP-2: −0 sets the release coefficient to 1.0. -/
theorem test_ppmSetParam_zero :
    after (fun t => (t.status, t.ppm.rcoef))
      (exec (.ppmSetParam 1)
        { ppmReady 1 false false [] 0 with
          arg := 0x80000000#32, ppm := { (ppmReady 1 false false [] 0).ppm with rcoef := 0 } }) =
      some (0x200, 0x3F800000#32) := by decide +kernel
/-- V-RANGE, step 1: just above 0.02. -/
theorem test_ppmSetParam_rejects_time :
    after (fun t => (t.status, t.ppm.acoef))
      (exec (.ppmSetParam 0) { ppmReady 1 false false [] 0 with arg := 0x3CA3D70B#32 }) =
      some (0x202, 0x3F800000#32) := by decide +kernel
/-- V-GP-3: a coefficient of 1.0 reads back as +0. -/
theorem test_ppmGetParam_one :
    after (fun t => (t.status, t.result))
      (exec (.ppmGetParam 0) { ppmReady 1 false false [] 0 with result := 5 }) = some (0x200, 0) := by
  decide +kernel
/-- V-GP-4: no such parameter. -/
theorem test_ppmGetParam_rejects_parameter :
    after (fun t => (t.status, t.result))
      (exec (.ppmGetParam 2) { ppmReady 1 false false [] 0 with result := 5 }) = some (0x202, 5) := by
  decide +kernel

/-! ### Witnesses: states and operands that meet the hypotheses of each statement -/

open Sys2Proof.Spec

/-- A state whose next access writes a word to CMD. -/
def issuing (s : State) (w : Word) : State := facing s (.write s.cfg.base w)

theorem issues_issuing (s : State) (w : Word) : Issues (issuing s w) w [] := ⟨0, by decide, rfl⟩

/-- Every sound state's two units, for the states built above. -/
theorem reset_vibOk : State.reset.VibOk := ⟨fun h => absurd h (by decide), fun _ => rfl⟩
theorem reset_ppmOk : State.reset.PpmOk := ⟨fun h => absurd h (by decide), fun _ => rfl⟩

/-- An initialized vibrato unit with the fields of `vibReady`, sound for these amplitudes, increments
and lines: all of them below are. -/
def vibSound (amps pinc : Word) (lines : Cells Line) (frames : Word) (buf : Memory) : State :=
  { vibReady amps lines with
    frames := frames, buf := buf, vib := { (vibReady amps lines).vib with pinc := pinc } }

theorem read_twoSamples (c : Nat) :
    Cells.read Line.empty twoSamples c =
      if c = 0 then { widx := 2, cells := [(0, 0x3F800000#32), (1, 0x40400000#32)] }
      else Line.empty := by
  unfold twoSamples Cells.read Cells.lookup
  split <;> rfl

theorem vibSound_empty_inv (amps pinc frames : Word) (buf : Memory)
    (h : F32.fle F32.posZero amps = true ∧ F32.fle amps (F32.ofNat 2) = true)
    (k : F32.fle F32.posZero pinc = true ∧ F32.fle pinc 0x40490FDB#32 = true)
    (hb : (vibSound amps pinc [] frames buf).arraysOk = true) :
    (vibSound amps pinc [] frames buf).Inv :=
  ⟨(by decide : Params.default.legal = true), hb,
    ⟨fun _ => ⟨(by decide +kernel : F32.isFinite 0x40800000#32 = true ∧
        F32.fgt 0x40800000#32 F32.posZero = true),
      (by decide : 1 ≤ 2 ∧ 2 ≤ 8), rfl, (by decide : 6 ≤ 16384), h, k,
      (by decide +kernel : F32.fle F32.posZero 0 = true ∧ F32.flt 0 F32.TWO_PI = true), fun _ => rfl,
      fun _ => (by decide : 0 < 6), fun _ _ _ => rfl, fun _ _ => rfl⟩,
      fun h => nomatch (show true = false from h)⟩,
    reset_ppmOk⟩

/-- The state in which V-DL's two samples stand in channel 0 is sound. -/
theorem vibSound_twoSamples_inv : (vibSound F32.ONE 0x3FC90FDB#32 twoSamples 2 []).Inv :=
  ⟨by decide, by decide +kernel,
    ⟨fun _ => ⟨by decide +kernel, by decide, rfl, by decide, by decide +kernel, by decide +kernel,
      by decide +kernel, fun h => absurd h (by decide), fun c => by
        show (Cells.read Line.empty twoSamples c).widx.toNat < 6
        rw [read_twoSamples]; split <;> decide, fun c k hk => by
        show Cells.word (Cells.read Line.empty twoSamples c).cells k = 0
        rw [read_twoSamples]
        have hk : 6 ≤ k := hk
        split
        · unfold Cells.word Cells.read Cells.lookup
          rw [if_neg (by omega)]
          unfold Cells.lookup
          rw [if_neg (by omega)]
          rfl
        · rfl, fun c hc => by
        show Cells.read Line.empty twoSamples c = Line.empty
        have hc : 2 ≤ c := hc
        rw [read_twoSamples, if_neg (by omega)]⟩,
      fun h => absurd h (by decide)⟩,
    reset_ppmOk⟩

theorem witness_DecodeEncodeAgree :
    (Instr.ppmGetParam 255).wellFormed = true ∧ Instr.vibInit.wellFormed = true := by decide
theorem witness_DecodedWordsAreEncodings : decode 0x0000FF04#32 = .ok (.dlWrite 255) := by decide
theorem witness_IllegalWordsOnlyRaise :
    (∀ w, Issues (issuing State.reset w) w []) ∧
    IllegalWord 0x00000006#32 ∧ IllegalWord 0x00010002#32 ∧ IllegalWord 0x00000103#32 ∧
    IllegalWord 0x00000000#32 ∧ ¬IllegalWord 0x0000FF04#32 ∧ ¬IllegalWord 0x00000013#32 :=
  ⟨issues_issuing State.reset, by unfold IllegalWord; decide, by unfold IllegalWord; decide,
    by unfold IllegalWord; decide, by unfold IllegalWord; decide, by unfold IllegalWord; decide,
    by unfold IllegalWord; decide⟩
theorem witness_StepRunsTheDecodedCommand :
    Issues (issuing (vibReady 0 twoSamples) 0x00000104#32) 0x00000104#32 [] ∧
    decode 0x00000104#32 = .ok (.dlWrite 1) ∧ decodeTableWord 32 0x00000104 = some (.dlWrite 1) :=
  ⟨issues_issuing _ _, by decide, by decide⟩
theorem witness_CmdHoldsTheLastWordWritten :
    Issues (facing State.reset (.write 0x003 0x000000FF#32)) 0x000000FF#32 [] ∧
    (facing State.reset (.read 0x003)).pending = [.read (State.reset.cfg.base + 3)] ∧
    (∃ t, exec .vibReset State.reset = .next t) ∧
    (∃ t, step (facing State.reset (.write 0x004 7)) = .next t) ∧
    (∃ t, step (facing State.reset .reset) = .next t) :=
  ⟨⟨3, by decide, rfl⟩, rfl, ⟨_, rfl⟩, ⟨_, rfl⟩, ⟨_, rfl⟩⟩
theorem witness_HostAccessesHaveOneEffect :
    State.reset.cfg.legal = true ∧
    (facing State.reset (.write 0x2FFFF 7)).pending = [.write (State.reset.cfg.base + 0x2FFFF) 7] ∧
    (∀ off ∈ [0x008, 0x068, 0x1FFFF, 0x2FFFF],
      ¬ReservedOffset Params.default off ∧ ¬ReadOnlyOffset Params.default off) ∧
    (∀ off ∈ [0x004, 0x11F], ReadOnlyOffset Params.default off) ∧
    ∀ off ∈ [0x120, 0x0FFFF], ReservedOffset Params.default off :=
  ⟨by decide, rfl, by unfold ReservedOffset ReadOnlyOffset; decide, by unfold ReadOnlyOffset; decide,
    by unfold ReservedOffset; decide⟩
theorem witness_ReservedAndReadOnlyWords :
    (facing State.reset (.write 0x014 7)).pending = [.write (State.reset.cfg.base + 0x014) 7] ∧
    (facing State.reset (.read 0x014)).pending = [.read (State.reset.cfg.base + 0x014)] ∧
    (∀ off ∈ [0x014, 0x01F, 0x084, 0x120, 0x1C0, 0x0FFFF], ReservedOffset Params.default off) ∧
    ∀ off ∈ [0x004, 0x00C, 0x083, 0x100, 0x19F], ReadOnlyOffset Params.default off :=
  ⟨rfl, rfl, by unfold ReservedOffset; decide, by unfold ReadOnlyOffset; decide⟩
theorem witness_ByteLanesAreLittleEndian : 3 < 4 := by decide
theorem witness_RegisterMapRoundTrip :
    Params.default.legal = true ∧ Reg.exists Params.default (.outWord 7 2047) = true ∧
    Reg.exists Params.default (.vibWidx 7) = true ∧
    Reg.exists Params.default (.vibWidx 8) = false := by decide
theorem witness_OnlyAccessesOutsideTheWindowStop :
    State.reset.pending = [] ∧ (facing State.reset .reset).pending = [.reset] ∧
    (facing State.reset (.read 0x2FFFF)).pending = [.read 0x2FFFF] ∧
    (facing State.reset (.write 0x30000 0)).pending = [.write 0x30000 0] :=
  ⟨rfl, rfl, rfl, rfl⟩
theorem witness_FailingCommandsLeaveNoPartialResult :
    after (·.err) (exec .vibInit State.reset) = some .invalidArgs ∧
    after (·.err) (exec .ppmProcess State.reset) = some .notInitialized := by decide +kernel
theorem witness_FirstErrorIsReported :
    Issues (issuing (vibReady 0 []) 0x00000004#32) 0x00000004#32 [] ∧
    (Instr.dlWrite 0).wellFormed = true ∧ encode (.dlWrite 0) = 0x00000004#32 ∧
    IllegalWord 0x00000100#32 :=
  ⟨issues_issuing _ _, by decide, by decide, by unfold IllegalWord; decide⟩
theorem witness_StatusFieldsAndTheirWriters :
    Issues (issuing State.reset 0x000000FF#32) 0x000000FF#32 [] ∧
    (∃ t, exec (.dlWrite 1) (vibReady 0 []) = .next t) ∧
    (∃ t, step (facing State.reset (.write 0x004 7)) = .next t) :=
  ⟨issues_issuing _ _, ⟨_, rfl⟩, ⟨_, rfl⟩⟩
theorem witness_CommandsLeaveTheHostsRegisters : ∃ t, exec (.dlWrite 1) (vibReady 0 []) = .next t :=
  ⟨_, rfl⟩
theorem witness_ResultIsWrittenOnlyBySuccess :
    after (·.err) (exec (.ppmGetParam 1) (ppmReady 1 false false [] 0)) = some .noError ∧
    after (·.err) (exec (.ppmGetParam 2) (ppmReady 1 false false [] 0)) = some .invalidArgs ∧
    (∃ t, step (facing State.reset (.write 0x00C 7)) = .next t) :=
  ⟨by decide +kernel, by decide +kernel, ⟨_, rfl⟩⟩
theorem witness_FailedInitLeavesTheUnitUnusable :
    after (·.err) (exec .vibInit { vibReady 0 twoSamples with arg := 1 }) = some .invalidArgs ∧
    after (·.err) (exec .ppmInit (ppmReady 1 false false [] 0)) = some .invalidArgs ∧
    (State.reset.vib.init = false ∧ State.reset.ppm.init = false) ∧
    after (·.vib.init) (step (issuing (vibStaged 0x3E800000#32) 0x00000001#32)) = some true ∧
    after (·.ppm.init) (step (issuing
      { State.reset with ppm := { Ppm.reset with fs := 0x3F800000#32, nch := 1 } } 0x00000011#32)) =
      some true := by decide +kernel
theorem witness_DlWriteStoresAndAdvances :
    (vibReady 0 twoSamples).vib.init = true ∧ 1 < (vibReady 0 twoSamples).vib.aNch.toNat ∧
    0 < (vibReady 0 twoSamples).vib.cap.toNat := by decide
theorem witness_DelayValidityIsExact :
    (1 ≤ 2 ^ 24 ∧ F32.isInf F32.posInf = true ∧ F32.isZero F32.negZero = true) ∧
    (vibReady 0 twoSamples).vib.init = true ∧ 1 < (vibReady 0 twoSamples).vib.aNch.toNat ∧
    (DelayOk 0x40A00000#32 6 ∧ ¬DelayOk 0x40A00001#32 6) ∧
    ¬DelayOk ({ vibReady 0 twoSamples with arg := 0x40A00001#32 } : State).arg
      (vibReady 0 twoSamples).vib.cap.toNat := by decide +kernel
theorem witness_DlReadInterpolates :
    (vibReady 0 twoSamples).vib.init = true ∧ 1 < (vibReady 0 twoSamples).vib.aNch.toNat ∧
    (1 ≤ (vibReady 0 twoSamples).vib.cap.toNat ∧ (vibReady 0 twoSamples).vib.cap.toNat ≤ 2 ^ 24) ∧
    (DelayOk 0x40A00000#32 (vibReady 0 twoSamples).vib.cap.toNat ∧
      DelayOk 0x3DCCCCCD#32 (vibReady 0 twoSamples).vib.cap.toNat) := by decide +kernel
theorem witness_DelayLineLaws :
    (1 ≤ (vibReady 0 twoSamples).vib.cap.toNat ∧ (vibReady 0 twoSamples).vib.cap.toNat ≤ 2 ^ 24) ∧
    (((vibReady 0 twoSamples).vib.line 0).widx.toNat < (vibReady 0 twoSamples).vib.cap.toNat ∧
      (vibReady 0 twoSamples).vib.line 1 = Line.empty) ∧
    ([1, 2, 3, 4, 5, 6] : List Word).length = (vibReady 0 twoSamples).vib.cap.toNat ∧
    after (·.err) (exec (.dlRead 1) (vibReady 0 twoSamples)) = some .noError := by decide +kernel
theorem witness_VibInitLatchesTheParameters :
    VibArgs (vibStaged 0x3E800000#32) ∧ VibFits (vibStaged 0x3E800000#32) := by decide +kernel
theorem witness_AmplitudeIsAtMostTheCenterDelay :
    (vibStaged 0x3F000000#32).cfg.legal = true ∧ VibArgs (vibStaged 0x3F000000#32) ∧
    VibFits (vibStaged 0x3F000000#32) ∧
    after (·.err) (exec .vibInit (vibStaged 0x3F000000#32)) = some .noError := by decide +kernel
theorem witness_PhaseIncrementIsAtMostHalfATurn :
    (VibArgs (vibStaged 0) ∧ VibFits (vibStaged 0) ∧
      after (·.err) (exec .vibInit (vibStaged 0)) = some .noError) ∧
    (F32.isFinite 0x40800000#32 = true ∧ F32.fgt 0x40800000#32 F32.posZero = true) ∧
    (F32.isFinite 0x3FFFFFFF#32 = true ∧ F32.fge 0x3FFFFFFF#32 F32.posZero = true ∧
      F32.flt 0x3FFFFFFF#32 (F32.fmul 0x40800000#32 F32.HALF) = true) := by decide +kernel
theorem witness_PhaseStaysWithinOneTurn :
    (F32.fle F32.posZero 0x40C90FDA#32 = true ∧ F32.flt 0x40C90FDA#32 F32.TWO_PI = true) ∧
    (F32.fle F32.posZero 0x40490FDB#32 = true ∧
      F32.fle 0x40490FDB#32 (F32.fmul F32.TWO_PI F32.HALF) = true) ∧
    F32.fge (F32.fadd 0x40C90FDA#32 0x40490FDB#32) F32.TWO_PI = true ∧
    F32.fge (F32.fadd 0x3F800000#32 0x40490FDB#32) F32.TWO_PI = false := by decide +kernel
theorem sinTable_legal : F32.LegalSin sinTable := by
  refine ⟨by decide, fun x _ => ?_⟩
  unfold sinTable
  repeat' split
  all_goals decide +kernel
theorem witness_ModulatedDelayIsAlwaysValid :
    F32.LegalSin sinTable ∧ (vibSound F32.ONE 0x3FC90FDB#32 twoSamples 2 []).Inv ∧
    (vibSound F32.ONE 0x3FC90FDB#32 twoSamples 2 []).vib.init = true :=
  ⟨sinTable_legal, vibSound_twoSamples_inv, rfl⟩
theorem witness_VibProcessRunsEachChannel :
    let s := vibSound F32.ONE 0x3FC90FDB#32 twoSamples 2048 []
    s.cfg.legal = true ∧ s.vib.init = true ∧ s.vib.aNch.toNat ≤ s.cfg.nchMax ∧ FramesOk s := by
  decide +kernel
/-- Two one-frame blocks of one channel: the sample of the second stands at the start of IN. -/
theorem witness_BlocksJoinWithoutASeam :
    ∃ s s1 s2 t1 : State,
      (s.cfg.legal = true ∧ s.vib.init = true ∧ s.vib.aNch.toNat ≤ s.cfg.nchMax ∧
        1 + 1 ≤ s.cfg.blkMax ∧ s.frames = BitVec.ofNat 32 (1 + 1)) ∧
      s1 = { s with frames := BitVec.ofNat 32 1 } ∧ exec .vibProcess s1 = .next t1 ∧
      s2.cfg = s.cfg ∧ s2.vib = t1.vib ∧ s2.frames = BitVec.ofNat 32 1 ∧
      ∀ c n, c < s.vib.aNch.toNat → n < 1 → s2.readIn c n = s.readIn c (1 + n) := by
  let s : State :=
    { vibSound F32.ONE 0x3FC90FDB#32 twoSamples 2 (inputs 0 [0x3F800000#32, 0x40000000#32]) with
      vib := { (vibReady F32.ONE twoSamples).vib with aNch := 1 } }
  refine ⟨s, _, { s with frames := 1, buf := inputs 0 [0x40000000#32], vib := _ }, _,
    by decide +kernel, rfl, rfl, rfl, rfl, rfl, fun c n hc hn => ?_⟩
  have hc : c < 1 := hc
  obtain rfl : c = 0 := by omega
  obtain rfl : n = 0 := by omega
  decide +kernel
theorem witness_UnmodulatedVibratoIsAFixedDelay :
    (∃ s : State, s.Inv ∧ s.vib.init = true ∧ FramesOk s ∧ F32.isZero s.vib.amps = true ∧
      s.vib.line 1 = Line.empty) ∧
    ∃ s : State, s.Inv ∧ s.vib.init = true ∧ FramesOk s ∧ F32.isZero s.vib.pinc = true :=
  ⟨⟨vibSound 0 0x3FC90FDB#32 [] 4 [],
      vibSound_empty_inv _ _ _ _ (by decide +kernel) (by decide +kernel) (by decide), by decide⟩,
    ⟨vibSound F32.ONE 0 [] 4 [],
      vibSound_empty_inv _ _ _ _ (by decide +kernel) (by decide +kernel) (by decide), by decide⟩⟩
theorem witness_ZeroInputGivesZeroOutput :
    ∃ s t : State, s.Inv ∧ s.vib.init = true ∧ FramesOk s ∧ 0 < s.vib.aNch.toNat ∧
      (∀ k, F32.isZero (Cells.word (s.vib.line 0).cells k) = true) ∧
      (∀ n < s.frames.toNat, F32.isZero (s.readIn 0 n) = true) ∧ exec .vibProcess s = .next t :=
  ⟨vibSound F32.ONE 0x3FC90FDB#32 [] 2 (inputs 0 [0, F32.negZero]), _,
    vibSound_empty_inv _ _ _ _ (by decide +kernel) (by decide +kernel) (by decide +kernel), rfl,
    by decide, by decide, fun _ => rfl, by decide +kernel, rfl⟩
theorem witness_PpmInitLatchesTheParameters :
    PpmArgs { State.reset with ppm := { Ppm.reset with fs := 0x472C4400#32, nch := 8 } } := by
  decide +kernel
theorem witness_SetParamStoresTheCoefficient :
    (ppmReady 1 false false [] 0).ppm.init = true ∧ (TimeOk 0 0x3CA3D70A#32 ∧ ¬TimeOk 0 0x3CA3D70B#32) ∧
    (TimeOk 1 0x40000000#32 ∧ TimeOk 1 0x80000000#32) := by decide +kernel
theorem witness_GetParamReconstructsTheTime :
    (ppmReady 1 false false [] 0).ppm.init = true ∧ 0 < 2 ∧ 1 < 2 := by decide
/-- A legal EXP. -/
def expFlat (x : Word) : Word :=
  if F32.isNaN x then F32.qNaN else if F32.isZero x then F32.ONE else 0
theorem expFlat_legal : F32.LegalExp expFlat := by
  refine ⟨by decide, by decide, by decide, fun x hx => ?_, fun x hx => ?_⟩
  · have hn : F32.isNaN x = false := by
      simp only [F32.fle, Bool.and_eq_true, Bool.not_eq_true'] at hx; exact hx.1.1
    unfold expFlat
    rw [hn]
    simp only [Bool.false_eq_true, if_false]
    split <;> decide +kernel
  · unfold expFlat; rw [if_pos hx]; decide
theorem witness_CoefficientsLieBetweenZeroAndOne :
    F32.LegalExp expFlat ∧ (F32.isFinite 0x472C4400#32 = true ∧
      F32.fgt 0x472C4400#32 F32.posZero = true) ∧ TimeOk 0 0x3CA3D70A#32 ∧ TimeOk 1 0x80000000#32 ∧
    F32.isZero 0x80000000#32 = true :=
  ⟨expFlat_legal, by decide +kernel⟩
/-- A legal LN. -/
def lnFlat (x : Word) : Word :=
  if F32.isZero x then F32.negInf else if x = F32.ONE then 0 else F32.neg F32.ONE
theorem lnFlat_legal : F32.LegalLn lnFlat := by
  refine ⟨by decide, by decide, by decide, fun x h0 h1 => ?_⟩
  have hz : F32.isZero x = false := by
    by_contra hz
    rw [Bool.not_eq_false] at hz
    rw [Sys2Proof.Laws.flt_iff, Sys2Proof.Laws.val_posZero,
      (Sys2Proof.Laws.val_eq_zero x).2 hz] at h0
    omega
  have h1' : x ≠ F32.ONE := by
    rintro rfl
    rw [Sys2Proof.Laws.flt_iff] at h1
    omega
  unfold lnFlat
  rw [hz, if_neg (by decide), if_neg h1']
  decide +kernel
theorem witness_ReconstructedTimeAtTheBounds :
    F32.LegalLn lnFlat ∧ F32.isFinite 0x472C4400#32 = true ∧
    F32.fgt 0x472C4400#32 F32.posZero = true :=
  ⟨lnFlat_legal, by decide, by decide +kernel⟩
theorem witness_PpmProcessEmitsTheBlockMaximum :
    ((ppmReady 2 false true [] 2048).ppm.init = true ∧ FramesOk (ppmReady 2 false true [] 2048) ∧
      Tracked (ppmReady 2 false true [] 2048) 1 ∧ ¬Tracked (ppmReady 2 false true [] 2048) 2) ∧
    Tracked (ppmReady 2 true false [] 0) 0 ∧ ¬Tracked (ppmReady 2 true false [] 0) 1 := by
  unfold Tracked; decide +kernel
theorem witness_ZeroTimesActAtOnce :
    (F32.LegalExp expFlat ∧ F32.isZero 0x80000000#32 = true) ∧
    (F32.isFinite 0x40000000#32 = true ∧ F32.fgt 0x40000000#32 (F32.fabs 0xBF800000#32) = true) ∧
    F32.isFinite 0xBF800000#32 = true ∧ F32.fgt 0x3F800000#32 (F32.fabs 0xBF800000#32) = false :=
  ⟨⟨expFlat_legal, by decide⟩, by decide +kernel⟩
theorem witness_SmoothingNeverMakesANaN :
    F32.fge F32.posInf F32.posZero = true ∧ F32.fge F32.ONE F32.posZero = true ∧
    F32.fle F32.ONE F32.ONE = true ∧ F32.isFinite F32.posZero = true := by decide +kernel
/-- A PPM unit whose channel 0 holds a NaN, about to process a frame. -/
def nanMeter : State :=
  { ppmReady 1 false false (inputs 0 [0x3F800000#32]) 1 with
    ppm := { (ppmReady 1 false false [] 1).ppm with prev := [(0, F32.qNaN)] } }
theorem witness_NaNStaysUntilTheUnitIsCleared :
    ((∃ t, step (issuing nanMeter 0x00000012#32) = .next t) ∧
      F32.isNaN (Cells.word (issuing nanMeter 0x00000012#32).ppm.prev 0) = true ∧
      (∀ rest, (issuing nanMeter 0x00000012#32).pending ≠ .reset :: rest) ∧
      ∀ w rest, Issues (issuing nanMeter 0x00000012#32) w rest →
        decode w ≠ .ok .ppmInit ∧ decode w ≠ .ok .ppmReset) ∧
    (nanMeter.ppm.init = true ∧ FramesOk nanMeter ∧ nanMeter.ppm.db = false ∧ Tracked nanMeter 0 ∧
      ∃ t, exec .ppmProcess nanMeter = .next t) ∧
    (F32.isInf F32.negInf = true ∧ F32.isFinite F32.negZero = true ∧
      F32.flt F32.posZero 0x00000001#32 = true ∧ F32.fle 0x00000001#32 F32.ONE = true) := by
  refine ⟨⟨⟨_, rfl⟩, by decide, fun rest h => (nomatch h), fun w rest h => ?_⟩,
    ⟨rfl, by decide, rfl, by unfold Tracked; decide, ⟨_, rfl⟩⟩, by decide +kernel⟩
  obtain ⟨k, -, h⟩ := h
  have hw : 0x00000012#32 = w := (BusEvent.write.inj (List.cons.inj h).1).2
  subst hw
  decide
/-- An initialized PPM unit is sound. -/
theorem ppmReady_inv (nch : Word) (mono db : Bool) (buf : Memory) (frames : Word)
    (h : 1 ≤ nch.toNat ∧ nch.toNat ≤ 8) (hb : (ppmReady nch mono db buf frames).arraysOk = true) :
    (ppmReady nch mono db buf frames).Inv :=
  ⟨(by decide : Params.default.legal = true), hb, reset_vibOk,
    ⟨fun _ => ⟨(by decide +kernel : F32.isFinite 0x472C4400#32 = true ∧
        F32.fgt 0x472C4400#32 F32.posZero = true), h,
      (by decide +kernel : F32.fle F32.posZero F32.ONE = true ∧ F32.fle F32.ONE F32.ONE = true),
      (by decide +kernel : F32.fle F32.posZero F32.ONE = true ∧ F32.fle F32.ONE F32.ONE = true)⟩,
      fun h => nomatch (show true = false from h)⟩⟩
/-- A PPM unit whose channel 0 holds the largest finite value, about to meter that value. -/
def loudMeter : State :=
  issuing { ppmReady 1 false false (inputs 0 [0x7F7FFFFF#32]) 1 with
    ppm := { (ppmReady 1 false false [] 1).ppm with prev := [(0, 0x7F7FFFFF#32)] } } 0x00000012#32
/-- A mono PPM unit with PPM_PREV[0] at +∞ and coefficients 0.5, about to meter two finite words whose
sum overflows. -/
def overflowMeter : State :=
  issuing { ppmReady 2 true false (inputs 0 [0x7F7FFFFF#32] ++ inputs 1 [0x7F7FFFFF#32]) 1 with
    ppm := { (ppmReady 2 true false [] 1).ppm with
      prev := [(0, F32.posInf)], acoef := F32.HALF, rcoef := F32.HALF } } 0x00000012#32
theorem witness_SmoothingKeepsFiniteNonNegativity :
    (loudMeter.Inv ∧ loudMeter.PrevFinite ∧ MetersFinite loudMeter ∧ (∃ t, step loudMeter = .next t) ∧
      loudMeter.ppm.init = true ∧ FramesOk loudMeter ∧ Tracked loudMeter 0 ∧
      0 < loudMeter.frames.toNat) ∧
    (overflowMeter.Inv ∧ overflowMeter.PrevOk ∧ ReadsFinite overflowMeter ∧
      (F32.fgt overflowMeter.ppm.acoef F32.posZero = true ∧
        F32.flt overflowMeter.ppm.acoef F32.ONE = true ∧
        F32.flt overflowMeter.ppm.rcoef F32.ONE = true) ∧
      (∃ t, step overflowMeter = .next t) ∧ overflowMeter.ppm.init = true ∧ FramesOk overflowMeter) ∧
    (F32.isFinite 0x7F7FFFFF#32 = true ∧ F32.fge 0x7F7FFFFF#32 F32.posZero = true) ∧
    (F32.fge F32.HALF F32.posZero = true ∧ F32.fle F32.HALF F32.ONE = true ∧
      F32.fle F32.ONE F32.ONE = true) ∧
    F32.fgt 0x7F7FFFFF#32 F32.posZero = true ∧ F32.fgt 0x7F7FFFFF#32 0x7F7FFFFF#32 = false := by
  have h := ppmReady_inv 1 false false [] 1 (by decide) (by decide)
  have k := ppmReady_inv 2 true false [] 1 (by decide) (by decide)
  refine ⟨⟨⟨h.params, by decide +kernel, h.vib, fun e => ?_, fun e => nomatch (show true = false from e)⟩,
    fun c => ?_, fun w rest _ _ _ _ c n hc hn => ?_, ⟨_, rfl⟩, rfl, by decide,
    by unfold Tracked; decide, by decide⟩,
    ⟨⟨k.params, by decide +kernel, k.vib, fun e => ?_, fun e => nomatch (show true = false from e)⟩,
    fun c => ?_, fun w rest _ _ _ _ c n hc hn => ?_, by decide +kernel, ⟨_, rfl⟩, rfl, by decide⟩,
    by decide +kernel⟩
  · have r := h.ppm.1 e
    exact ⟨r.rate, r.channels, r.attack, r.release⟩
  · rcases c with _ | c
    · decide +kernel
    · exact (by decide +kernel : F32.isFinite 0 = true ∧ F32.fge 0 F32.posZero = true)
  · obtain rfl : c = 0 := by have : c < 1 := hc; omega
    obtain rfl : n = 0 := by have : n < 1 := hn; omega
    decide +kernel
  · have r := k.ppm.1 e
    have half : F32.fle F32.posZero F32.HALF = true ∧ F32.fle F32.HALF F32.ONE = true := by
      decide +kernel
    exact ⟨r.rate, r.channels, half, half⟩
  · rcases c with _ | c
    · decide +kernel
    · exact (by decide +kernel : F32.isNaN 0 = false ∧ F32.fge 0 F32.posZero = true)
  · obtain rfl : n = 0 := by have : n < 1 := hn; omega
    have : ∀ c < 2, F32.isFinite (overflowMeter.readIn c 0) = true := by decide +kernel
    exact this c hc
theorem witness_ZeroInputMetersZero :
    ∃ s : State, s.Inv ∧ s.ppm.init = true ∧ FramesOk s ∧
      (∀ c n, c < s.ppm.aNch.toNat → n < s.frames.toNat → F32.isZero (s.readIn c n) = true) ∧
      (∀ c, Cells.word s.ppm.prev c = 0) ∧ Tracked s 0 := by
  refine ⟨ppmReady 1 false true (inputs 0 [0, F32.negZero]) 2,
    ppmReady_inv _ _ _ _ _ (by decide) (by decide +kernel), rfl, by decide, fun c n hc hn => ?_,
    fun _ => rfl, by unfold Tracked; decide⟩
  have hc : c < 1 := hc
  obtain rfl : c = 0 := by omega
  revert n
  decide +kernel
/-- Two one-frame blocks metered one after the other. -/
theorem witness_MeterStatePersists :
    (∃ s s1 s2 t1 : State,
      (s.ppm.init = true ∧ s.cfg.legal = true ∧ 1 + 1 ≤ s.cfg.blkMax ∧
        s.frames = BitVec.ofNat 32 (1 + 1)) ∧
      s1 = { s with frames := BitVec.ofNat 32 1 } ∧ exec .ppmProcess s1 = .next t1 ∧
      s2.cfg = s.cfg ∧ s2.ppm = t1.ppm ∧ s2.frames = BitVec.ofNat 32 1 ∧
      ∀ c n, c < max 1 s.ppm.aNch.toNat → n < 1 → s2.readIn c n = s.readIn c (1 + n)) ∧
    ∃ s t : State, step s = .next t ∧ t.ppm.prev ≠ s.ppm.prev := by
  let s := ppmReady 1 false false (inputs 0 [0x3F000000#32, 0x3F800000#32]) 2
  refine ⟨⟨s, _, { s with frames := 1, buf := inputs 0 [0x3F800000#32], ppm := _ }, _,
    by decide +kernel, rfl, rfl, rfl, rfl, rfl, fun c n hc hn => ?_⟩,
    ⟨facing nanMeter .reset, _, rfl, by decide⟩⟩
  have hc : c < max 1 1 := hc
  obtain rfl : c = 0 := by omega
  obtain rfl : n = 0 := by omega
  decide +kernel
theorem witness_OneChannelVariantsAgree :
    (ppmReady 1 false false (inputs 0 [0xBF800000#32]) 1).ppm.aNch = 1 ∧
    (ppmReady 1 false false (inputs 0 [0xBF800000#32]) 1).ppm.aMode = false ∧
    ∃ t, exec .ppmProcess (ppmReady 1 false false (inputs 0 [0xBF800000#32]) 1) = .next t :=
  ⟨rfl, rfl, ⟨_, rfl⟩⟩
theorem witness_StepKeepsTheStateSound :
    let s := issuing (vibSound 0 0 [] 4 []) 0x00000104#32
    s.Inv ∧ ∃ t, step s = .next t := by
  have h := vibSound_empty_inv 0 0 4 [] (by decide +kernel) (by decide +kernel) (by decide)
  exact ⟨⟨h.params, h.arrays, h.vib, h.ppm⟩, ⟨_, rfl⟩⟩
theorem witness_StepKeepsArraysCanonical :
    (issuing (vibReady 0 twoSamples) 0x00000104#32).arraysOk = true ∧
    ∃ t, step (issuing (vibReady 0 twoSamples) 0x00000104#32) = .next t :=
  ⟨by decide +kernel, ⟨_, rfl⟩⟩
theorem witness_ResetGivesTheResetValues :
    (facing (vibReady 0 twoSamples) .reset).pending = [.reset] ∧
    (∀ c n, Reg.vibPhase ≠ .inWord c n ∧ Reg.vibPhase ≠ .outWord c n) :=
  ⟨rfl, fun _ _ => ⟨fun h => (nomatch h), fun h => (nomatch h)⟩⟩
theorem witness_BuffersChangeOnlyByTheirWriters :
    (∃ t, step (facing State.reset .reset) = .next t) ∧
    ∃ s t : State, step s = .next t ∧ t.bufByte 0x10000 ≠ s.bufByte 0x10000 :=
  ⟨⟨_, rfl⟩, ⟨facing { State.reset with buf := [(0x10000, 5)] } (.write 0x10000 7), _, rfl,
    by decide +kernel⟩⟩
theorem witness_UnitsAreIndependent :
    (∃ t, exec (.dlWrite 1) (vibReady 0 twoSamples) = .next t) ∧ isVib (.dlWrite 1) = true ∧
    (∃ t, exec .ppmReset (vibReady 0 twoSamples) = .next t) ∧ isVib .ppmReset = false :=
  ⟨⟨_, rfl⟩, rfl, ⟨_, rfl⟩, rfl⟩
theorem witness_StagingTakesEffectOnlyAtInit :
    (∃ t, exec .vibProcess (vibReady 0 twoSamples) = .next t) ∧ Instr.vibProcess ≠ .vibInit ∧
    Instr.vibProcess ≠ .ppmInit ∧ Instr.vibProcess ≠ .ppmProcess ∧
    (FramesOk nanMeter ∧ nanMeter.ppm.init = true ∧ nanMeter.ppm.db = false) ∧
    ∃ t, exec .ppmProcess nanMeter = .next t :=
  ⟨⟨_, rfl⟩, by decide, by decide, by decide, by decide, ⟨_, rfl⟩⟩
theorem witness_InstancesAreDisjoint :
    (∃ q, Platform.stepAt [State.reset, vibReady 0 twoSamples] 1 = .next q) ∧
    ∃ q, Platform.stepAt [State.reset] 1 = .next q :=
  ⟨⟨_, rfl⟩, ⟨_, rfl⟩⟩
theorem witness_ArithmeticRoundsOnce :
    (F32.isFinite 0x7F7FFFFF#32 = true ∧ F32.isFinite 0x00000001#32 = true ∧
      F32.val 0x7F7FFFFF#32 + F32.val 0x00000001#32 ≠ 0 ∧ F32.isZero 0x00000001#32 = false) ∧
    (F32.val 0x3F800000#32 + F32.val 0xBF800000#32 = 0 ∧ F32.isZero F32.negZero = true) ∧
    (F32.isInf F32.negInf = true ∧ F32.isInf F32.posInf = true) := by decide +kernel
theorem witness_ProducedNaNsAreCanonical :
    F32.isNaN (F32.fmul F32.posZero F32.posInf) = true ∧ F32.isNaN 0xFFFFFFFF#32 = true := by
  decide +kernel
theorem witness_AddressBitsAreIgnored : 0x2FFFF < 0x30000 := by decide
theorem witness_ConversionsAreExact :
    F32.isFinite 0x7F7FFFFF#32 = true ∧ F32.fge 0x7F7FFFFF#32 F32.posZero = true ∧
    F32.fge F32.negZero F32.posZero = true ∧ 2 ^ 24 - 1 < 2 ^ 24 := by decide +kernel
/-- A legal LOG10. -/
def log10Flat (x : Word) : Word :=
  if F32.isNaN x then F32.qNaN else if x = F32.posZero then F32.negInf
  else if x = F32.posInf then F32.posInf else 0
theorem log10Flat_legal : F32.LegalLog10 log10Flat := by
  refine ⟨by decide, by decide, by decide, fun x hx => ?_, fun x hx h0 => ?_⟩
  · unfold log10Flat; rw [if_pos hx]; decide
  · have hn := Sys2Proof.Laws.isNaN_of_isFinite hx
    have h1 : x ≠ F32.posZero := by rintro rfl; revert h0; decide +kernel
    have h2 : x ≠ F32.posInf := by rintro rfl; revert hx; decide
    unfold log10Flat
    rw [hn, if_neg (by decide), if_neg h1, if_neg h2]
    decide
theorem witness_ConfigurationIsAnyLegalOne :
    F32.Legal { sin := sinTable, exp := expFlat, ln := lnFlat, log10 := log10Flat } := by
  refine ⟨⟨sinTable_legal, fun x h => ?_⟩, ⟨expFlat_legal, fun x h => ?_⟩,
    ⟨lnFlat_legal, fun x h => ?_⟩, ⟨log10Flat_legal, fun x h => ?_⟩⟩
  all_goals
    revert h
    simp only [sinTable, expFlat, lnFlat, log10Flat]
    repeat' split
    all_goals decide
theorem witness_ReferenceConfigurationIsLegal : ∃ F, F32.Reference F :=
  Sys2Proof.Laws.exists_reference

end Sys2Proof.Tests
end

section
/-! Proofs of the arithmetic statements of 00_scope.md: the conversions (R15), the named constants (R16)
and the configuration functions (R17). -/

namespace Sys2Proof.Proofs

open Sys2Proof.F32 Sys2Proof.Laws

/-! ### Conversions (R15) -/

theorem getLsbD_fabs (a : Word) {k : Nat} (hk : k < 31) : (fabs a).getLsbD k = a.getLsbD k := by
  have hmask : (fabs a).toNat = a.toNat % 2 ^ 31 := by
    rw [fabs_eq, pack_toNat _ _ (absBits_lt a)]; rfl
  simp only [BitVec.getLsbD, hmask, Nat.testBit_mod_two_pow, hk, decide_true, Bool.true_and]

theorem val_nonneg_of_fge_posZero {a : Word} (h : fge a posZero = true) : 0 ≤ val a := by
  obtain ⟨-, -, hv⟩ := (fge_iff a posZero).1 h
  rwa [val_posZero] at hv

/-- Settles O57: each conversion's own law, the comparison with +0 read as a sign of the value. -/
theorem conversionsAreExact : Obligations.ConversionsAreExact := by
  refine ⟨fun a => ⟨sign_fabs a, fun k hk => getLsbD_fabs a hk⟩, fun a hf h => ?_,
    fun i hi => ofNat_exact hi⟩
  have h0 := val_nonneg_of_fge_posZero h
  exact ⟨floor_spec h0, ceil_spec h0, (val_fraction hf h0).2⟩

/-! ### Nearest values (R16) -/

/-- No value lies strictly between those of neighbouring words. -/
theorem val_le_pred_or_succ_le {v w : Word} (hs : sign w = false) (h : val v ≠ val w) :
    val v ≤ magOf (absBits w - 1) ∨ (magOf (absBits w + 1) : Int) ≤ val v := by
  cases hv : sign v
  · have hvv : val v = magOf (absBits v) := by simp [val, hv, mag_eq]
    have hvw : val w = magOf (absBits w) := by simp [val, hs, mag_eq]
    have hne : absBits v ≠ absBits w := fun he => h (by rw [hvv, hvw, he])
    rw [hvv, Int.ofNat_le, Int.ofNat_le, magOf_le, magOf_le]
    omega
  · left
    have hvv : val v = -(magOf (absBits v) : Int) := by simp [val, hv, mag_eq]
    omega

theorem cast_magOf_lt {a b : Nat} (h : a < b) : (magOf a : ℝ) < magOf b :=
  Nat.cast_lt.2 (magOf_lt.2 h)

theorem absBits_pos {w : Word} (h : isZero w = false) : 0 < absBits w := by
  refine Nat.pos_of_ne_zero fun h0 => ?_
  rw [(isZero_iff w).2 h0] at h
  cases h

theorem cast_val_of_sign {w : Word} (hs : sign w = false) : (val w : ℝ) = magOf (absBits w) := by
  simp [val, hs, mag_eq]

/-- A real number strictly between the midpoints to a positive word's two neighbours has that word as its
nearest one. -/
theorem nearest_of_between_midpoints {r : ℝ} {w : Word} (hs : sign w = false)
    (h0 : isZero w = false) (hb : absBits w < 0x7F7FFFFF)
    (hlo : (magOf (absBits w - 1) : ℝ) + magOf (absBits w) < 2 * (r * 2 ^ 149))
    (hhi : 2 * (r * 2 ^ 149) < (magOf (absBits w) : ℝ) + magOf (absBits w + 1)) :
    Nearest r w := by
  have hpred := cast_magOf_lt (Nat.sub_lt (absBits_pos h0) one_pos)
  have hsucc := cast_magOf_lt (Nat.lt_add_one (absBits w))
  have near : ∀ v, val v ≠ val w → |r * 2 ^ 149 - val w| < |r * 2 ^ 149 - val v| := by
    intro v hv
    rw [cast_val_of_sign hs, abs_lt]
    rcases val_le_pred_or_succ_le hs hv with h | h
    · have h' : (val v : ℝ) ≤ magOf (absBits w - 1) := by exact_mod_cast h
      rw [abs_of_pos (by linarith)]
      constructor <;> linarith
    · have h' : (magOf (absBits w + 1) : ℝ) ≤ val v := by exact_mod_cast h
      rw [abs_of_neg (by linarith)]
      constructor <;> linarith
  have hrange : ¬(2 : ℝ) ^ 128 - 2 ^ 103 ≤ |r| := by
    have hnn : (0 : ℝ) ≤ magOf (absBits w - 1) := Nat.cast_nonneg _
    rw [abs_of_pos (by linarith), not_le]
    refine lt_of_mul_lt_mul_right ?_ (show (0 : ℝ) ≤ 2 ^ 149 by positivity)
    calc r * 2 ^ 149 < magOf (absBits w + 1) := by linarith
      _ ≤ ((2 ^ 24 - 1) * 2 ^ 253 : Nat) := Nat.cast_le.2 (magOf_max ▸ magOf_le.2 hb)
      _ ≤ (2 ^ 128 - 2 ^ 103) * 2 ^ 149 := by norm_num
  rw [Nearest, if_neg hrange]
  refine ⟨(isFinite_iff w).2 (by omega), fun v _ => ?_, fun v _ he hv => ?_, fun hz => ?_⟩
  · by_cases hv : val v = val w
    · rw [hv]
    · exact (near v hv).le
  · exact absurd he (near v hv).ne
  · rw [h0] at hz; cases hz

/-- The value of a positive word has that word as its nearest one. -/
theorem nearest_of_eq_val {r : ℝ} {w : Word} (hs : sign w = false) (h0 : isZero w = false)
    (hb : absBits w < 0x7F7FFFFF) (h : r * 2 ^ 149 = val w) : Nearest r w := by
  have hpred := cast_magOf_lt (Nat.sub_lt (absBits_pos h0) one_pos)
  have hsucc := cast_magOf_lt (Nat.lt_add_one (absBits w))
  rw [cast_val_of_sign hs] at h
  exact nearest_of_between_midpoints hs h0 hb (by linarith) (by linarith)

/-- Rounding to nearest is odd away from 0. -/
theorem nearest_neg {r : ℝ} {w : Word} (hr : r ≠ 0) (h : Nearest r w) : Nearest (-r) (neg w) := by
  have hlt : -r < 0 ↔ ¬r < 0 := by
    rw [neg_lt_zero, not_lt]
    exact ⟨le_of_lt, fun h => lt_of_le_of_ne h hr.symm⟩
  have flip : ∀ y : Int, |-r * 2 ^ 149 - (y : ℝ)| = |r * 2 ^ 149 - ((-y : Int) : ℝ)| := fun y => by
    rw [Int.cast_neg, ← abs_neg]; congr 1; ring
  unfold Nearest at h ⊢
  rw [abs_neg]
  split at h
  · rw [if_pos ‹_›, h]
    by_cases hneg : r < 0
    · rw [if_pos hneg, if_neg (by rwa [hlt, not_not])]; decide
    · rw [if_neg hneg, if_pos (hlt.2 hneg)]; decide
  · obtain ⟨hf, near, even, zero⟩ := h
    rw [if_neg ‹_›, isFinite_neg, isZero_neg, sign_neg, val_neg, flip, neg_neg, absBits_mod_two,
      absBits_neg, ← absBits_mod_two]
    refine ⟨hf, fun v hv => ?_, fun v hv he hne => ?_, fun hz => ?_⟩
    · rw [flip, ← val_neg]; exact near _ (by rwa [isFinite_neg])
    · rw [flip, ← val_neg] at he
      refine even _ (by rwa [isFinite_neg]) he fun heq => hne ?_
      rw [← heq, val_neg, neg_neg]
    · rw [hlt, ← zero hz]; simp

theorem nearest_TWO_PI : Nearest (2 * Real.pi) TWO_PI := by
  have hlo := Real.pi_gt_d20
  have hhi := Real.pi_lt_d20
  apply nearest_of_between_midpoints (by decide) (by decide) (by decide)
  all_goals
    norm_num [absBits, TWO_PI, magOf] at hlo hhi ⊢
    linarith

theorem nearest_K22 : Nearest (-2.2) K22 := by
  rw [show K22 = neg 0x400CCCCD#32 by decide]
  refine nearest_neg (by norm_num) ?_
  apply nearest_of_between_midpoints (by decide) (by decide) (by decide) <;>
    norm_num [absBits, magOf]

theorem nearest_T_AT_DEF : Nearest 0.01 T_AT_DEF := by
  apply nearest_of_between_midpoints (by decide) (by decide) (by decide) <;>
    norm_num [absBits, T_AT_DEF, magOf]

theorem nearest_T_AT_MAX : Nearest 0.02 T_AT_MAX := by
  apply nearest_of_between_midpoints (by decide) (by decide) (by decide) <;>
    norm_num [absBits, T_AT_MAX, magOf]

theorem nearest_T_RT_DEF : Nearest 1.5 T_RT_DEF :=
  nearest_of_eq_val (by decide) (by decide) (by decide)
    (by rw [show val T_RT_DEF = 3 * 2 ^ 148 by decide +kernel]; norm_num)

theorem nearest_T_RT_MAX : Nearest 2.0 T_RT_MAX :=
  nearest_of_eq_val (by decide) (by decide) (by decide)
    (by rw [show val T_RT_MAX = 2 ^ 150 by decide +kernel]; norm_num)

theorem nearest_K20 : Nearest 20 K20 :=
  nearest_of_eq_val (by decide) (by decide) (by decide)
    (by rw [show val K20 = 20 * 2 ^ 149 by decide +kernel]; norm_num)

theorem nearest_HALF : Nearest (1 / 2) HALF :=
  nearest_of_eq_val (by decide) (by decide) (by decide)
    (by rw [show val HALF = 2 ^ 148 by decide +kernel]; norm_num)

theorem nearest_ONE : Nearest 1 ONE :=
  nearest_of_eq_val (by decide) (by decide) (by decide) (by rw [val_ONE]; norm_num)

/-- Settles O58: four literals lie between the midpoints to their word's neighbours, five are values. -/
theorem constantsAreNearestToTheirLiterals : Obligations.ConstantsAreNearestToTheirLiterals :=
  ⟨⟨rfl, rfl, rfl, rfl, rfl, rfl, rfl, rfl, rfl⟩, nearest_TWO_PI, nearest_K22, nearest_T_AT_DEF,
    nearest_T_RT_DEF, nearest_T_AT_MAX, nearest_T_RT_MAX, nearest_K20, nearest_HALF, nearest_ONE⟩

/-! ### Configuration functions (R13, R17) -/

theorem isNaN_of_fle_left {a b : Word} (h : fle a b = true) : isNaN a = false :=
  have ⟨ha, _, _⟩ := (fle_iff a b).1 h
  ha

theorem isNaN_of_fle_right {a b : Word} (h : fle a b = true) : isNaN b = false :=
  have ⟨_, hb, _⟩ := (fle_iff a b).1 h
  hb

theorem val_pos_of_flt_posZero {x : Word} (h : flt posZero x = true) : 0 < val x := by
  obtain ⟨-, -, hv⟩ := (flt_iff posZero x).1 h
  rwa [val_posZero] at hv

/-- A word between -1.0 and 1.0 is finite. -/
theorem isFinite_of_fle_ONE {x : Word} (hlo : fle (neg ONE) x = true) (hhi : fle x ONE = true) :
    isFinite x = true := by
  obtain ⟨-, -, hl⟩ := (fle_iff _ _).1 hlo
  obtain ⟨-, -, hh⟩ := (fle_iff _ _).1 hhi
  rw [val_neg, val_ONE] at hl
  rw [val_ONE] at hh
  rw [isFinite_iff_val, magOf_inf]
  calc |val x| ≤ 2 ^ 149 := abs_le.2 ⟨hl, hh⟩
    _ < ((2 ^ 23 * 2 ^ 254 : Nat) : Int) := by norm_num

/-- The only infinity above +0 is +∞. -/
theorem isFinite_of_flt_posZero {x : Word} (h : flt posZero x = true) (hinf : x ≠ posInf) :
    isFinite x = true := by
  obtain ⟨-, hn, -⟩ := (flt_iff posZero x).1 h
  rw [isNaN_false_iff] at hn
  rw [isFinite_iff]
  refine lt_of_le_of_ne hn fun habs => hinf (word_ext ?_ ?_)
  · rw [sign_of_val_pos (val_pos_of_flt_posZero h)]; decide
  · rw [habs]; decide

theorem eq_zero_of_isZero {x : Word} (h : isZero x = true) : x = posZero ∨ x = negZero := by
  rw [isZero_iff] at h
  cases hs : sign x
  · exact .inl (word_ext (hs.trans (by decide)) (h.trans (by decide)))
  · exact .inr (word_ext (hs.trans (by decide)) (h.trans (by decide)))

theorem canon_canonical (w : Word) (h : isNaN (canon w) = true) : canon w = qNaN := by
  unfold canon at h ⊢
  split at h
  · exact if_pos ‹_›
  · exact absurd h ‹_›

theorem canon_eq_self {f : Word → Word} (h : CanonicalNaN f) (x : Word) : canon (f x) = f x := by
  unfold canon
  split
  · exact (h x ‹_›).symm
  · rfl

/-! #### SIN-1 and SIN-2 -/

theorem legalSin_legal (raw : Word → Word) : LegalSin (legalSin raw) := by
  refine ⟨rfl, fun x hx => ?_⟩
  have hb : fle (neg ONE) (legalSin raw x) = true ∧ fle (legalSin raw x) ONE = true := by
    unfold legalSin
    split_ifs with hzero hguard
    · decide +kernel
    · exact Bool.and_eq_true_iff.1 hguard
    · decide +kernel
  exact ⟨isFinite_of_fle_ONE hb.1 hb.2, hb⟩

theorem legalSin_canonical (raw : Word → Word) : CanonicalNaN (legalSin raw) := by
  intro x
  unfold legalSin
  split_ifs with hzero hfin hguard
  · decide
  · rw [isNaN_of_fle_right (Bool.and_eq_true_iff.1 hguard).1]; exact nofun
  · decide
  · exact canon_canonical _

theorem legalSin_eq_self {f : Word → Word} (hf : LegalSin f) (hc : CanonicalNaN f) :
    legalSin f = f := by
  obtain ⟨hf0, hbound⟩ := hf
  funext x
  unfold legalSin
  split_ifs with hzero hfin hguard
  · rw [hzero, hf0]
  · rfl
  · exact absurd (Bool.and_eq_true_iff.2 (hbound x hfin).2) hguard
  · exact canon_eq_self hc x

/-! #### EXP-1 to EXP-4 -/

theorem legalExp_legal (raw : Word → Word) : LegalExp (legalExp raw) := by
  refine ⟨rfl, rfl, rfl, fun x hx => ?_, fun x hx => ?_⟩
  · have hn : ¬isNaN x = true := by rw [isNaN_of_fle_left hx]; decide
    unfold legalExp
    split_ifs with hinf hzero hguard
    · decide +kernel
    · decide +kernel
    · exact Bool.and_eq_true_iff.1 hguard
    · decide +kernel
  · rw [legalExp, if_pos hx]; decide

theorem legalExp_canonical (raw : Word → Word) : CanonicalNaN (legalExp raw) := by
  intro x
  unfold legalExp
  split_ifs with hn hinf hzero hneg hguard
  · decide
  · decide
  · decide
  · rw [isNaN_of_fle_right (Bool.and_eq_true_iff.1 hguard).1]; exact nofun
  · decide
  · exact canon_canonical _

theorem legalExp_eq_self {f : Word → Word} (hf : LegalExp f) (hc : CanonicalNaN f) :
    legalExp f = f := by
  obtain ⟨hfinf, hfneg, hfpos, hbound, hnan⟩ := hf
  funext x
  unfold legalExp
  split_ifs with hn hinf hzero hneg hguard
  · exact (hc x (hnan x hn)).symm
  · rw [hinf, hfinf]
  · rcases eq_zero_of_isZero hzero with rfl | rfl
    · exact hfpos.symm
    · exact hfneg.symm
  · rfl
  · exact absurd (Bool.and_eq_true_iff.2 (hbound x hneg)) hguard
  · exact canon_eq_self hc x

/-! #### LN-1 to LN-3 -/

theorem legalLn_legal (raw : Word → Word) : LegalLn (legalLn raw) := by
  refine ⟨rfl, rfl, rfl, fun x h0 h1 => ?_⟩
  unfold legalLn
  split_ifs with hzero hone hbelow hguard
  · exact absurd ((val_eq_zero x).2 hzero) (val_pos_of_flt_posZero h0).ne'
  · obtain ⟨-, -, hlt⟩ := (flt_iff x ONE).1 h1
    rw [hone] at hlt
    exact absurd hlt (lt_irrefl _)
  · exact Bool.and_eq_true_iff.1 hguard
  · decide +kernel
  · exact absurd (Bool.and_eq_true_iff.2 ⟨h0, h1⟩) hbelow

theorem legalLn_canonical (raw : Word → Word) : CanonicalNaN (legalLn raw) := by
  intro x
  unfold legalLn
  split_ifs with hzero hone hbelow hguard
  · decide
  · decide
  · rw [isNaN_of_isFinite (Bool.and_eq_true_iff.1 hguard).1]; exact nofun
  · decide
  · exact canon_canonical _

theorem legalLn_eq_self {f : Word → Word} (hf : LegalLn f) (hc : CanonicalNaN f) :
    legalLn f = f := by
  obtain ⟨hfpos, hfneg, hfone, hfbelow⟩ := hf
  funext x
  unfold legalLn
  split_ifs with hzero hone hbelow hguard
  · rcases eq_zero_of_isZero hzero with rfl | rfl
    · exact hfpos.symm
    · exact hfneg.symm
  · rw [hone, hfone]
  · rfl
  · obtain ⟨h0, h1⟩ := Bool.and_eq_true_iff.1 hbelow
    exact absurd (Bool.and_eq_true_iff.2 (hfbelow x h0 h1)) hguard
  · exact canon_eq_self hc x

/-! #### LOG10-1 to LOG10-5 -/

theorem legalLog10_legal (raw : Word → Word) : LegalLog10 (legalLog10 raw) := by
  refine ⟨rfl, rfl, rfl, fun x hx => ?_, fun x hx h0 => ?_⟩
  · rw [legalLog10, if_pos hx]; decide
  · unfold legalLog10
    split_ifs with hn hzero hone hinf hfin
    · rw [isNaN_of_isFinite hx] at hn
      cases hn
    · rw [hzero] at h0
      exact absurd val_posZero (val_pos_of_flt_posZero h0).ne'
    · decide
    · rw [hinf] at hx
      exact absurd hx (by decide)
    · exact hfin
    · decide

theorem legalLog10_canonical (raw : Word → Word) : CanonicalNaN (legalLog10 raw) := by
  intro x
  unfold legalLog10
  split_ifs with hn hzero hone hinf hpos hfin
  · decide
  · decide
  · decide
  · decide
  · rw [isNaN_of_isFinite hfin]; exact nofun
  · decide
  · exact canon_canonical _

theorem legalLog10_eq_self {f : Word → Word} (hf : LegalLog10 f) (hc : CanonicalNaN f) :
    legalLog10 f = f := by
  obtain ⟨hfzero, hfone, hfinf, hnan, hfin⟩ := hf
  funext x
  unfold legalLog10
  split_ifs with hn hzero hone hinf hpos hguard
  · exact (hc x (hnan x hn)).symm
  · rw [hzero, hfzero]
  · rw [hone, hfone]
  · rw [hinf, hfinf]
  · rfl
  · exact absurd (hfin x (isFinite_of_flt_posZero hpos hinf) hpos) hguard
  · exact canon_eq_self hc x

/-- Settles O59: what R17 is imposed on becomes legal, and what is legal is a fixed point of imposing it. -/
theorem configurationIsAnyLegalOne : Obligations.ConfigurationIsAnyLegalOne := by
  refine ⟨⟨⟨legalSin_legal _, legalSin_canonical _⟩, ⟨legalExp_legal _, legalExp_canonical _⟩,
    ⟨legalLn_legal _, legalLn_canonical _⟩, ⟨legalLog10_legal _, legalLog10_canonical _⟩⟩, ?_⟩
  rintro F ⟨⟨hsin, csin⟩, ⟨hexp, cexp⟩, ⟨hln, cln⟩, ⟨hlog, clog⟩⟩
  exact ⟨legalSin_eq_self hsin csin, legalExp_eq_self hexp cexp, legalLn_eq_self hln cln,
    legalLog10_eq_self hlog clog⟩

end Sys2Proof.Proofs
end

section
/-! What every command does, said once: the error it reports, and the state it leaves with that error
(R112 to R114). -/

namespace Sys2Proof.Proofs

open Sys2Proof.Machine Sys2Proof.Laws Sys2Proof.Spec

/-! ### The checks of the commands, as the statements write them -/

theorem vibArgsOk_eq_false_iff (s : State) : s.vibArgsOk = false ↔ ¬VibArgs s := by
  rw [← Bool.not_eq_true, vibArgsOk_iff, and_assoc]

theorem vibFits_eq_false_iff (s : State) : s.vibFits = false ↔ ¬VibFits s := by
  rw [← Bool.not_eq_true, vibFits_iff]

theorem ppmArgsOk_eq_false_iff (s : State) : s.ppmArgsOk = false ↔ ¬PpmArgs s := by
  rw [← Bool.not_eq_true, State.ppmArgsOk, rateAndChannelsOk_iff]

theorem badFrameCount_iff (s : State) : s.badFrameCount = true ↔ ¬FramesOk s := by
  rw [← Bool.not_eq_false, badFrameCount_eq_false_iff]

theorem validDelay_eq_false_iff (d : Word) (cap : Nat) :
    validDelay d cap = false ↔ ¬DelayOk d cap := by
  rw [← Bool.not_eq_true, validDelay_iff]

theorem validTime_eq_false_iff (p : Nat) (t : Word) : validTime p t = false ↔ ¬TimeOk p t := by
  rw [← Bool.not_eq_true, validTime_iff]; rfl

/-! ### The outcome of a command -/

/-- The state a command that raises no error leaves, but for STATUS.ERR. -/
def effect (i : Instr) (s : State) : State :=
  match i with
  | .vibInit => s.setVib s.vibLatched
  | .vibProcess => s.vibFrames F32.config s.vibChannels s.numFrames
  | .vibReset => s.vibClear
  | .dlWrite c => s.dlWrite c s.arg
  | .dlRead c => s.setResult (s.dlRead c s.arg)
  | .ppmInit => s.setPpm (s.ppmLatched F32.config)
  | .ppmProcess => s.setPpm (s.metered F32.config)
  | .ppmReset => s.ppmClear
  | .ppmSetParam p =>
    s.setPpm (if p = 0 then { s.ppm with acoef := coefOf F32.config s.ppm.aFs s.arg }
      else { s.ppm with rcoef := coefOf F32.config s.ppm.aFs s.arg })
  | .ppmGetParam p =>
    s.setResult (timeOf F32.config s.ppm.aFs (if p = 0 then s.ppm.acoef else s.ppm.rcoef))

/-- The state a command that raises an error leaves, but for STATUS.ERR (R84, R100, R113). -/
def aftermath (i : Instr) (s : State) : State :=
  match i with
  | .vibInit => s.vibClear
  | .ppmInit => s.ppmClear
  | _ => s

/-- The state a command leaves, but for STATUS.ERR. -/
def outcome (i : Instr) (s : State) : State :=
  if firstError s i = .noError then effect i s else aftermath i s

theorem outcome_of_success {i : Instr} {s : State} (h : firstError s i = .noError) :
    outcome i s = effect i s := if_pos h

theorem outcome_of_error {i : Instr} {s : State} (h : firstError s i ≠ .noError) :
    outcome i s = aftermath i s := if_neg h

/-- Every command ends, reporting the first error of R114's order. -/
theorem exec_eq (i : Instr) (s : State) :
    exec i s = .next ((outcome i s).setErr (firstError s i)) := by
  cases i with
  | vibInit =>
    simp only [exec, execVibInit, vibArgsOk_eq_false_iff, vibFits_eq_false_iff, outcome, firstError]
    split_ifs <;> simp_all [effect, aftermath]
  | vibProcess =>
    simp only [exec, execVibProcess, vibProcess, badFrameCount_iff, outcome, firstError]
    split_ifs <;> simp_all [effect, aftermath]
  | vibReset => rfl
  | dlWrite c =>
    simp only [exec, execDlWrite, outcome, firstError]
    split_ifs <;> simp_all [effect, aftermath]
  | dlRead c =>
    simp only [exec, execDlRead, validDelay_eq_false_iff, outcome, firstError]
    split_ifs <;> simp_all [effect, aftermath]
  | ppmInit =>
    simp only [exec, execPpmInit, ppmInit, ppmArgsOk_eq_false_iff, outcome, firstError]
    split_ifs <;> simp_all [effect, aftermath]
  | ppmProcess =>
    simp only [exec, execPpmProcess, ppmProcess, badFrameCount_iff, outcome, firstError]
    split_ifs <;> simp_all [effect, aftermath]
  | ppmReset => rfl
  | ppmSetParam p =>
    simp only [exec, execPpmSetParam, ppmSetParam, validTime_eq_false_iff, outcome, firstError]
    split_ifs <;> simp_all [effect, aftermath]
  | ppmGetParam p =>
    simp only [exec, execPpmGetParam, ppmGetParam, outcome, firstError]
    split_ifs <;> simp_all [effect, aftermath]

/-- What a command that answers a state answers. -/
theorem eq_of_exec {i : Instr} {s t : State} (h : exec i s = .next t) :
    t = (outcome i s).setErr (firstError s i) := by
  rw [exec_eq] at h
  cases h
  rfl

theorem err_of_exec {i : Instr} {s t : State} (h : exec i s = .next t) : t.err = firstError s i := by
  rw [eq_of_exec h, setErr_err]

/-! ### What commands leave unchanged -/

/-- What holds of both ways a command can end holds of its outcome. -/
theorem outcome_elim {P : State → Prop} {i : Instr} {s : State} (heffect : P (effect i s))
    (haftermath : P (aftermath i s)) : P (outcome i s) := by
  unfold outcome
  split
  · exact heffect
  · exact haftermath

/-- The fields a command can write, beside STATUS.ERR: RESULT, the two units, the sample buffers. -/
def CommandFrame (s t : State) : Prop :=
  t = { s with result := t.result, vib := t.vib, ppm := t.ppm, buf := t.buf }

theorem outcome_frame (i : Instr) (s : State) : CommandFrame s (outcome i s) := by
  refine outcome_elim ?_ ?_
  · cases i
    case vibProcess =>
      simp only [CommandFrame, effect]
      rw [vibFrames_frame]
    all_goals rfl
  · cases i <;> rfl

theorem outcome_cmd (i : Instr) (s : State) : (outcome i s).cmd = s.cmd := by
  rw [outcome_frame i s]

/-- RESULT takes a value from the commands that read, when they succeed (R27). -/
theorem effect_result (i : Instr) (s : State) :
    (effect i s).result =
      match i with
      | .dlRead c => (s.vib.line c).read s.vib.cap.toNat s.arg
      | .ppmGetParam p =>
        timeOf F32.config s.ppm.aFs (if p = 0 then s.ppm.acoef else s.ppm.rcoef)
      | _ => s.result := by
  cases i
  case vibProcess => rw [effect, vibFrames_frame]
  all_goals rfl

theorem aftermath_result (i : Instr) (s : State) : (aftermath i s).result = s.result := by
  cases i <;> rfl

/-- Only VIB_INIT and VIB_RESET change VINIT (R25). -/
theorem outcome_vib_init {i : Instr} (s : State) (hinit : i ≠ .vibInit) (hreset : i ≠ .vibReset) :
    (outcome i s).vib.init = s.vib.init := by
  refine outcome_elim (P := fun t => t.vib.init = s.vib.init) ?_ ?_
  · cases i
    case vibInit => exact absurd rfl hinit
    case vibReset => exact absurd rfl hreset
    case vibProcess => rw [effect, vibFrames_frame]
    all_goals rfl
  · cases i
    case vibInit => exact absurd rfl hinit
    all_goals rfl

/-- No command of the vibrato unit reaches the PPM unit (R2). -/
theorem outcome_ppm_of_isVib {i : Instr} (s : State) (hi : isVib i = true) :
    (outcome i s).ppm = s.ppm := by
  refine outcome_elim (P := fun t => t.ppm = s.ppm) ?_ ?_
  · cases i
    case vibProcess => rw [effect, vibFrames_frame]
    all_goals first | rfl | cases hi
  · cases i <;> first | rfl | cases hi

end Sys2Proof.Proofs
end

section
/-! What the host's next access does, said once (R23, R24, R42, R46, R48, R123). -/

namespace Sys2Proof.Proofs

open Sys2Proof.Machine Sys2Proof.Laws Sys2Proof.Spec

/-! ### The register map -/

/-- Offsets 0 to 3 alone name CMD. -/
theorem regAt_eq_cmd_iff (p : Params) (off : Nat) : regAt p off = some .cmd ↔ off < 4 := by
  refine ⟨fun h => ?_, regAt_cmd p⟩
  obtain ⟨hoff, -⟩ := regAt_offset h
  simp only [Reg.offset] at hoff
  omega

theorem writeOffset_of_none {s : State} {off : Nat} (w : Word) (h : regAt s.cfg off = none) :
    s.writeOffset off w = .next s := by
  rw [State.writeOffset, h]

theorem writeOffset_of_some {s : State} {off : Nat} {r : Reg} (w : Word)
    (h : regAt s.cfg off = some r) (hr : r ≠ .cmd) : s.writeOffset off w = .next (s.writeReg r w) := by
  rw [State.writeOffset, h]
  cases r <;> first | rfl | exact absurd rfl hr

theorem writeOffset_cmd (s : State) {off : Nat} (w : Word) (h : off < 4) :
    s.writeOffset off w = s.startCommand w := by
  rw [State.writeOffset, regAt_cmd s.cfg h]

/-- Writing a register other than CMD leaves CMD, RESULT and STATUS alone. -/
theorem writeReg_frame (s : State) {r : Reg} (w : Word) (hr : r ≠ .cmd) :
    (s.writeReg r w).cmd = s.cmd ∧ (s.writeReg r w).result = s.result ∧
    (s.writeReg r w).status = s.status := by
  cases r
  case cmd => exact absurd rfl hr
  all_goals exact ⟨rfl, rfl, rfl⟩

/-! ### The step, by the host's next access -/

theorem step_read {s : State} {off : Nat} {rest : List BusEvent} (hoff : off < 0x30000)
    (h : s.pending = .read (s.cfg.base + off) :: rest) :
    step s = .next { s with pending := rest, rdata := some (s.readOffset off) } := by
  rw [step_cons h]
  exact busRead_inside { s with pending := rest } hoff

theorem step_write {s : State} {off : Nat} {w : Word} {rest : List BusEvent} (hoff : off < 0x30000)
    (h : s.pending = .write (s.cfg.base + off) w :: rest) :
    step s = ({ s with pending := rest } : State).writeOffset off w := by
  rw [step_cons h]
  exact busWrite_inside { s with pending := rest } w hoff

/-- A write to CMD of a word that encodes a command runs it, after the word is stored (R24, R46). -/
theorem step_of_issues {s : State} {w : Word} {rest : List BusEvent} {i : Instr}
    (h : Issues s w rest) (hd : decode w = .ok i) :
    step s = exec i { s with pending := rest, cmd := w } := by
  obtain ⟨k, hk, hp⟩ := h
  rw [step_write (by omega) hp, writeOffset_cmd _ w hk, State.startCommand, hd]
  rfl

/-- A write to CMD of a word that encodes no command raises IllegalCommand, after the word is stored
(R24, R60). -/
theorem step_of_issues_illegal {s : State} {w : Word} {rest : List BusEvent} {e : Illegal}
    (h : Issues s w rest) (hd : decode w = .error e) :
    step s = .next { s with pending := rest, cmd := w, err := .illegalCommand } := by
  obtain ⟨k, hk, hp⟩ := h
  rw [step_write (by omega) hp, writeOffset_cmd _ w hk, State.startCommand, hd]
  rfl

/-- What a step that performs a write can do. -/
theorem step_write_cases {s t : State} {a : Nat} {w : Word} {rest : List BusEvent}
    (h : s.pending = .write a w :: rest) (ht : step s = .next t) :
    t = { s with pending := rest } ∨
    (∃ r ≠ Reg.cmd, t = ({ s with pending := rest } : State).writeReg r w) ∨
    (Issues s w rest ∧
      ((∃ i, decode w = .ok i ∧ exec i { s with pending := rest, cmd := w } = .next t) ∨
        t = { s with pending := rest, cmd := w, err := .illegalCommand })) := by
  cases hoff : windowOffset s.cfg a with
  | none =>
    rw [step_cons h, State.perform, State.busWrite, hoff] at ht
    cases ht
  | some off =>
    obtain ⟨rfl, hlt⟩ := windowOffset_some hoff
    have hw := step_write hlt h
    cases hreg : regAt s.cfg off with
    | none =>
      rw [hw, writeOffset_of_none (s := { s with pending := rest }) w hreg] at ht
      cases ht
      exact .inl rfl
    | some r =>
      by_cases hr : r = .cmd
      · have hiss : Issues s w rest := ⟨off, (regAt_eq_cmd_iff _ _).1 (hr ▸ hreg), h⟩
        refine .inr (.inr ⟨hiss, ?_⟩)
        cases hd : decode w with
        | ok i =>
          rw [step_of_issues hiss hd] at ht
          exact .inl ⟨i, rfl, ht⟩
        | error e =>
          rw [step_of_issues_illegal hiss hd] at ht
          cases ht
          exact .inr rfl
      · rw [hw, writeOffset_of_some (s := { s with pending := rest }) w hreg hr] at ht
        cases ht
        exact .inr (.inl ⟨r, hr, rfl⟩)

/-- What a step that performs a write outside CMD can do. -/
theorem step_write_beside_cmd {s t : State} {a : Nat} {w : Word} {rest : List BusEvent}
    (h : s.pending = .write a w :: rest) (ha : a < s.cfg.base ∨ s.cfg.base + 4 ≤ a)
    (ht : step s = .next t) :
    t = { s with pending := rest } ∨
    ∃ r ≠ Reg.cmd, t = ({ s with pending := rest } : State).writeReg r w := by
  rcases step_write_cases h ht with hsame | hreg | ⟨⟨k, hk, hp⟩, -⟩
  · exact .inl hsame
  · exact .inr hreg
  · rw [h] at hp
    cases hp
    omega

/-- Such a write leaves CMD, RESULT and STATUS alone. -/
theorem step_write_beside_cmd_frame {s t : State} {a : Nat} {w : Word} {rest : List BusEvent}
    (h : s.pending = .write a w :: rest) (ha : a < s.cfg.base ∨ s.cfg.base + 4 ≤ a)
    (ht : step s = .next t) : t.cmd = s.cmd ∧ t.result = s.result ∧ t.status = s.status := by
  rcases step_write_beside_cmd h ha ht with rfl | ⟨r, hr, rfl⟩
  · exact ⟨rfl, rfl, rfl⟩
  · exact writeReg_frame _ w hr

theorem step_reset {s : State} {rest : List BusEvent} (h : s.pending = .reset :: rest) :
    step s = .next ({ s with pending := rest } : State).hardReset := by
  rw [step_cons h, State.perform]

/-! ### CMD (R24) -/

/-- The error reported for a command word (R60, R114). -/
def wordError (s : State) (w : Word) : ErrCode :=
  match decode w with
  | .ok i => firstError s i
  | .error _ => .illegalCommand

/-- The error of a command depends neither on CMD nor on the host's queue. -/
theorem firstError_issued (s : State) (w : Word) (rest : List BusEvent) (i : Instr) :
    firstError { s with pending := rest, cmd := w } i = firstError s i := by
  cases i <;> rfl

/-- A write to CMD answers a state that holds the word and the error of the word's command. -/
theorem exists_step_of_issues {s : State} {w : Word} {rest : List BusEvent} (h : Issues s w rest) :
    ∃ t, step s = .next t ∧ t.cmd = w ∧ t.err = wordError s w := by
  unfold wordError
  cases hd : decode w with
  | ok i =>
    refine ⟨_, (step_of_issues h hd).trans (exec_eq i _), outcome_cmd i _, ?_⟩
    exact firstError_issued s w rest i
  | error e => exact ⟨_, step_of_issues_illegal h hd, rfl, rfl⟩

/-- Settles O6: a write to CMD is the one access that reaches CMD, and no command does. -/
theorem cmdHoldsTheLastWordWritten : Obligations.CmdHoldsTheLastWordWritten := by
  refine ⟨fun s w rest h => ⟨?_, fun i hi => ?_⟩, fun i s t h => ?_, fun s k rest hk h => ?_,
    fun s t a w rest h ha ht => ?_, rfl, fun s t rest h ht => ?_⟩
  · obtain ⟨t, ht, hcmd, -⟩ := exists_step_of_issues h
    exact ⟨t, ht, hcmd⟩
  · exact step_of_issues h hi
  · rw [eq_of_exec h, setErr_cmd, outcome_cmd]
  · rw [step_read (by omega) h, State.readOffset, regAt_cmd s.cfg hk]
    rfl
  · exact (step_write_beside_cmd_frame h ha ht).1
  · rw [step_reset h] at ht
    cases ht
    rfl

/-! ### STATUS (R25) -/

theorem status_toNat (s : State) :
    s.status.toNat = s.err.code + 2 ^ 8 * bit s.vib.init + 2 ^ 9 * bit s.ppm.init := by
  have herr : s.err.code ≤ 4 := by cases s.err <;> decide
  have hbit : ∀ b, bit b ≤ 1 := by decide
  have hv := hbit s.vib.init
  have hp := hbit s.ppm.init
  rw [State.status, BitVec.toNat_ofNat]
  exact Nat.mod_eq_of_lt (by omega)

/-- The fields of STATUS: the error's code, VINIT, PINIT, and 0 in every other bit. -/
theorem status_fields (s : State) :
    (s.status.extractLsb' 0 3).toNat = s.err.code ∧
    s.status.getLsbD 8 = s.vib.init ∧ s.status.getLsbD 9 = s.ppm.init ∧
    ∀ k, (3 ≤ k ∧ k ≤ 7) ∨ 10 ≤ k → s.status.getLsbD k = false := by
  have herr : s.err.code ≤ 4 := by cases s.err <;> decide
  have hbit : ∀ b, bit b ≤ 1 ∧ decide (bit b = 1) = b := by decide
  obtain ⟨hv, hv'⟩ := hbit s.vib.init
  obtain ⟨hp, hp'⟩ := hbit s.ppm.init
  simp only [BitVec.extractLsb'_toNat, BitVec.getLsbD, status_toNat, Nat.shiftRight_zero,
    Nat.testBit_eq_decide_div_mod_eq]
  refine ⟨by omega, ?_, ?_, fun k hk => decide_eq_false ?_⟩
  · rw [show (s.err.code + 2 ^ 8 * bit s.vib.init + 2 ^ 9 * bit s.ppm.init) / 2 ^ 8 % 2 =
      bit s.vib.init by omega, hv']
  · rw [show (s.err.code + 2 ^ 8 * bit s.vib.init + 2 ^ 9 * bit s.ppm.init) / 2 ^ 9 % 2 =
      bit s.ppm.init by omega, hp']
  · rcases hk with ⟨hlo, hhi⟩ | hlo
    · interval_cases k <;> omega
    · have hpow : 2 ^ 10 ≤ 2 ^ k := Nat.pow_le_pow_right (by decide) hlo
      rw [Nat.div_eq_of_lt (by omega)]
      decide

/-- The error a word reports does not depend on the one STATUS holds. -/
theorem wordError_setErr (s : State) (e : ErrCode) (w : Word) :
    wordError (s.setErr e) w = wordError s w := by
  unfold wordError
  cases decode w with
  | ok i => cases i <;> rfl
  | error _ => rfl

theorem issues_setErr {s : State} {w : Word} {rest : List BusEvent} (h : Issues s w rest)
    (e : ErrCode) : Issues (s.setErr e) w rest := h

/-- A command that is issued writes ERR, whatever ERR held. -/
theorem step_err_of_issues {s : State} {w : Word} {rest : List BusEvent} (e : ErrCode)
    (h : Issues s w rest) :
    ∃ t u, step s = .next t ∧ step (s.setErr e) = .next u ∧ t.err = u.err := by
  obtain ⟨t, ht, -, herr⟩ := exists_step_of_issues h
  obtain ⟨u, hu, -, herr'⟩ := exists_step_of_issues (issues_setErr h e)
  refine ⟨t, u, ht, hu, ?_⟩
  rw [herr, herr', wordError_setErr]

/-- Settles O15: the bits of the sum that STATUS is, and what each command's outcome keeps. -/
theorem statusFieldsAndTheirWriters : Obligations.StatusFieldsAndTheirWriters := by
  refine ⟨fun s => ?_, rfl, fun s w rest e h => step_err_of_issues e h, fun i s t h => ?_,
    fun s t a w rest h ha ht => ?_⟩
  · obtain ⟨herr, hrest⟩ := status_fields s
    refine ⟨?_, hrest⟩
    rw [herr]
    cases s.err <;> rfl
  · rw [eq_of_exec h]
    exact ⟨fun hinit _ hreset => outcome_vib_init s hinit hreset,
      fun hi => congrArg Ppm.init (outcome_ppm_of_isVib s hi)⟩
  · obtain ⟨-, -, hstatus⟩ := step_write_beside_cmd_frame h (.inr ha) ht
    exact hstatus

/-! ### RESULT (R27) -/

/-- Settles O17: a command's outcome is its effect when it reports no error, and then only the two that
read write RESULT. -/
theorem resultIsWrittenOnlyBySuccess : Obligations.ResultIsWrittenOnlyBySuccess := by
  refine ⟨fun i s t h => ⟨fun herr => ?_, fun herr => ?_⟩, fun s t a w rest h ha ht => ?_⟩
  · rw [err_of_exec h] at herr
    rw [eq_of_exec h, setErr_result, outcome_of_error herr, aftermath_result]
  · rw [err_of_exec h] at herr
    rw [eq_of_exec h, setErr_result, outcome_of_success herr]
    exact effect_result i s
  · obtain ⟨-, hresult, -⟩ := step_write_beside_cmd_frame h (.inr ha) ht
    exact hresult

/-! ### Reserved and read-only words (R23) -/

/-- The words of a buffer lie below its NCH_MAX × BLK_MAX words. -/
theorem slot_lt_size {p : Params} {c n : Nat} (hc : c < p.nchMax) (hn : n < p.blkMax) :
    c * p.blkMax + n < p.nchMax * p.blkMax := by
  calc c * p.blkMax + n < (c + 1) * p.blkMax := by rw [Nat.add_mul]; omega
    _ ≤ p.nchMax * p.blkMax := Nat.mul_le_mul_right _ hc

theorem regAt_of_reserved {p : Params} {off : Nat} (hp : p.legal = true)
    (h : ReservedOffset p off) : regAt p off = none := by
  cases hreg : regAt p off with
  | none => rfl
  | some r =>
    exfalso
    obtain ⟨hoff, hex⟩ := regAt_offset hreg
    simp only [Params.legal, Bool.and_eq_true, decide_eq_true_eq] at hp
    unfold ReservedOffset at h
    cases r
    case inWord c n | outWord c n =>
      simp only [Reg.exists, Bool.and_eq_true, decide_eq_true_eq] at hex
      have := slot_lt_size hex.1 hex.2
      simp only [Reg.offset, inOffset, outOffset] at hoff
      omega
    all_goals
      simp only [Reg.offset, Reg.exists, decide_eq_true_eq] at hoff hex
      omega

theorem readOnly_of_readOnlyOffset {p : Params} {off : Nat} {r : Reg} (hp : p.legal = true)
    (h : ReadOnlyOffset p off) (hreg : regAt p off = some r) : readOnly r = true := by
  obtain ⟨hoff, -⟩ := regAt_offset hreg
  simp only [Params.legal, Bool.and_eq_true, decide_eq_true_eq] at hp
  unfold ReadOnlyOffset at h
  by_contra hr
  cases r
  all_goals first
    | exact hr rfl
    | simp only [Reg.offset, inOffset, outOffset] at hoff; omega

theorem lt_window_of_reserved {p : Params} {off : Nat} (h : ReservedOffset p off) :
    off < 0x30000 := by
  unfold ReservedOffset at h
  omega

theorem lt_window_of_readOnlyOffset {p : Params} {off : Nat} (hp : p.legal = true)
    (h : ReadOnlyOffset p off) : off < 0x30000 := by
  simp only [Params.legal, Bool.and_eq_true, decide_eq_true_eq] at hp
  unfold ReadOnlyOffset at h
  omega

/-- Where the map names no register the host can write, a write is ignored. -/
theorem writeOffset_ignored {s : State} {off : Nat} (w : Word)
    (h : ∀ r, regAt s.cfg off = some r → readOnly r = true) : s.writeOffset off w = .next s := by
  cases hreg : regAt s.cfg off with
  | none => exact writeOffset_of_none w hreg
  | some r =>
    have hr := h r hreg
    rw [writeOffset_of_some w hreg (by rintro rfl; cases hr), writeReg_readOnly s r w hr]

/-- Settles O8: no register of the map has a reserved offset, and only read-only ones a read-only one. -/
theorem reservedAndReadOnlyWords : Obligations.ReservedAndReadOnlyWords := by
  intro s off rest hp
  refine ⟨fun h => ?_, fun h w hw => ?_⟩
  · have hlt := lt_window_of_reserved h
    have hnone := regAt_of_reserved hp h
    refine ⟨fun hr => ?_, fun w hw => ?_⟩
    · rw [step_read hlt hr, State.readOffset, hnone]
    · rw [step_write hlt hw]
      exact writeOffset_of_none (s := { s with pending := rest }) w hnone
  · rw [step_write (lt_window_of_readOnlyOffset hp h) hw]
    exact writeOffset_ignored (s := { s with pending := rest }) w
      fun r => readOnly_of_readOnlyOffset hp h

end Sys2Proof.Proofs
end

section
/-! The arithmetic behind the legal values of R30 and R36: what VIB_INIT latches, the advance of the
phase, and the coefficient of a time constant. -/

namespace Sys2Proof.Proofs

open Sys2Proof.F32 Sys2Proof.Laws

theorem fle_of_val_le {a b : Word} (ha : isNaN a = false) (hb : isNaN b = false)
    (h : val a ≤ val b) : fle a b = true := (fle_iff a b).2 ⟨ha, hb, h⟩

theorem fle_posZero_of_val_nonneg {a : Word} (ha : isNaN a = false) (h : 0 ≤ val a) :
    fle posZero a = true := fle_of_val_le isNaN_posZero ha (by rwa [val_posZero])

theorem val_nonneg_of_fle_posZero {a : Word} (h : fle posZero a = true) : 0 ≤ val a :=
  val_nonneg_of_fge_posZero h

/-- A number that is not negative and at most a finite one is finite. -/
theorem isFinite_of_val_le {a b : Word} (hb : isFinite b = true) (h0 : 0 ≤ val a)
    (h : val a ≤ val b) : isFinite a = true := by
  rw [isFinite_iff_val] at hb ⊢
  rw [abs_of_nonneg h0]
  exact lt_of_le_of_lt (h.trans (le_abs_self _)) hb

/-- A product of finite factors grows with its first one, the second not being negative. -/
theorem val_fmul_mono {a b x : Word} (ha : isFinite a = true) (hb : isFinite b = true)
    (hx : isFinite x = true) (h0 : 0 ≤ val x) (h : val a ≤ val b) :
    val (fmul a x) ≤ val (fmul b x) := by
  obtain ⟨-, ea, -⟩ := fmul_finite ha hx
  obtain ⟨-, eb, -⟩ := fmul_finite hb hx
  rw [ea, eb]
  refine roundVal_mono (by positivity) (by positivity) ?_
  exact mul_le_mul_of_nonneg_right (mul_le_mul_of_nonneg_right h h0) (by positivity)

theorem val_fmul_nonneg {a x : Word} (ha : isFinite a = true) (hx : isFinite x = true)
    (h : 0 ≤ val a) (h0 : 0 ≤ val x) : 0 ≤ val (fmul a x) := by
  obtain ⟨-, e, -⟩ := fmul_finite ha hx
  rw [e]
  exact roundVal_nonneg (mul_nonneg h h0) _

/-! ### The amplitude (R75, R76) -/

/-- The amplitude in samples lies between 0 and the center delay. -/
theorem amps_between {amp width fs : Word} (hamp : isFinite amp = true) (hw : isFinite width = true)
    (hfs : isFinite fs = true) (h0 : 0 ≤ val amp) (hle : val amp ≤ val width) (hpos : 0 ≤ val fs)
    (hc : ceil (fmul width fs) < 2 ^ 24) :
    fle posZero (fmul amp fs) = true ∧ fle (fmul amp fs) (ofNat (ceil (fmul width fs))) = true := by
  obtain ⟨hnan, -, -⟩ := fmul_finite hamp hfs
  obtain ⟨hcf, hcv⟩ := ofNat_exact hc
  obtain ⟨hceil, -⟩ := ceil_spec (val_fmul_nonneg hw hfs (h0.trans hle) hpos)
  refine ⟨fle_posZero_of_val_nonneg hnan (val_fmul_nonneg hamp hfs h0 hpos),
    fle_of_val_le hnan (isNaN_of_isFinite hcf) ?_⟩
  calc val (fmul amp fs) ≤ val (fmul width fs) := val_fmul_mono hamp hw hfs hpos hle
    _ ≤ val (ofNat (ceil (fmul width fs))) := by rwa [hcv]

/-! ### The phase increment (R77) -/

theorem val_HALF : val HALF = 2 ^ 148 := by decide +kernel

/-- A number below the rounded half of another is at most its exact half: at or above the exact half it
would be at or above the rounded one. -/
theorem two_mul_val_le_of_flt_half {f fs : Word} (hfs : isFinite fs = true)
    (h : flt f (fmul fs HALF) = true) : 2 * val f ≤ val fs := by
  obtain ⟨hf, -, hlt⟩ := (flt_iff _ _).1 h
  obtain ⟨-, hv, -⟩ := fmul_finite hfs (show isFinite HALF = true by decide)
  by_contra hgt
  have hle : val fs * val HALF ≤ val f * (2 ^ 149 : Nat) := by
    rw [val_HALF]
    push_cast
    omega
  have := roundVal_le (by positivity) hf hle
  omega

/-- The quotient f/fs lies between 0 and 0.5. -/
theorem fdiv_between_half {f fs : Word} (hf : isFinite f = true) (hfs : isFinite fs = true)
    (h0 : 0 ≤ val f) (hpos : 0 < val fs) (h : 2 * val f ≤ val fs) :
    isFinite (fdiv f fs) = true ∧ 0 ≤ val (fdiv f fs) ∧ val (fdiv f fs) ≤ val HALF := by
  have hz : isZero fs = false := by
    rw [← Bool.not_eq_true, ← val_eq_zero]
    omega
  have hmag : val fs = mag fs := val_eq_mag_of_nonneg hpos.le
  obtain ⟨-, hv, -⟩ := fdiv_finite hf hfs hz
  rw [sign_of_val_pos hpos, if_neg Bool.false_ne_true] at hv
  have hlo : 0 ≤ val (fdiv f fs) := hv ▸ roundVal_nonneg (by positivity) _
  have hhi : val (fdiv f fs) ≤ val HALF := by
    rw [hv]
    refine roundVal_le (by omega) (by decide) ?_
    rw [val_HALF, ← hmag]
    omega
  exact ⟨isFinite_of_val_le (b := HALF) (by decide) hlo hhi, hlo, hhi⟩

/-- The phase increment lies between 0 and half a turn. -/
theorem phaseIncrement_between {f fs : Word} (hf : isFinite f = true) (hfs : isFinite fs = true)
    (h0 : 0 ≤ val f) (hpos : 0 < val fs) (h : flt f (fmul fs HALF) = true) :
    fle posZero (Machine.phaseIncrement f fs) = true ∧
    fle (Machine.phaseIncrement f fs) 0x40490FDB#32 = true := by
  obtain ⟨hq, hq0, hqh⟩ := fdiv_between_half hf hfs h0 hpos (two_mul_val_le_of_flt_half hfs h)
  have hpi : isFinite TWO_PI = true := by decide
  obtain ⟨hnan, hv, -⟩ := fmul_finite hpi hq
  obtain ⟨-, hturn, -⟩ := fmul_finite hpi (show isFinite HALF = true by decide)
  have hpi0 : 0 ≤ val TWO_PI := by decide +kernel
  refine ⟨fle_posZero_of_val_nonneg hnan (val_fmul_nonneg hpi hq hpi0 hq0),
    fle_of_val_le hnan (by decide) ?_⟩
  calc val (fmul TWO_PI (fdiv f fs)) ≤ val (fmul TWO_PI HALF) := by
        rw [hv, hturn]
        exact roundVal_mono (by positivity) (by positivity)
          (mul_le_mul_of_nonneg_right (mul_le_mul_of_nonneg_left hqh hpi0) (by positivity))
    _ = val 0x40490FDB#32 := by decide +kernel

/-! ### The phase (R78) -/

/-- A phase within a turn, advanced by at most half a turn, is within a turn again. -/
theorem advance_between {p pinc : Word} (hp : fle posZero p = true) (hturn : flt p TWO_PI = true)
    (hinc : fle posZero pinc = true) (hhalf : fle pinc 0x40490FDB#32 = true) :
    fle posZero (Machine.advance pinc p) = true ∧ flt (Machine.advance pinc p) TWO_PI = true := by
  obtain ⟨-, hnT, hpT⟩ := (flt_iff _ _).1 hturn
  obtain ⟨-, -, hiH⟩ := (fle_iff _ _).1 hhalf
  have hp0 := val_nonneg_of_fle_posZero hp
  have hi0 := val_nonneg_of_fle_posZero hinc
  have hpf : isFinite p = true := isFinite_of_val_le (b := TWO_PI) (by decide) hp0 hpT.le
  have hif : isFinite pinc = true := isFinite_of_val_le (b := 0x40490FDB#32) (by decide) hi0 hiH
  obtain ⟨hqn, hqv⟩ := fadd_finite hpf hif
  have hq0 : 0 ≤ val (fadd p pinc) := hqv ▸ roundVal_nonneg (by omega) 1
  simp only [Machine.advance]
  split
  · rename_i hge
    obtain ⟨-, -, hTq⟩ := (fge_iff _ _).1 hge
    -- 0x41200000 is 10.0, above one and a half turns; 0x40800000 is 4.0, between a half turn and one
    have hq : val (fadd p pinc) ≤ val 0x41200000#32 := by
      rw [hqv]
      refine roundVal_le one_pos (by decide) ?_
      have : val TWO_PI + val 0x40490FDB#32 ≤ val 0x41200000#32 := by decide +kernel
      push_cast
      omega
    have hqf : isFinite (fadd p pinc) = true :=
      isFinite_of_val_le (b := 0x41200000#32) (by decide) hq0 hq
    obtain ⟨hrn, hrv⟩ := fsub_finite hqf (show isFinite TWO_PI = true by decide)
    refine ⟨fle_posZero_of_val_nonneg hrn (hrv ▸ roundVal_nonneg (by omega) 1),
      (flt_iff _ _).2 ⟨hrn, hnT, ?_⟩⟩
    calc val (fsub (fadd p pinc) TWO_PI) ≤ val 0x40800000#32 := by
          rw [hrv]
          refine roundVal_le one_pos (by decide) ?_
          have : val 0x41200000#32 - val TWO_PI ≤ val 0x40800000#32 := by decide +kernel
          push_cast
          omega
      _ < val TWO_PI := by decide +kernel
  · rename_i hge
    refine ⟨fle_posZero_of_val_nonneg hqn hq0, (flt_iff _ _).2 ⟨hqn, hnT, ?_⟩⟩
    by_contra hlt
    exact hge ((fge_iff _ _).2 ⟨hqn, hnT, not_lt.1 hlt⟩)

/-- A phase increment of either zero leaves the phase +0 where it is. -/
theorem advance_of_isZero {pinc : Word} (h : isZero pinc = true) :
    Machine.advance pinc posZero = posZero := by
  rcases eq_zero_of_isZero h with rfl | rfl <;> decide +kernel

/-! ### The coefficient of a time constant (R91) -/

/-- A negative number divided by one that is not negative, nor -0, is at most 0. -/
theorem fdiv_fle_posZero {a b : Word} (ha : isFinite a = true) (ha0 : val a < 0)
    (hb : isNaN b = false) (hs : sign b = false) : fle (fdiv a b) posZero = true := by
  have hsa := sign_of_val_neg ha0
  have hza : isZero a = false := by
    rw [← Bool.not_eq_true, ← val_eq_zero]
    omega
  cases hinf : isInf b
  · have hfin : isFinite b = true := by
      rw [isNaN_false_iff] at hb
      rw [isFinite_iff]
      have : absBits b ≠ 0x7F800000 := fun h => by
        rw [(isInf_iff b).2 h] at hinf
        cases hinf
      omega
    cases hz : isZero b
    · obtain ⟨hnan, hv, -⟩ := fdiv_finite ha hfin hz
      refine fle_of_val_le hnan isNaN_posZero ?_
      rw [hv, hs, if_neg Bool.false_ne_true, val_posZero, ← neg_nonneg, ← roundVal_neg]
      exact roundVal_nonneg (by omega) _
    · have : fdiv a b = negInf := by
        simp [fdiv, isNaN_of_isFinite ha, hb, isInf_of_isFinite ha, hinf, hz, hza, hsa, hs]
        decide
      rw [this]
      decide +kernel
  · have : fdiv a b = negZero := by
      simp [fdiv, isNaN_of_isFinite ha, hb, isInf_of_isFinite ha, hinf, hsa, hs]
      decide
    rw [this]
    decide

/-- 1 minus a number in [0, 1] is a number in [0, 1]. -/
theorem fsub_ONE_between {e : Word} (h0 : fle posZero e = true) (h1 : fle e ONE = true) :
    fle posZero (fsub ONE e) = true ∧ fle (fsub ONE e) ONE = true := by
  obtain ⟨-, -, hle⟩ := (fle_iff _ _).1 h1
  have hnn := val_nonneg_of_fle_posZero h0
  obtain ⟨hnan, hv⟩ := fsub_finite isFinite_ONE (isFinite_of_val_le isFinite_ONE hnn hle)
  refine ⟨fle_posZero_of_val_nonneg hnan (hv ▸ roundVal_nonneg (by omega) 1),
    fle_of_val_le hnan isNaN_ONE ?_⟩
  rw [hv]
  exact roundVal_le one_pos isNaN_ONE (by push_cast; omega)

/-- The coefficient of a finite time constant, not negative, lies between 0 and 1, whichever zero the
constant is. -/
theorem coefOf_between {F : Functions} (hF : LegalExp F.exp) {fs t : Word}
    (hfs : isFinite fs = true) (hpos : 0 < val fs) (ht : isFinite t = true) (h0 : 0 ≤ val t) :
    fle posZero (Machine.coefOf F fs t) = true ∧ fle (Machine.coefOf F fs t) ONE = true := by
  obtain ⟨-, -, -, hexp, -⟩ := hF
  have key : ∀ t', isFinite t' = true → sign t' = false →
      fle (fdiv K22 (fmul fs t')) posZero = true := fun t' hf hs => by
    obtain ⟨hnan, -, hsign⟩ := fmul_finite hfs hf
    refine fdiv_fle_posZero (by decide) (by decide +kernel) hnan ?_
    rw [hsign, sign_of_val_pos hpos, hs]
    rfl
  simp only [Machine.coefOf, feq_posZero]
  split
  · obtain ⟨he0, he1⟩ := hexp _ (key posZero (by decide) (by decide))
    exact fsub_ONE_between he0 he1
  · rename_i hz
    have hs : sign t = false := sign_of_val_pos (lt_of_le_of_ne h0 fun h =>
      hz ((val_eq_zero t).1 h.symm))
    obtain ⟨he0, he1⟩ := hexp _ (key t ht hs)
    exact fsub_ONE_between he0 he1

end Sys2Proof.Proofs
end

section
/-! Every step keeps the state sound (R30 to R33, R36): each unit's operations keep its invariant, so each
command and each host access keeps the block's. -/

namespace Sys2Proof.Proofs

open Sys2Proof.Machine Sys2Proof.Laws Sys2Proof.Spec

/-! ### A sound state, unit by unit -/

/-- The delay lines are in canonical form, and so are the cells of each. -/
def LinesCanonical (ls : Cells Line) : Prop :=
  Cells.wf (some Line.empty) ls = true ∧ ls.all (fun e => Cells.wf (some 0) e.2.cells) = true

/-- R30 to R33 for the vibrato unit, its lines in canonical form. -/
structure VibSound (p : Params) (v : Vib) : Prop where
  lines : LinesCanonical v.lines
  running : v.init = true → v.Running p
  cleared : v.init = false → v.Cleared

/-- R36 for the PPM unit, its arrays in canonical form. -/
structure PpmSound (p : Params) (m : Ppm) : Prop where
  prev : Cells.wf (some 0) m.prev = true
  out : Cells.wf (some 0) m.out = true
  running : m.init = true → m.Running p
  cleared : m.init = false → m.Cleared

theorem inv_iff (s : State) :
    s.Inv ↔ s.cfg.legal = true ∧ Memory.wf s.buf = true ∧ VibSound s.cfg s.vib ∧
      PpmSound s.cfg s.ppm := by
  constructor
  · rintro ⟨hp, harr, ⟨hvr, hvc⟩, ⟨hmr, hmc⟩⟩
    simp only [State.arraysOk, Bool.and_eq_true] at harr
    obtain ⟨⟨⟨⟨hbuf, hlines⟩, hcells⟩, hprev⟩, hout⟩ := harr
    exact ⟨hp, hbuf, ⟨⟨hlines, hcells⟩, hvr, hvc⟩, ⟨hprev, hout, hmr, hmc⟩⟩
  · rintro ⟨hp, hbuf, ⟨⟨hlines, hcells⟩, hvr, hvc⟩, ⟨hprev, hout, hmr, hmc⟩⟩
    refine ⟨hp, ?_, ⟨hvr, hvc⟩, ⟨hmr, hmc⟩⟩
    simp only [State.arraysOk, hbuf, hlines, hcells, hprev, hout, Bool.and_self]

/-- Soundness speaks of the parameters, the two units and the sample buffers only. -/
theorem inv_congr {s t : State} (h : s.Inv) (hcfg : t.cfg = s.cfg) (hvib : t.vib = s.vib)
    (hppm : t.ppm = s.ppm) (hbuf : t.buf = s.buf) : t.Inv := by
  rw [inv_iff] at h ⊢
  rwa [hcfg, hvib, hppm, hbuf]

theorem setVib_inv {s : State} {v : Vib} (h : s.Inv) (hv : VibSound s.cfg v) : (s.setVib v).Inv := by
  obtain ⟨hp, hbuf, -, hm⟩ := (inv_iff s).1 h
  exact (inv_iff _).2 ⟨hp, hbuf, hv, hm⟩

theorem setPpm_inv {s : State} {m : Ppm} (h : s.Inv) (hm : PpmSound s.cfg m) : (s.setPpm m).Inv := by
  obtain ⟨hp, hbuf, hv, -⟩ := (inv_iff s).1 h
  exact (inv_iff _).2 ⟨hp, hbuf, hv, hm⟩

/-- Writing a word of the sample buffers keeps the state sound. -/
theorem setWord_inv {s : State} (h : s.Inv) (a : Nat) (w : Word) :
    (s.setBuf (Memory.setWord s.buf a w)).Inv := by
  obtain ⟨hp, hbuf, hv, hm⟩ := (inv_iff s).1 h
  exact (inv_iff _).2 ⟨hp, wf_memory_setWord s.buf a w hbuf, hv, hm⟩

/-! ### The vibrato unit -/

theorem linesCanonical_nil : LinesCanonical [] := ⟨rfl, rfl⟩

/-- What holds of every entry of an array holds of what a lookup finds. -/
theorem of_all_of_lookup {β : Type} {p : Nat × β → Bool} {m : Cells β} {a : Nat} {b : β}
    (h : m.all p = true) (hb : Cells.lookup m a = some b) : p (a, b) = true := by
  induction m with
  | nil => cases hb
  | cons e m ih =>
    obtain ⟨k, v⟩ := e
    simp only [List.all_cons, Bool.and_eq_true] at h
    rw [lookup_cons] at hb
    split at hb
    · next hk => cases hb; rw [hk]; exact h.1
    · exact ih h.2 hb

/-- The cells of every channel's line are in canonical form, listed or not. -/
theorem wf_line_cells {v : Vib} (h : LinesCanonical v.lines) (c : Nat) :
    Cells.wf (some 0) (v.line c).cells = true := by
  rw [Vib.line, Cells.read]
  cases hl : Cells.lookup v.lines c with
  | none => rfl
  | some l =>
    obtain ⟨-, hcells⟩ := h
    exact of_all_of_lookup hcells hl

/-- Writing a word into a channel's line keeps the canonical form. -/
theorem linesCanonical_write {v : Vib} (h : LinesCanonical v.lines) (c cap : Nat) (w : Word) :
    LinesCanonical (v.setLine c ((v.line c).write cap w)).lines := by
  obtain ⟨hlines, hcells⟩ := h
  exact ⟨wf_write _ _ _ _ hlines,
    all_write _ _ _ _ _ hcells fun _ => wf_setWord _ _ _ (wf_line_cells ⟨hlines, hcells⟩ c)⟩

theorem vibSound_clear (p : Params) (v : Vib) : VibSound p v.clear :=
  ⟨linesCanonical_nil, fun h => absurd h Bool.false_ne_true, fun _ => rfl⟩

/-- A capacity that fits the delay memory is at most 2^24 (R9). -/
theorem cap_le {p : Params} {v : Vib} (hp : p.legal = true) (h : v.Running p) :
    v.cap.toNat ≤ 2 ^ 24 := by
  simp only [Params.legal, Bool.and_eq_true, decide_eq_true_eq] at hp
  have := h.fits
  omega

theorem running_write {p : Params} {v : Vib} (hp : p.legal = true) (h : v.Running p) {c : Nat}
    (hc : c < v.aNch.toNat) (w : Word) :
    (v.setLine c ((v.line c).write v.cap.toNat w)).Running p where
  rate := h.rate
  channels := h.channels
  capacity := h.capacity
  fits := h.fits
  amplitude := h.amplitude
  increment := h.increment
  phase := h.phase
  still := h.still
  writeIndex c' := by
    have hcap := cap_le hp h
    have hpos := h.capacity
    rw [line_setLine]
    split
    · exact write_widx_lt _ _ _ (by omega) (by omega)
    · exact h.writeIndex c'
  spareCells c' k hk := by
    rw [line_setLine]
    split
    · exact write_spare _ _ _ (h.writeIndex c) (h.spareCells c) k hk
    · exact h.spareCells c' k hk
  spareLines c' hc' := by
    rw [vib_setLine_aNch] at hc'
    rw [line_setLine, if_neg (by omega)]
    exact h.spareLines c' hc'

/-- A write to a channel of the unit keeps it sound; a cleared unit has no channel. -/
theorem vibSound_write {p : Params} {v : Vib} (hp : p.legal = true) (h : VibSound p v) {c : Nat}
    (hc : c < v.aNch.toNat) (w : Word) :
    VibSound p (v.setLine c ((v.line c).write v.cap.toNat w)) := by
  refine ⟨linesCanonical_write h.lines c _ w, fun hi => running_write hp (h.running hi) hc w,
    fun hi => ?_⟩
  rw [h.cleared hi] at hc
  exact absurd hc (Nat.not_lt_zero c)

/-- Advancing the phase keeps the unit sound; a cleared unit's phase stays +0. -/
theorem vibSound_advance {p : Params} {v : Vib} (h : VibSound p v) :
    VibSound p (v.setPhase (advance v.pinc v.phase)) := by
  refine ⟨h.lines, fun hi => ?_, fun hi => ?_⟩
  · have hr := h.running hi
    obtain ⟨hphase, hturn⟩ := hr.phase
    obtain ⟨hinc, hhalf⟩ := hr.increment
    exact { hr with
      phase := advance_between hphase hturn hinc hhalf
      still := fun hz => by
        rw [vib_setPhase_phase, hr.still hz]
        exact advance_of_isZero hz }
  · have hc : v = v.clear := h.cleared hi
    have hadv : advance v.clear.pinc v.clear.phase = F32.posZero :=
      advance_of_isZero (pinc := 0) (by decide)
    rw [hc, hadv]
    exact rfl

/-- What VIB_INIT latches from a legal staging is a legal running unit. -/
theorem running_vibLatched {s : State} (hp : s.cfg.legal = true) (hargs : VibArgs s)
    (hfits : VibFits s) : s.vibLatched.Running s.cfg := by
  obtain ⟨⟨hfs, hpos⟩, hnch, ⟨hf, hf0, hhalf⟩, ⟨hw, -⟩, hamp, hamp0, hle⟩ := hargs
  have hfit : s.vibCapacity ≤ s.cfg.capMax := hfits.2
  have htwice : s.vibCapacity = 2 * s.vibCenter + 2 := rfl
  simp only [Params.legal, Bool.and_eq_true, decide_eq_true_eq] at hp
  obtain ⟨-, -, hleV⟩ := (fle_iff _ _).1 hle
  have hposV := val_pos_of_flt_posZero hpos
  have hcap : s.vibLatched.cap.toNat = s.vibCapacity :=
    BitVec.toNat_ofNat _ _ |>.trans (Nat.mod_eq_of_lt (by omega))
  have hcdelay : s.vibLatched.cdelay.toNat = s.vibCenter :=
    BitVec.toNat_ofNat _ _ |>.trans (Nat.mod_eq_of_lt (by omega))
  exact {
    rate := ⟨hfs, hpos⟩
    channels := hnch
    capacity := by rw [hcap, hcdelay]
    fits := hcap ▸ hfit
    amplitude := by
      rw [hcdelay]
      exact amps_between hamp hw hfs (val_nonneg_of_fge_posZero hamp0) hleV hposV.le (by omega)
    increment := phaseIncrement_between hf hfs (val_nonneg_of_fge_posZero hf0) hposV hhalf
    phase := (by decide +kernel : F32.fle F32.posZero F32.posZero = true ∧
      F32.flt F32.posZero F32.TWO_PI = true)
    still := fun _ => rfl
    writeIndex := fun _ => by rw [hcap]; exact Nat.succ_pos _
    spareCells := fun _ _ _ => rfl
    spareLines := fun _ _ => rfl }

/-! ### The frame loops of VIB_PROCESS (R85) -/

theorem dlWrite_inv {s : State} (h : s.Inv) {c : Nat} (hc : c < s.vib.aNch.toNat) (w : Word) :
    (s.dlWrite c w).Inv := by
  obtain ⟨hp, -, hv, -⟩ := (inv_iff s).1 h
  exact setVib_inv h (vibSound_write hp hv hc w)

theorem advancePhase_inv {s : State} (h : s.Inv) : s.advancePhase.Inv := by
  obtain ⟨-, -, hv, -⟩ := (inv_iff s).1 h
  exact setVib_inv h (vibSound_advance hv)

theorem writeFrame_inv {s : State} (h : s.Inv) (n : Nat) {N : Nat} (hN : N ≤ s.vib.aNch.toNat) :
    (s.writeFrame N n).Inv := by
  induction N with
  | zero => exact h
  | succ N ih =>
    rw [writeFrame_succ]
    refine dlWrite_inv (ih (by omega)) ?_ _
    rw [writeFrame_frame]
    exact hN

theorem readFrame_inv {s : State} (h : s.Inv) (N n : Nat) (d : Word) : (s.readFrame N n d).Inv := by
  induction N with
  | zero => exact h
  | succ N ih =>
    rw [readFrame_succ]
    exact setWord_inv ih _ _

theorem vibFrames_inv {s : State} (h : s.Inv) (F : Functions) (nf : Nat) {N : Nat}
    (hN : N ≤ s.vib.aNch.toNat) : (s.vibFrames F N nf).Inv := by
  induction nf with
  | zero => exact h
  | succ nf ih =>
    rw [vibFrames_succ]
    refine advancePhase_inv (readFrame_inv (writeFrame_inv ih nf ?_) N nf _)
    rw [vibFrames_frame]
    exact hN

/-! ### The PPM unit -/

theorem ppmSound_clear (p : Params) (m : Ppm) : PpmSound p m.clear :=
  ⟨rfl, rfl, fun h => absurd h Bool.false_ne_true, fun _ => rfl⟩

theorem meterFrame_wf {s : State} {m : Meter} (N n : Nat) (h : Cells.wf (some 0) m.prev = true) :
    Cells.wf (some 0) (s.meterFrame N n m).prev = true := by
  induction N with
  | zero => exact h
  | succ N ih =>
    rw [meterFrame_succ]
    exact wf_setWord _ _ _ ih

theorem meterRun_wf {s : State} (N nf : Nat) (h : Cells.wf (some 0) s.ppm.prev = true) :
    Cells.wf (some 0) (s.meterRun N nf).prev = true := by
  induction nf with
  | zero => exact h
  | succ nf ih =>
    rw [meterRun_succ]
    split
    · exact wf_setWord _ _ _ ih
    · exact meterFrame_wf N nf ih

theorem emitAll_wf (F : Functions) {s : State} (N : Nat) (m : Meter)
    (h : Cells.wf (some 0) s.ppm.out = true) : Cells.wf (some 0) (s.emitAll F N m) = true := by
  unfold State.emitAll
  induction List.range (s.emitters N) using List.reverseRecOn with
  | nil => exact h
  | append_singleton cs c ih =>
    rw [List.foldl_append]
    exact wf_setWord _ _ _ ih

/-- PPM_PROCESS changes no register of R36. -/
theorem ppmSound_metered (F : Functions) {s : State} (h : PpmSound s.cfg s.ppm)
    (hi : s.ppm.init = true) : PpmSound s.cfg (s.metered F) := by
  obtain ⟨hrate, hch, hattack, hrelease⟩ := h.running hi
  exact ⟨meterRun_wf _ _ h.prev, emitAll_wf F _ _ h.out, fun _ => ⟨hrate, hch, hattack, hrelease⟩,
    fun hn => absurd (hn.symm.trans hi) Bool.false_ne_true⟩

/-- A legal time constant is finite and not negative, but it may be -0 (R93). -/
theorem finite_of_timeOk {p : Nat} {t : Word} (h : TimeOk p t) :
    F32.isFinite t = true ∧ 0 ≤ F32.val t := by
  obtain ⟨-, h0, hle⟩ := h
  obtain ⟨-, -, hle⟩ := (fle_iff _ _).1 hle
  have hnn := val_nonneg_of_fge_posZero h0
  refine ⟨isFinite_of_val_le ?_ hnn hle, hnn⟩
  split <;> decide

/-- The coefficient PPM_INIT or PPM_SETPARAM stores lies between 0 and 1 (R36, R91). -/
theorem config_coefOf_between {p : Nat} {fs t : Word}
    (hfs : F32.isFinite fs = true ∧ F32.fgt fs F32.posZero = true) (ht : TimeOk p t) :
    F32.fle F32.posZero (coefOf F32.config fs t) = true ∧
    F32.fle (coefOf F32.config fs t) F32.ONE = true := by
  obtain ⟨hfin, hpos⟩ := hfs
  obtain ⟨htf, ht0⟩ := finite_of_timeOk ht
  exact coefOf_between (legalExp_legal _) hfin (val_pos_of_flt_posZero hpos) htf ht0

theorem ppmSound_latched {s : State} (hargs : PpmArgs s) :
    PpmSound s.cfg (s.ppmLatched F32.config) := by
  obtain ⟨hrate, hch⟩ := hargs
  refine ⟨rfl, rfl, fun _ => ⟨hrate, hch, ?_, ?_⟩, fun h => absurd h.symm Bool.false_ne_true⟩
  · exact config_coefOf_between (p := 0) hrate (by decide +kernel)
  · exact config_coefOf_between (p := 1) hrate (by decide +kernel)

theorem ppmSound_setParam {p : Params} {m : Ppm} {id : Nat} {t : Word} (h : PpmSound p m)
    (hi : m.init = true) (ht : TimeOk id t) :
    PpmSound p (if id = 0 then { m with acoef := coefOf F32.config m.aFs t }
      else { m with rcoef := coefOf F32.config m.aFs t }) := by
  obtain ⟨hrate, hch, hattack, hrelease⟩ := h.running hi
  have hcoef := config_coefOf_between hrate ht
  have hinit : ¬m.init = false := fun hn => Bool.false_ne_true (hn.symm.trans hi)
  split
  · exact ⟨h.prev, h.out, fun _ => ⟨hrate, hch, hcoef, hrelease⟩, fun hn => absurd hn hinit⟩
  · exact ⟨h.prev, h.out, fun _ => ⟨hrate, hch, hattack, hcoef⟩, fun hn => absurd hn hinit⟩

/-! ### The commands -/

/-- A command that raises no error keeps the state sound. -/
theorem effect_inv {s : State} {i : Instr} (h : s.Inv) (hok : firstError s i = .noError) :
    (effect i s).Inv := by
  obtain ⟨hp, -, hv, hm⟩ := (inv_iff s).1 h
  cases i with
  | vibInit =>
    simp only [firstError] at hok
    split_ifs at hok with hargs hfits
    exact setVib_inv h ⟨linesCanonical_nil, fun _ => running_vibLatched hp hargs hfits,
      fun hn => absurd hn.symm Bool.false_ne_true⟩
  | vibProcess => exact vibFrames_inv h _ _ le_rfl
  | vibReset => exact setVib_inv h (vibSound_clear _ _)
  | dlWrite c =>
    simp only [firstError] at hok
    split_ifs at hok with hinit hc
    exact dlWrite_inv h (not_le.1 hc) _
  | dlRead c => exact inv_congr h rfl rfl rfl rfl
  | ppmInit =>
    simp only [firstError] at hok
    split_ifs at hok with hargs
    exact setPpm_inv h (ppmSound_latched hargs)
  | ppmProcess =>
    simp only [firstError] at hok
    split_ifs at hok with hinit hframes
    exact setPpm_inv h (ppmSound_metered _ hm (Bool.eq_true_of_not_eq_false hinit))
  | ppmReset => exact setPpm_inv h (ppmSound_clear _ _)
  | ppmSetParam p =>
    simp only [firstError] at hok
    split_ifs at hok with hinit hid ht
    exact setPpm_inv h (ppmSound_setParam hm (Bool.eq_true_of_not_eq_false hinit) ht)
  | ppmGetParam p => exact inv_congr h rfl rfl rfl rfl

theorem aftermath_inv {s : State} {i : Instr} (h : s.Inv) : (aftermath i s).Inv := by
  cases i
  case vibInit => exact setVib_inv h (vibSound_clear _ _)
  case ppmInit => exact setPpm_inv h (ppmSound_clear _ _)
  all_goals exact h

/-- Every command keeps the state sound. -/
theorem exec_inv {s t : State} {i : Instr} (h : s.Inv) (ht : exec i s = .next t) : t.Inv := by
  rw [eq_of_exec ht]
  refine inv_congr (s := outcome i s) ?_ rfl rfl rfl rfl
  by_cases hok : firstError s i = .noError
  · rw [outcome_of_success hok]
    exact effect_inv h hok
  · rw [outcome_of_error hok]
    exact aftermath_inv h

/-! ### The host's accesses -/

/-- The staging registers of R29 hold anything. -/
theorem vibSound_staging {p : Params} {v : Vib} (h : VibSound p v) (fs nch freq width amp : Word) :
    VibSound p { v with fs := fs, nch := nch, freq := freq, width := width, amp := amp } := by
  refine ⟨h.lines, fun hi => ?_, fun hi => ?_⟩
  · obtain ⟨rate, channels, capacity, fits, amplitude, increment, phase, still, writeIndex,
      spareCells, spareLines⟩ := h.running hi
    exact ⟨rate, channels, capacity, fits, amplitude, increment, phase, still, writeIndex,
      spareCells, spareLines⟩
  · have hc : v = v.clear := h.cleared hi
    rw [hc]
    exact rfl

/-- PPM_FS, PPM_NCH and PPM_CTRL hold anything (R35). -/
theorem ppmSound_staging {p : Params} {m : Ppm} (h : PpmSound p m) (fs nch : Word) (mode db : Bool) :
    PpmSound p { m with fs := fs, nch := nch, mode := mode, db := db } := by
  refine ⟨h.prev, h.out, fun hi => ?_, fun hi => ?_⟩
  · obtain ⟨rate, channels, attack, release⟩ := h.running hi
    exact ⟨rate, channels, attack, release⟩
  · have hc : m = m.clear := h.cleared hi
    rw [hc]
    exact rfl

/-- A host write to any register, but for the command it may start, keeps the state sound. -/
theorem writeReg_inv {s : State} (h : s.Inv) (r : Reg) (w : Word) : (s.writeReg r w).Inv := by
  obtain ⟨-, -, hv, hm⟩ := (inv_iff s).1 h
  cases r
  case vibFs | vibNch | vibFreq | vibWidth | vibAmp =>
    exact setVib_inv h (vibSound_staging hv _ _ _ _ _)
  case ppmFs | ppmNch | ppmCtrl => exact setPpm_inv h (ppmSound_staging hm _ _ _ _)
  case inWord | outWord => exact setWord_inv h _ _
  all_goals exact inv_congr h rfl rfl rfl rfl

/-- After hardware reset both units are cleared and nothing is written. -/
theorem hardReset_inv {s : State} (h : s.Inv) : s.hardReset.Inv :=
  (inv_iff _).2 ⟨h.params, rfl, vibSound_clear _ Vib.reset, ppmSound_clear _ Ppm.reset⟩

/-- Settles O48: by the host's next access, a write of a command word by the command's own lemma. -/
theorem stepKeepsTheStateSound : Obligations.StepKeepsTheStateSound := by
  intro s t h ht
  cases hpend : s.pending with
  | nil =>
    rw [step_nil hpend] at ht
    cases ht
    exact h
  | cons e rest =>
    have hrest : ({ s with pending := rest } : State).Inv := inv_congr h rfl rfl rfl rfl
    cases e with
    | read a =>
      rw [step_cons hpend, State.perform, State.busRead] at ht
      split at ht
      · cases ht
      · cases ht
        exact inv_congr h rfl rfl rfl rfl
    | write a w =>
      rcases step_write_cases hpend ht with rfl | ⟨r, -, rfl⟩ | ⟨-, ⟨i, -, hexec⟩ | rfl⟩
      · exact hrest
      · exact writeReg_inv hrest r w
      · have hissued : ({ s with pending := rest, cmd := w } : State).Inv :=
          inv_congr h rfl rfl rfl rfl
        exact exec_inv hissued hexec
      · exact inv_congr h rfl rfl rfl rfl
    | reset =>
      rw [step_reset hpend] at ht
      cases ht
      exact hardReset_inv hrest

end Sys2Proof.Proofs
end

section
/-! The host's accesses to the window (R44, R45): the register map covers every word that is not reserved,
a read changes nothing, and a write reaches its own word only. -/

namespace Sys2Proof.Proofs

open Sys2Proof.Machine Sys2Proof.Laws Sys2Proof.Spec

/-! ### The register map covers the window (R22, R23) -/

/-- The gaps between the single registers of the map. -/
theorem gap_of_singleReg_none {a : Nat} (ha : a < 0x100) (h4 : a % 4 = 0) (h : singleReg a = none) :
    (0x014 ≤ a ∧ a < 0x020) ∨ (0x034 ≤ a ∧ a < 0x040) ∨ (0x05C ≤ a ∧ a < 0x060) ∨
    (0x06C ≤ a ∧ a < 0x070) ∨ 0x084 ≤ a := by
  have gaps : ∀ k < 64, singleReg (4 * k) = none →
      (0x014 ≤ 4 * k ∧ 4 * k < 0x020) ∨ (0x034 ≤ 4 * k ∧ 4 * k < 0x040) ∨
      (0x05C ≤ 4 * k ∧ 4 * k < 0x060) ∨ (0x06C ≤ 4 * k ∧ 4 * k < 0x070) ∨ 0x084 ≤ 4 * k := by
    decide
  obtain ⟨k, rfl⟩ := Nat.dvd_of_mod_eq_zero h4
  exact gaps k (by omega) h

theorem singleReg_exists (p : Params) {a : Nat} {r : Reg} (h : singleReg a = some r) :
    Reg.exists p r = true := by
  unfold singleReg at h
  split at h <;> cases h <;> rfl

/-- The k-th word of a buffer is a channel's frame when the buffer has more than k words. -/
theorem slot_exists {p : Params} (hp : p.legal = true) {k : Nat} (h : k < p.nchMax * p.blkMax) :
    (decide (k / p.blkMax < p.nchMax) && decide (k % p.blkMax < p.blkMax)) = true := by
  simp only [Params.legal, Bool.and_eq_true, decide_eq_true_eq] at hp ⊢
  have hpos : 0 < p.blkMax := by omega
  exact ⟨(Nat.div_lt_iff_lt_mul hpos).2 h, Nat.mod_lt _ hpos⟩

/-- Only reserved offsets name no word. -/
theorem reserved_of_regAt_none {p : Params} {off : Nat} (hp : p.legal = true) (hoff : off < 0x30000)
    (h : regAt p off = none) : ReservedOffset p off := by
  rw [regAt, Option.filter_eq_none_iff] at h
  unfold ReservedOffset
  by_contra hres
  unfold slotReg at h
  split_ifs at h with hsingle hwidx hprev hout hgap hin hbuf
  · cases hreg : singleReg (off - off % 4) with
    | none =>
      have := gap_of_singleReg_none hsingle (by omega) hreg
      omega
    | some r => exact h r hreg (singleReg_exists p hreg)
  · exact h _ rfl (decide_eq_true (by omega))
  · exact h _ rfl (decide_eq_true (by omega))
  · exact h _ rfl (decide_eq_true (by omega))
  · omega
  · exact h _ rfl (slot_exists hp (by omega))
  · exact h _ rfl (slot_exists hp (by omega))
  · omega

/-- Only read-only offsets name a register the host cannot write. -/
theorem readOnlyOffset_of_readOnly {p : Params} {off : Nat} {r : Reg} (hreg : regAt p off = some r)
    (hr : readOnly r = true) : ReadOnlyOffset p off := by
  obtain ⟨hoff, hex⟩ := regAt_offset hreg
  unfold ReadOnlyOffset
  cases r
  case vibWidx c | ppmPrev c | ppmOut c =>
    simp only [Reg.offset, Reg.exists, decide_eq_true_eq] at hoff hex
    omega
  case cmd | arg | frames | vibFs | vibNch | vibFreq | vibWidth | vibAmp | ppmFs | ppmNch | ppmCtrl |
      inWord | outWord => cases hr
  all_goals
    simp only [Reg.offset] at hoff
    omega

/-- Every other offset of the window names a word the host can write. -/
theorem exists_writable {p : Params} {off : Nat} (hp : p.legal = true) (hoff : off < 0x30000)
    (hres : ¬ReservedOffset p off) (hro : ¬ReadOnlyOffset p off) :
    ∃ r, regAt p off = some r ∧ readOnly r = false := by
  cases hreg : regAt p off with
  | none => exact absurd (reserved_of_regAt_none hp hoff hreg) hres
  | some r =>
    exact ⟨r, rfl, Bool.eq_false_of_not_eq_true fun hr => hro (readOnlyOffset_of_readOnly hreg hr)⟩

/-- Offsets in different words name different registers. -/
theorem regAt_ne {p : Params} {off off' : Nat} {r r' : Reg} (h : regAt p off = some r)
    (h' : regAt p off' = some r') (hne : off' / 4 ≠ off / 4) : r ≠ r' := by
  rintro rfl
  obtain ⟨hoff, -⟩ := regAt_offset h
  obtain ⟨hoff', -⟩ := regAt_offset h'
  omega

theorem eq_ppmCtrl_iff {p : Params} {off : Nat} {r : Reg} (h : regAt p off = some r) :
    r = .ppmCtrl ↔ off / 4 = 0x068 / 4 := by
  constructor
  · rintro rfl
    obtain ⟨hoff, -⟩ := regAt_offset h
    simp only [Reg.offset] at hoff
    omega
  · intro hoff
    have hword : off - off % 4 = 0x068 := by omega
    rw [← regAt_aligned, hword] at h
    exact (Option.some.inj h).symm

/-! ### Reading the window after a write (R45) -/

theorem readOffset_of_some {s : State} {off : Nat} {r : Reg} (h : regAt s.cfg off = some r) :
    s.readOffset off = s.readReg r := by
  rw [State.readOffset, h]

theorem readOffset_of_none {s : State} {off : Nat} (h : regAt s.cfg off = none) :
    s.readOffset off = 0 := by
  rw [State.readOffset, h]

theorem readOffset_writeReg_same {s : State} {off : Nat} {r : Reg} (w : Word)
    (h : regAt s.cfg off = some r) (hr : readOnly r = false) :
    (s.writeReg r w).readOffset off = if off / 4 = 0x068 / 4 then w &&& 3#32 else w := by
  rw [readOffset_of_some (by rwa [writeReg_cfg]), readReg_writeReg_same s r w hr]
  simp only [eq_ppmCtrl_iff h]

theorem readOffset_writeReg_ne {s : State} (hp : s.cfg.legal = true) {off off' : Nat} {r : Reg}
    (w : Word) (h : regAt s.cfg off = some r) (hne : off' / 4 ≠ off / 4) :
    (s.writeReg r w).readOffset off' = s.readOffset off' := by
  have hcfg := writeReg_cfg s r w
  cases h' : regAt s.cfg off' with
  | none => rw [readOffset_of_none (by rwa [hcfg]), readOffset_of_none h']
  | some r' =>
    obtain ⟨-, hex⟩ := regAt_offset h
    obtain ⟨-, hex'⟩ := regAt_offset h'
    rw [readOffset_of_some (by rwa [hcfg]), readOffset_of_some h',
      readReg_writeReg_ne s hp r r' w hex hex' (regAt_ne h h' hne)]

/-- Outside the window a write changes nothing: the delay memory and the model's own fields stay. -/
theorem writeReg_beside_window (s : State) (r : Reg) (w : Word) :
    (s.writeReg r w).vib.lines = s.vib.lines ∧ (s.writeReg r w).cfg = s.cfg ∧
    (s.writeReg r w).draws = s.draws ∧ (s.writeReg r w).pending = s.pending ∧
    (s.writeReg r w).rdata = s.rdata := by
  cases r <;> exact ⟨rfl, rfl, rfl, rfl, rfl⟩

/-- Settles O7: the register the offset names, if any, decides; only CMD has an effect of its own. -/
theorem hostAccessesHaveOneEffect : Obligations.HostAccessesHaveOneEffect := by
  intro s off rest hp hoff
  refine ⟨step_read hoff, fun w h => ?_⟩
  rw [step_write hoff h]
  refine ⟨writeOffset_cmd _ w, fun hign => ?_, fun h4 hres hro => ?_⟩
  · refine writeOffset_ignored (s := { s with pending := rest }) w fun r hreg => ?_
    rcases hign with hres | hro
    · rw [regAt_of_reserved hp hres] at hreg
      cases hreg
    · exact readOnly_of_readOnlyOffset hp hro hreg
  · obtain ⟨r, hreg, hr⟩ := exists_writable hp hoff hres hro
    have hcmd : r ≠ .cmd := by
      rintro rfl
      exact absurd ((regAt_eq_cmd_iff _ _).1 hreg) (not_lt.2 h4)
    exact ⟨_, writeOffset_of_some (s := { s with pending := rest }) w hreg hcmd,
      readOffset_writeReg_same w hreg hr,
      fun _ _ => readOffset_writeReg_ne (s := { s with pending := rest }) hp w hreg,
      writeReg_beside_window _ r w⟩

/-! ### Address bits 1:0 (R44) -/

theorem readOffset_aligned (s : State) (off : Nat) :
    s.readOffset (off - off % 4) = s.readOffset off := by
  rw [State.readOffset, State.readOffset, regAt_aligned]

theorem writeOffset_aligned (s : State) (off : Nat) (w : Word) :
    s.writeOffset (off - off % 4) w = s.writeOffset off w := by
  rw [State.writeOffset, State.writeOffset, regAt_aligned]

/-- A write to CMD answers a next state, whatever the word. -/
theorem exists_startCommand (s : State) (w : Word) : ∃ t, s.startCommand w = .next t := by
  rw [State.startCommand]
  cases decode w with
  | ok i => exact ⟨_, exec_eq i _⟩
  | error _ => exact ⟨_, raise_eq _ _⟩

/-- Every write inside the window answers a next state. -/
theorem exists_writeOffset (s : State) (off : Nat) (w : Word) : ∃ t, s.writeOffset off w = .next t := by
  cases hreg : regAt s.cfg off with
  | none => exact ⟨_, writeOffset_of_none w hreg⟩
  | some r =>
    by_cases hr : r = .cmd
    · rw [writeOffset_cmd s w ((regAt_eq_cmd_iff _ _).1 (hr ▸ hreg))]
      exact exists_startCommand s w
    · exact ⟨_, writeOffset_of_some w hreg hr⟩

/-- Settles O9: an offset and the word offset below it name the same register. -/
theorem addressBitsAreIgnored : Obligations.AddressBitsAreIgnored := by
  intro s off w rest hoff
  have halign : off - off % 4 < 0x30000 := by omega
  refine ⟨⟨_, step_read hoff rfl, ?_⟩, ?_⟩
  · rw [step_read halign rfl, readOffset_aligned]
    rfl
  · obtain ⟨t, ht⟩ := exists_writeOffset { s with pending := rest } off w
    refine ⟨t, (step_write hoff rfl).trans ht, (step_write halign rfl).trans ?_⟩
    rw [writeOffset_aligned]
    exact ht

end Sys2Proof.Proofs
end

section
/-! The steps of a platform: each reaches one of its blocks only (R55). -/

namespace Sys2Proof.Proofs

open Sys2Proof.Machine

theorem stepAt_of_none {p : Platform} {k : Nat} (h : p[k]? = none) : p.stepAt k = .next p := by
  rw [Platform.stepAt, h]

theorem stepAt_of_some {p : Platform} {k : Nat} {s s' : State} (h : p[k]? = some s)
    (hs : step s = .next s') : p.stepAt k = .next (p.set k s') := by
  rw [Platform.stepAt, h]
  simp only [hs]

/-- What a step at number k can do to a platform. -/
theorem stepAt_cases {p q : Platform} {k : Nat} (h : p.stepAt k = .next q) :
    (p[k]? = none ∧ q = p) ∨
    ∃ s s', p[k]? = some s ∧ step s = .next s' ∧ q = p.set k s' := by
  cases hk : p[k]? with
  | none =>
    rw [stepAt_of_none hk] at h
    cases h
    exact .inl ⟨rfl, rfl⟩
  | some s =>
    rw [Platform.stepAt, hk] at h
    cases hs : step s with
    | next s' =>
      simp only [hs] at h
      cases h
      exact .inr ⟨s, s', rfl, hs, rfl⟩
    | fault r => simp only [hs] at h; cases h
    | refused r => simp only [hs] at h; cases h

/-- What a number that names a block names after the block is replaced. -/
theorem getElem?_set_of_some {p : Platform} {k : Nat} {s : State} (s' : State) (h : p[k]? = some s) :
    (p.set k s')[k]? = some s' := by
  obtain ⟨hk, -⟩ := List.getElem?_eq_some_iff.1 h
  exact List.getElem?_set_self hk

/-- Settles O54: a step replaces the stepped block by a state that this block alone decides. -/
theorem instancesAreDisjoint : Obligations.InstancesAreDisjoint := by
  intro p q k h
  rcases stepAt_cases h with ⟨hk, rfl⟩ | ⟨s, s', hk, hs, rfl⟩
  · refine ⟨fun _ _ => rfl, fun s hsome => ?_, fun p' hp' => ?_⟩
    · rw [hk] at hsome
      cases hsome
    · exact ⟨p', stepAt_of_none (hp'.trans hk), hp'⟩
  · refine ⟨fun j hj => List.getElem?_set_ne hj.symm, fun u hu => ?_, fun p' hp' => ?_⟩
    · rw [hk] at hu
      cases hu
      exact ⟨s', hs, getElem?_set_of_some s' hk⟩
    · have hk' := hp'.trans hk
      exact ⟨p'.set k s', stepAt_of_some hk' hs,
        (getElem?_set_of_some s' hk').trans (getElem?_set_of_some s' hk).symm⟩

end Sys2Proof.Proofs
end

section
/-! The fields of a command word, and which words the decoder accepts (R56, R58, R60). -/

namespace Sys2Proof.Proofs

open Sys2Proof.Machine Sys2Proof.Spec

/-! ### The fields of a word (R56) -/

theorem opField_eq (w : Word) : opField w = w.toNat % 2 ^ 8 := by
  simp [opField]

theorem selField_eq (w : Word) : selField w = w.toNat / 2 ^ 8 % 2 ^ 8 := by
  simp [selField, Nat.shiftRight_eq_div_pow]

theorem rsvField_eq (w : Word) : rsvField w = w.toNat / 2 ^ 16 := by
  have hw := w.isLt
  simp only [rsvField, BitVec.extractLsb'_toNat, Nat.shiftRight_eq_div_pow]
  omega

theorem toNat_eq_fields (w : Word) :
    w.toNat = 2 ^ 16 * rsvField w + 2 ^ 8 * selField w + opField w := by
  rw [opField_eq, selField_eq, rsvField_eq]
  omega

theorem selField_lt (w : Word) : selField w < 2 ^ 8 := (w.extractLsb' 8 8).isLt

/-! ### The encoder (R58, R64) -/

theorem opCode_lt (i : Instr) : opCode i < 2 ^ 8 := by
  cases i <;> simp [opCode]

/-- OP and SEL stand side by side in the word of a well-formed command. -/
theorem toNat_encode {i : Instr} (h : i.sel < 2 ^ 8) :
    (encode i).toNat = 2 ^ 8 * i.sel + opCode i := by
  have hop := opCode_lt i
  rw [encode, BitVec.toNat_or, BitVec.toNat_shiftLeft, BitVec.toNat_ofNat, BitVec.toNat_ofNat,
    Nat.shiftLeft_eq, Nat.mod_eq_of_lt (by omega), Nat.mod_eq_of_lt (by omega),
    Nat.mod_eq_of_lt (by omega), Nat.lor_comm, Nat.mul_comm, Nat.two_pow_add_eq_or_of_lt hop]

/-! ### The rows of the opcode table (R58) -/

/-- The ten OP values of R58. -/
def rowOps : List Nat := [0x01, 0x02, 0x03, 0x04, 0x05, 0x11, 0x12, 0x13, 0x14, 0x15]

/-- The OP values of the rows of R58 that say of SEL "must be 0". -/
def selZeroOps : List Nat := [0x01, 0x02, 0x03, 0x11, 0x12, 0x13]

/-- What a row of the table gives: the OP's command, with the selector where the row takes one. -/
theorem opRow_some {op sel : Nat} {i : Instr} {selMustBeZero : Bool}
    (h : opRow op sel = some (i, selMustBeZero)) :
    opCode i = op ∧ (i.sel = if selMustBeZero then 0 else sel) ∧
    (selMustBeZero = true ↔ op ∈ selZeroOps) := by
  unfold opRow at h
  split at h
  case h_11 => cases h
  all_goals
    cases h
    exact ⟨rfl, rfl, by decide⟩

/-- The table has a row for the ten OPs and for no other (R61). -/
theorem opRow_eq_none_iff (op sel : Nat) : opRow op sel = none ↔ op ∉ rowOps := by
  unfold opRow
  split
  case h_11 => simp_all [rowOps]
  all_goals simp [rowOps]

/-! ### The decoder (R60) -/

/-- A word decodes when its OP has a row, its RSV is 0, and its SEL is 0 where the row asks for it. -/
theorem decode_eq_ok_iff (w : Word) (i : Instr) :
    decode w = .ok i ↔ ∃ selMustBeZero, opRow (opField w) (selField w) = some (i, selMustBeZero) ∧
      rsvField w = 0 ∧ (selMustBeZero = true → selField w = 0) := by
  unfold decode
  cases opRow (opField w) (selField w) with
  | none => simp
  | some row =>
    obtain ⟨j, selMustBeZero⟩ := row
    simp only [Option.some.injEq, Prod.mk.injEq]
    split_ifs with hrsv hsel
    · simp [hrsv]
    · simp only [false_iff]
      rintro ⟨_, ⟨-, rfl⟩, -, hzero⟩
      exact hsel.2 (hzero hsel.1)
    · simp only [Except.ok.injEq]
      refine ⟨fun hi => ⟨_, ⟨hi, rfl⟩, not_not.1 hrsv, fun hz => ?_⟩, fun ⟨_, ⟨hi, _⟩, _⟩ => hi⟩
      by_contra hne
      exact hsel ⟨hz, hne⟩

/-- A word that decodes is the word of the well-formed command it decodes to. -/
theorem encode_of_decode {w : Word} {i : Instr} (h : decode w = .ok i) :
    i.wellFormed = true ∧ encode i = w := by
  obtain ⟨selMustBeZero, hrow, hrsv, hsel⟩ := (decode_eq_ok_iff w i).1 h
  obtain ⟨hop, hi, -⟩ := opRow_some hrow
  have hsame : i.sel = selField w := by
    cases selMustBeZero with
    | true => exact hi.trans (hsel rfl).symm
    | false => exact hi
  have hlt : i.sel < 2 ^ 8 := hsame ▸ selField_lt w
  refine ⟨decide_eq_true hlt, BitVec.eq_of_toNat_eq ?_⟩
  rw [toNat_encode hlt, toNat_eq_fields w, hrsv, hop, hsame, Nat.mul_zero, Nat.zero_add]

/-- The three clauses of R60, on the fields of a word. -/
theorem illegalWord_iff (w : Word) :
    IllegalWord w ↔ opField w ∉ rowOps ∨ rsvField w ≠ 0 ∨
      (opField w ∈ selZeroOps ∧ selField w ≠ 0) := by
  rw [opField_eq, selField_eq, rsvField_eq]
  rfl

/-- The decoder rejects the illegal words of R60 and no others. -/
theorem not_illegalWord_iff (w : Word) : ¬IllegalWord w ↔ ∃ i, decode w = .ok i := by
  simp only [illegalWord_iff, not_or, not_and, not_not, decode_eq_ok_iff]
  constructor
  · rintro ⟨hop, hrsv, hsel⟩
    cases hrow : opRow (opField w) (selField w) with
    | none => exact absurd hop ((opRow_eq_none_iff _ _).1 hrow)
    | some row =>
      obtain ⟨i, selMustBeZero⟩ := row
      obtain ⟨-, -, hzero⟩ := opRow_some hrow
      exact ⟨i, selMustBeZero, rfl, hrsv, fun hz => hsel (hzero.1 hz)⟩
  · rintro ⟨i, selMustBeZero, hrow, hrsv, hsel⟩
    obtain ⟨-, -, hzero⟩ := opRow_some hrow
    refine ⟨?_, hrsv, fun hmem => hsel (hzero.2 hmem)⟩
    by_contra hop
    rw [(opRow_eq_none_iff _ _).2 hop] at hrow
    cases hrow

/-- Settles O3: the decoder rejects the illegal words alone, and each other word decodes to the command
whose encoding it is. -/
theorem illegalWordsOnlyRaise : Obligations.IllegalWordsOnlyRaise := by
  intro s w rest hiss
  constructor
  · intro hill
    cases hd : decode w with
    | ok i => exact absurd hill ((not_illegalWord_iff w).2 ⟨i, hd⟩)
    | error e => exact step_of_issues_illegal hiss hd
  · intro hlegal
    obtain ⟨i, hd⟩ := (not_illegalWord_iff w).1 hlegal
    obtain ⟨hwf, henc⟩ := encode_of_decode hd
    exact ⟨i, hwf, henc, step_of_issues hiss hd⟩

end Sys2Proof.Proofs
end

section
/-! The delay line (R66 to R74): what a write stores, which delays are valid, what a read returns, and what
a line holds after a sequence of writes. -/

namespace Sys2Proof.Proofs

open Sys2Proof.Machine Sys2Proof.Laws Sys2Proof.Spec

/-! ### DL_WRITE (R66) -/

/-- DL_WRITE on an initialized unit's own channel writes ARG and reports no error. -/
theorem exec_dlWrite {s : State} {c : Nat} (hinit : s.vib.init = true) (hc : c < s.vib.aNch.toNat) :
    exec (.dlWrite c) s = .next ((s.dlWrite c s.arg).setErr .noError) := by
  have hok : firstError s (.dlWrite c) = .noError := by
    simp only [firstError, hinit, not_le.2 hc, if_false, Bool.true_eq_false]
  rw [exec_eq, hok, outcome_of_success hok, effect]

/-- Settles O21: DL_WRITE's new lines are those of the line write, whose cells and index are known. -/
theorem dlWriteStoresAndAdvances : Obligations.DlWriteStoresAndAdvances := by
  intro s c hinit hc hcap
  refine ⟨(s.dlWrite c s.arg).vib.lines, exec_dlWrite hinit hc, ?_⟩
  have hline : Cells.read Line.empty (s.dlWrite c s.arg).vib.lines c =
      (s.vib.line c).write s.vib.cap.toNat s.arg := (line_dlWrite s c s.arg c).trans (if_pos rfl)
  rw [hline]
  refine ⟨?_, fun k hk => ?_, ?_, fun c' hc' => ?_⟩
  · rw [write_cells, if_pos rfl]
  · rw [write_cells, if_neg hk]
  · exact write_widx _ _ _ hcap s.vib.cap.isLt.le
  · exact (line_dlWrite s c s.arg c').trans (if_neg hc')

/-! ### Valid delays (R69) -/

/-- Past the checks of the unit and the channel, DL_READ's error depends on the delay alone. -/
theorem firstError_dlRead {s : State} {c : Nat} (hinit : s.vib.init = true)
    (hc : c < s.vib.aNch.toNat) :
    firstError s (.dlRead c) =
      if ¬DelayOk s.arg s.vib.cap.toNat then .invalidArgs else .noError := by
  simp only [firstError, hinit, not_le.2 hc, if_false, Bool.true_eq_false]

/-- A valid delay for a capacity up to 2^24, by its exact value. -/
theorem delayOk_iff_val (d : Word) {C : Nat} (h1 : 1 ≤ C) (hC : C ≤ 2 ^ 24) :
    DelayOk d C ↔ F32.isNaN d = false ∧ 0 ≤ F32.val d ∧ F32.val d ≤ ((C - 1 : Nat) : Int) * 2 ^ 149 := by
  obtain ⟨-, hval⟩ := ofNat_exact (i := C - 1) (by omega)
  simp only [DelayOk, fge_iff, fle_iff, val_posZero, isNaN_posZero, isNaN_ofNat, hval]
  tauto

/-- A valid delay lies between 0 and a finite value, so it is finite. -/
theorem isFinite_of_delayOk {d : Word} {C : Nat} (h1 : 1 ≤ C) (hC : C ≤ 2 ^ 24) (h : DelayOk d C) :
    F32.isFinite d = true := by
  obtain ⟨hfin, hval⟩ := ofNat_exact (i := C - 1) (by omega)
  obtain ⟨-, hnonneg, hle⟩ := (delayOk_iff_val d h1 hC).1 h
  rw [isFinite_iff_val] at hfin ⊢
  rw [← hval] at hle
  rw [abs_of_nonneg hnonneg]
  exact hle.trans_lt ((le_abs_self _).trans_lt hfin)

/-- Settles O22: the validity check by exact values, and DL_READ's only error past the channel's check. -/
theorem delayValidityIsExact : Obligations.DelayValidityIsExact := by
  refine ⟨fun d C h1 hC => ⟨delayOk_iff_val d h1 hC, fun hinf hok => ?_, fun hzero => ?_⟩,
    fun s c hinit hc hbad => ?_⟩
  · have hfin := isFinite_of_delayOk h1 hC hok
    rw [isFinite_of_isInf hinf] at hfin
    cases hfin
  · rw [delayOk_iff_val d h1 hC, (val_eq_zero d).2 hzero]
    exact ⟨isNaN_of_isZero hzero, le_refl 0, by positivity⟩
  · have herr : firstError s (.dlRead c) = .invalidArgs :=
      (firstError_dlRead hinit hc).trans (if_pos hbad)
    rw [exec_eq, herr, outcome_of_error (by rw [herr]; decide)]
    rfl

/-! ### DL_READ (R68, R70) -/

/-- DL_READ on an initialized unit's own channel puts the line's value at a valid delay into RESULT. -/
theorem exec_dlRead {s : State} {c : Nat} (hinit : s.vib.init = true) (hc : c < s.vib.aNch.toNat)
    (hd : DelayOk s.arg s.vib.cap.toNat) :
    exec (.dlRead c) s = .next ((s.setResult (s.dlRead c s.arg)).setErr .noError) := by
  have hok : firstError s (.dlRead c) = .noError :=
    (firstError_dlRead hinit hc).trans (if_neg (not_not.2 hd))
  rw [exec_eq, hok, outcome_of_success hok, effect]

/-- A read, its case split on the exact value of the delay's fraction. -/
theorem read_eq (C : Nat) (l : Line) (d : Word) :
    l.read C d =
      if F32.val (F32.fsub d (F32.ofNat (F32.floor d))) = 0 then l.tap C (F32.floor d)
      else interp (l.tap C (F32.floor d)) (l.tap C (F32.floor d + 1))
        (F32.fsub d (F32.ofNat (F32.floor d))) := by
  simp only [Line.read, feq_posZero, val_eq_zero]

/-- The whole part of a delay of at most n is at most n, and below n when the fraction is not 0. -/
theorem floor_le_of_val_le {d : Word} {n : Nat} (hnonneg : 0 ≤ F32.val d)
    (hle : F32.val d ≤ (n : Int) * 2 ^ 149) :
    F32.floor d ≤ n ∧ (F32.val d - (F32.floor d : Int) * 2 ^ 149 ≠ 0 → F32.floor d + 1 ≤ n) := by
  obtain ⟨hfloor, -⟩ := floor_spec hnonneg
  exact ⟨by omega, fun hfrac => by omega⟩

/-- Settles O23: the whole part is the delay's floor and the fraction the exact difference, so the read's
own case split is the statement's. -/
theorem dlReadInterpolates : Obligations.DlReadInterpolates := by
  intro s c hinit hc h1 hC hd
  obtain ⟨-, hnonneg, hle⟩ := (delayOk_iff_val s.arg h1 hC).1 hd
  obtain ⟨hfin, hval⟩ := val_fraction (isFinite_of_delayOk h1 hC hd) hnonneg
  obtain ⟨hlow, hhigh⟩ := floor_spec hnonneg
  obtain ⟨hi, hi'⟩ := floor_le_of_val_le hnonneg hle
  refine ⟨F32.floor s.arg, F32.fsub s.arg (F32.ofNat (F32.floor s.arg)), hi, hfin, hval, ?_, ?_, ?_, ?_⟩
  · rw [hval]; omega
  · rw [hval]; omega
  · rwa [hval]
  · rw [exec_dlRead hinit hc hd, State.dlRead, read_eq]
    rfl

/-! ### A sequence of writes (R74) -/

/-- A line after the words of a list have been written to it, the first word first. -/
def writeAll (C : Nat) (l : Line) (vs : List Word) : Line := vs.foldl (Line.write C) l

theorem writeAll_concat (C : Nat) (l : Line) (vs : List Word) (v : Word) :
    writeAll C l (vs ++ [v]) = (writeAll C l vs).write C v := by
  rw [writeAll, List.foldl_concat, writeAll]

/-- Writes to channel c leave the capacity, and write the words into that channel's line. -/
theorem foldl_dlWrite (s : State) (c : Nat) (vs : List Word) :
    (vs.foldl (fun s v => s.dlWrite c v) s).vib.cap = s.vib.cap ∧
    (vs.foldl (fun s v => s.dlWrite c v) s).vib.line c =
      writeAll s.vib.cap.toNat (s.vib.line c) vs := by
  induction vs generalizing s with
  | nil => exact ⟨rfl, rfl⟩
  | cons v vs ih =>
    obtain ⟨hcap, hline⟩ := ih (s.dlWrite c v)
    rw [line_dlWrite, if_pos rfl, dlWrite_vib_cap] at hline
    exact ⟨hcap, hline⟩

/-- A read of channel c after a sequence of writes to it. -/
theorem dlRead_foldl_dlWrite (s : State) (c : Nat) (vs : List Word) (d : Word) :
    (vs.foldl (fun s v => s.dlWrite c v) s).dlRead c d =
      (writeAll s.vib.cap.toNat (s.vib.line c) vs).read s.vib.cap.toNat d := by
  obtain ⟨hcap, hline⟩ := foldl_dlWrite s c vs
  rw [State.dlRead, hcap, hline]

section
variable {C : Nat} {l : Line}

/-- The write index advances once per word, modulo the capacity. -/
theorem writeAll_widx (hw : l.widx.toNat < C) (hC : C ≤ 2 ^ 32) (vs : List Word) :
    (writeAll C l vs).widx.toNat = (l.widx.toNat + vs.length) % C := by
  induction vs using List.reverseRecOn with
  | nil => exact (Nat.mod_eq_of_lt hw).symm
  | append_singleton vs v ih =>
    rw [writeAll_concat, write_widx _ _ _ (by omega) hC, ih, Nat.mod_add_mod, List.length_append,
      List.length_singleton, Nat.add_assoc]

theorem writeAll_widx_lt (hw : l.widx.toNat < C) (hC : C ≤ 2 ^ 32) (vs : List Word) :
    (writeAll C l vs).widx.toNat < C := by
  rw [writeAll_widx hw hC]
  exact Nat.mod_lt _ (by omega)

/-- The taps after a sequence of writes: its words from the last to the first, then the old taps. -/
theorem tap_writeAll (hw : l.widx.toNat < C) (hC : C ≤ 2 ^ 32) (vs : List Word) {k : Nat}
    (hk : k < C) :
    (writeAll C l vs).tap C k =
      if h : k < vs.length then vs[vs.length - 1 - k] else l.tap C (k - vs.length) := by
  induction vs using List.reverseRecOn generalizing k with
  | nil => rfl
  | append_singleton vs v ih =>
    rw [writeAll_concat, tap_write _ _ _ (writeAll_widx_lt hw hC vs) hC k hk]
    cases k with
    | zero => simp
    | succ k =>
      rw [if_neg (Nat.succ_ne_zero k), Nat.add_sub_cancel, ih (by omega)]
      by_cases h : k < vs.length
      · rw [dif_pos h, dif_pos (by simpa using h),
          List.getElem_append_left (by rw [List.length_append, List.length_singleton]; omega)]
        congr 1
        rw [List.length_append, List.length_singleton]
        omega
      · rw [dif_neg h, dif_neg (by simpa using h)]
        simp

/-- Each of a line's C cells is one of its C taps. -/
theorem exists_tap_eq_cell (hw : l.widx.toNat < C) {j : Nat} (hj : j < C) :
    ∃ k < C, Cells.word l.cells j = l.tap C k := by
  obtain ⟨k, hk, hindex⟩ : ∃ k < C, (l.widx.toNat + C - 1 - k) % C = j := by
    by_cases h : j < l.widx.toNat
    · refine ⟨l.widx.toNat - 1 - j, by omega, ?_⟩
      rw [tap_index _ _ _ hw (by omega), if_pos (by omega)]
      omega
    · refine ⟨l.widx.toNat + C - 1 - j, by omega, ?_⟩
      rw [tap_index _ _ _ hw (by omega), if_neg (by omega)]
      omega
  exact ⟨k, hk, by rw [Line.tap, hindex]⟩

/-- A full round of writes leaves the write index where it was. -/
theorem writeAll_widx_full (hw : l.widx.toNat < C) (hC : C ≤ 2 ^ 32) {vs : List Word}
    (hlen : vs.length = C) : (writeAll C l vs).widx = l.widx := by
  apply BitVec.eq_of_toNat_eq
  rw [writeAll_widx hw hC, hlen, Nat.add_mod_right, Nat.mod_eq_of_lt hw]

/-- After a full round of writes every cell holds one of the written words. -/
theorem cell_writeAll_full (hw : l.widx.toNat < C) (hC : C ≤ 2 ^ 32) {vs : List Word}
    (hlen : vs.length = C) {j : Nat} (hj : j < C) :
    Cells.word (writeAll C l vs).cells j ∈ vs := by
  obtain ⟨k, hk, hcell⟩ := exists_tap_eq_cell (writeAll_widx_lt hw hC vs) hj
  rw [hcell, tap_writeAll hw hC vs hk, dif_pos (hlen ▸ hk)]
  exact List.getElem_mem _

end

/-- Every tap of a cleared line is +0. -/
theorem tap_empty (C k : Nat) : Line.empty.tap C k = 0 := rfl

/-- A successful DL_READ, repeated at once, answers the state it left. -/
theorem exec_dlRead_again {c : Nat} {t u : State} (h : exec (.dlRead c) t = .next u)
    (herr : u.err = .noError) : exec (.dlRead c) u = .next u := by
  have hok : firstError t (.dlRead c) = .noError := (err_of_exec h).symm.trans herr
  obtain rfl : u = (t.setResult (t.dlRead c t.arg)).setErr .noError := by
    rw [eq_of_exec h, hok, outcome_of_success hok, effect]
  have hok' : firstError ((t.setResult (t.dlRead c t.arg)).setErr .noError) (.dlRead c) = .noError := hok
  rw [exec_eq, hok', outcome_of_success hok']
  rfl

/-- Settles O24: a whole-number read is a tap, and the taps after the writes are the written words, the
last one first, then the old taps. -/
theorem delayLineLaws : Obligations.DelayLineLaws := by
  intro s c vs h1 hC hw t
  have hC' : s.vib.cap.toNat ≤ 2 ^ 32 := s.vib.cap.isLt.le
  have hread : ∀ k < s.vib.cap.toNat, t.dlRead c (F32.ofNat k) =
      if h : k < vs.length then vs[vs.length - 1 - k]
      else (s.vib.line c).tap s.vib.cap.toNat (k - vs.length) := fun k hk => by
    rw [dlRead_foldl_dlWrite, read_ofNat _ _ (by omega), tap_writeAll hw hC' vs hk]
  obtain ⟨-, hline⟩ := foldl_dlWrite s c vs
  refine ⟨fun k hk => ?_, fun hempty k hk hlen => ?_, fun hne => ?_,
    fun u => exec_dlRead_again, fun hlen => ?_⟩
  · rw [hread k hk, State.dlRead, read_ofNat _ _ (by omega)]
  · rw [hread k hk, dif_neg (by omega), hempty, tap_empty]
  · have hpos : 0 < vs.length := List.length_pos_iff.2 hne
    have hzero : F32.posZero = F32.ofNat 0 := by decide
    rw [hzero, hread 0 h1, dif_pos hpos, List.getLast_eq_getElem]
    rfl
  · rw [hline]
    exact ⟨writeAll_widx_full hw hC' hlen, fun k hk => cell_writeAll_full hw hC' hlen hk⟩

end Sys2Proof.Proofs
end

section
/-! VIB_RESET, and how a unit that a failed INIT has cleared becomes initialized again (R82, R84, R100). -/

namespace Sys2Proof.Proofs

open Sys2Proof.Machine Sys2Proof.Laws Sys2Proof.Spec

/-! ### A cleared vibrato unit (R82) -/

/-- A line of a cleared unit has write index 0 and every cell +0. -/
theorem line_clear (v : Vib) (c : Nat) :
    (v.clear.line c).widx = 0 ∧ ∀ k, Cells.word (v.clear.line c).cells k = 0 :=
  ⟨rfl, fun _ => rfl⟩

/-- Settles O18: VIB_RESET leaves the cleared unit. -/
theorem vibResetClearsTheUnit : Obligations.VibResetClearsTheUnit :=
  fun s => ⟨s.vib.clear, rfl, line_clear s.vib, rfl⟩

/-! ### Commands that raise an error (R113) -/

theorem exec_of_error {i : Instr} {s : State} {e : ErrCode} (h : firstError s i = e)
    (he : e ≠ .noError) : exec i s = .next ((aftermath i s).setErr e) := by
  rw [exec_eq, h, outcome_of_error (h ▸ he)]

theorem eq_of_exec_of_error {i : Instr} {s t : State} (h : exec i s = .next t)
    (herr : t.err ≠ .noError) : t = (aftermath i s).setErr t.err := by
  rw [exec_of_error (err_of_exec h).symm herr] at h
  exact (Host.Outcome.next.inj h).symm

/-! ### What initializes a unit (R84, R100) -/

/-- Only PPM_INIT and PPM_RESET change PINIT (R25). -/
theorem outcome_ppm_init {i : Instr} (s : State) (hinit : i ≠ .ppmInit) (hreset : i ≠ .ppmReset) :
    (outcome i s).ppm.init = s.ppm.init := by
  refine outcome_elim (P := fun t => t.ppm.init = s.ppm.init) ?_ ?_
  · cases i
    case ppmInit => exact absurd rfl hinit
    case ppmReset => exact absurd rfl hreset
    case vibProcess => rw [effect, vibFrames_frame]
    case ppmSetParam p => simp only [effect, setPpm_ppm]; split <;> rfl
    all_goals rfl
  · cases i
    case ppmInit => exact absurd rfl hinit
    all_goals rfl

/-- The only command that initializes the vibrato unit is a VIB_INIT that raises no error. -/
theorem vibInit_of_exec {i : Instr} {s t : State} (h : exec i s = .next t)
    (hs : s.vib.init = false) (ht : t.vib.init = true) : i = .vibInit ∧ t.err = .noError := by
  have hreset : i ≠ .vibReset := by rintro rfl; cases h; cases ht
  obtain rfl : i = .vibInit := by
    by_contra hi
    rw [eq_of_exec h, setErr_vib, outcome_vib_init s hi hreset, hs] at ht
    cases ht
  refine ⟨rfl, by_contra fun herr => ?_⟩
  rw [eq_of_exec_of_error h herr] at ht
  cases ht

/-- The only command that initializes the PPM unit is a PPM_INIT that raises no error. -/
theorem ppmInit_of_exec {i : Instr} {s t : State} (h : exec i s = .next t)
    (hs : s.ppm.init = false) (ht : t.ppm.init = true) : i = .ppmInit ∧ t.err = .noError := by
  have hreset : i ≠ .ppmReset := by rintro rfl; cases h; cases ht
  obtain rfl : i = .ppmInit := by
    by_contra hi
    rw [eq_of_exec h, setErr_ppm, outcome_ppm_init s hi hreset, hs] at ht
    cases ht
  refine ⟨rfl, by_contra fun herr => ?_⟩
  rw [eq_of_exec_of_error h herr] at ht
  cases ht

theorem writeReg_init (s : State) (r : Reg) (w : Word) :
    (s.writeReg r w).vib.init = s.vib.init ∧ (s.writeReg r w).ppm.init = s.ppm.init := by
  cases r <;> exact ⟨rfl, rfl⟩

/-- What a step does to VINIT and PINIT: it keeps them, or clears them (reset), or runs a command. -/
theorem step_init_cases {s t : State} (ht : step s = .next t) :
    (t.vib.init = s.vib.init ∧ t.ppm.init = s.ppm.init) ∨
    (t.vib.init = false ∧ t.ppm.init = false) ∨
    ∃ w rest i, Issues s w rest ∧ decode w = .ok i ∧
      exec i { s with pending := rest, cmd := w } = .next t := by
  cases hpend : s.pending with
  | nil =>
    rw [step_nil hpend] at ht
    cases ht
    exact .inl ⟨rfl, rfl⟩
  | cons e rest =>
    cases e with
    | read a =>
      rw [step_cons hpend, State.perform, State.busRead] at ht
      split at ht
      · cases ht
      · cases ht
        exact .inl ⟨rfl, rfl⟩
    | write a w =>
      rcases step_write_cases hpend ht with rfl | ⟨r, -, rfl⟩ | ⟨hiss, ⟨i, hd, hexec⟩ | rfl⟩
      · exact .inl ⟨rfl, rfl⟩
      · exact .inl (writeReg_init _ r w)
      · exact .inr (.inr ⟨w, rest, i, hiss, hd, hexec⟩)
      · exact .inl ⟨rfl, rfl⟩
    | reset =>
      rw [step_reset hpend] at ht
      cases ht
      exact .inr (.inl ⟨rfl, rfl⟩)

/-- Settles O20: a failed INIT leaves the cleared unit, whose flag every other command checks first; and a
step that sets the flag runs a command, which is then that unit's INIT. -/
theorem failedInitLeavesTheUnitUnusable : Obligations.FailedInitLeavesTheUnitUnusable := by
  refine ⟨fun s t h herr => ?_, fun s t h herr => ?_, fun s hinit i hi => ?_,
    fun s hinit i hi => ?_, fun s t h hs ht => ?_, fun s t h hs ht => ?_⟩
  · rw [eq_of_exec_of_error h herr]
    exact ⟨rfl, rfl, line_clear s.vib⟩
  · rw [eq_of_exec_of_error h herr]
    exact ⟨rfl, rfl⟩
  · rcases hi with rfl | ⟨c, rfl | rfl⟩ <;> exact exec_of_error (if_pos hinit) nofun
  · rcases hi with rfl | ⟨p, rfl | rfl⟩ <;> exact exec_of_error (if_pos hinit) nofun
  · rcases step_init_cases h with ⟨hsame, -⟩ | ⟨hclear, -⟩ | ⟨w, rest, i, hiss, hd, hexec⟩
    · rw [hsame, hs] at ht
      cases ht
    · rw [hclear] at ht
      cases ht
    · obtain ⟨rfl, herr⟩ := vibInit_of_exec hexec hs ht
      exact ⟨herr, w, rest, hiss, hd⟩
  · rcases step_init_cases h with ⟨-, hsame⟩ | ⟨-, hclear⟩ | ⟨w, rest, i, hiss, hd, hexec⟩
    · rw [hsame, hs] at ht
      cases ht
    · rw [hclear] at ht
      cases ht
    · obtain ⟨rfl, herr⟩ := ppmInit_of_exec hexec hs ht
      exact ⟨herr, w, rest, hiss, hd⟩

end Sys2Proof.Proofs
end

section
/-! The modulator of the vibrato unit (R76 to R80): what VIB_INIT latches for it, the exact wrap of the
phase, and the range of the instantaneous delay. -/

namespace Sys2Proof.Proofs

open Sys2Proof.F32 Sys2Proof.Machine Sys2Proof.Laws Sys2Proof.Spec

/-! ### VIB_INIT (R76, R77, R83) -/

/-- VIB_INIT with valid parameters that fit latches them. -/
theorem exec_vibInit {s : State} (hargs : VibArgs s) (hfits : VibFits s) :
    exec .vibInit s = .next ((s.setVib s.vibLatched).setErr .noError) := by
  have hok : firstError s .vibInit = .noError := by
    rw [firstError, if_neg (not_not.2 hargs), if_neg (not_not.2 hfits)]
  rw [exec_eq, hok, outcome_of_success hok, effect]

/-- A center delay that fits the delay memory is below 2^24 (R9). -/
theorem vibCenter_lt {s : State} (hp : s.cfg.legal = true) (hfits : VibFits s) :
    ceil (fmul s.vib.width s.vib.fs) < 2 ^ 24 := by
  obtain ⟨-, hcap⟩ := hfits
  simp only [Params.legal, Bool.and_eq_true, decide_eq_true_eq] at hp
  omega

theorem vibLatched_cdelay {s : State} (hp : s.cfg.legal = true) (hfits : VibFits s) :
    s.vibLatched.cdelay.toNat = ceil (fmul s.vib.width s.vib.fs) :=
  (BitVec.toNat_ofNat _ _).trans
    (Nat.mod_eq_of_lt ((vibCenter_lt hp hfits).trans (by norm_num)))

/-- A number that is not negative is at most the whole number above it. -/
theorem fle_ofNat_ceil {p : Word} (hp : isFinite p = true) (h0 : 0 ≤ val p) (hc : ceil p < 2 ^ 24) :
    fle p (ofNat (ceil p)) = true := by
  obtain ⟨hfin, hval⟩ := ofNat_exact hc
  obtain ⟨hle, -⟩ := ceil_spec h0
  exact fle_of_val_le (isNaN_of_isFinite hp) (isNaN_of_isFinite hfin) (hval ▸ hle)

/-- Settles O26: the rounded product grows with its first factor, and the center delay is the ceiling. -/
theorem amplitudeIsAtMostTheCenterDelay : Obligations.AmplitudeIsAtMostTheCenterDelay := by
  intro s t hp hargs hfits ht
  have hcenter := vibCenter_lt hp hfits
  have hcdelay := vibLatched_cdelay hp hfits
  rw [exec_vibInit hargs hfits] at ht
  cases ht
  obtain ⟨⟨hfs, hpos⟩, -, -, ⟨hw, hw0⟩, hamp, -, hle⟩ := hargs
  obtain ⟨hP, -⟩ := hfits
  obtain ⟨-, -, hle⟩ := (fle_iff _ _).1 hle
  have hfs0 := (val_pos_of_flt_posZero hpos).le
  refine ⟨rfl, fle_of_val_le (fmul_finite hamp hfs).1 (isNaN_of_isFinite hP)
    (val_fmul_mono hamp hw hfs hfs0 hle), ?_⟩
  rw [setErr_vib, setVib_vib, hcdelay]
  exact fle_ofNat_ceil hP (val_fmul_nonneg hw hfs (val_nonneg_of_fge_posZero hw0) hfs0) hcenter

/-- The rounded product of TWO_PI and one half. -/
theorem fmul_TWO_PI_HALF : fmul TWO_PI HALF = 0x40490FDB#32 := by decide +kernel

/-- Settles O27: the quotient is at most one half, and the product with TWO_PI is monotone. -/
theorem phaseIncrementIsAtMostHalfATurn : Obligations.PhaseIncrementIsAtMostHalfATurn := by
  refine ⟨fun s t hargs hfits ht => ?_, fun f fs hfs hpos hf hf0 hhalf => ?_, fmul_TWO_PI_HALF⟩
  · rw [exec_vibInit hargs hfits] at ht
    cases ht
    rfl
  · have h0 := val_nonneg_of_fge_posZero hf0
    have hfs0 := val_pos_of_flt_posZero hpos
    obtain ⟨hq, -, hle⟩ :=
      fdiv_between_half hf hfs h0 hfs0 (two_mul_val_le_of_flt_half hfs hhalf)
    exact ⟨fle_of_val_le (isNaN_of_isFinite hq) (by decide) hle,
      phaseIncrement_between hf hfs h0 hfs0 hhalf⟩

/-! ### The wrap of the phase (R78) -/

/-- A finite number of at least 4.0 is a whole multiple of 2^-21, which is 2^128 units. -/
theorem dvd_val_of_four_le {q : Word} (hq : isFinite q = true) (h : 2 ^ 151 ≤ val q) :
    (2 : Int) ^ 128 ∣ val q := by
  obtain ⟨n, e, hmag, hn, -⟩ := mag_significand hq
  have hval : val q = ((n * 2 ^ e : Nat) : Int) := by
    rw [val_eq_mag_of_nonneg (le_trans (by positivity) h), hmag]
  have he : 128 ≤ e := by
    by_contra hlt
    have : n * 2 ^ e < 2 ^ 24 * 2 ^ 127 :=
      Nat.mul_lt_mul_of_lt_of_le hn (Nat.pow_le_pow_right (by decide) (by omega)) (by positivity)
    rw [hval] at h
    have : 2 ^ 151 ≤ n * 2 ^ e := by exact_mod_cast h
    omega
  rw [hval]
  push_cast
  exact Dvd.dvd.mul_left (pow_dvd_pow 2 he) _

/-- Between TWO_PI and 10.0, TWO_PI is subtracted exactly: the difference is a multiple of 2^128 units
with fewer than 24 significant bits. -/
theorem val_fsub_TWO_PI {q : Word} (hq : isFinite q = true) (hlo : val TWO_PI ≤ val q)
    (hhi : val q ≤ val 0x41200000#32) : val (fsub q TWO_PI) = val q - val TWO_PI := by
  have hturn : val TWO_PI = 0xC90FDB * 2 ^ 128 := by decide +kernel
  have hten : val 0x41200000#32 = 10 * 2 ^ 149 := by decide +kernel
  obtain ⟨k, hk⟩ := dvd_val_of_four_le hq (by omega)
  obtain ⟨-, hv⟩ := fsub_finite hq (show isFinite TWO_PI = true by decide)
  rw [hv]
  refine roundVal_significand _ (k - 0xC90FDB).toNat 128 (by omega) (by decide) (by omega)

/-- The sum of a phase and an increment is finite and at most 10.0, above one and a half turns. -/
theorem phase_sum_le {p pinc : Word} (hp : fle posZero p = true) (hturn : flt p TWO_PI = true)
    (hinc : fle posZero pinc = true) (hhalf : fle pinc 0x40490FDB#32 = true) :
    isFinite (fadd p pinc) = true ∧ val (fadd p pinc) ≤ val 0x41200000#32 := by
  obtain ⟨-, -, hpT⟩ := (flt_iff _ _).1 hturn
  obtain ⟨-, -, hiH⟩ := (fle_iff _ _).1 hhalf
  have hp0 := val_nonneg_of_fle_posZero hp
  have hi0 := val_nonneg_of_fle_posZero hinc
  obtain ⟨-, hv⟩ := fadd_finite (isFinite_of_val_le (b := TWO_PI) (by decide) hp0 hpT.le)
    (isFinite_of_val_le (b := 0x40490FDB#32) (by decide) hi0 hiH)
  have hbound : val TWO_PI + val 0x40490FDB#32 ≤ val 0x41200000#32 := by decide +kernel
  have hle : val (fadd p pinc) ≤ val 0x41200000#32 :=
    hv ▸ roundVal_le one_pos (by decide) (by push_cast; omega)
  exact ⟨isFinite_of_val_le (b := 0x41200000#32) (by decide)
    (hv ▸ roundVal_nonneg (by omega) 1) hle, hle⟩

/-- Settles O28: by the two branches of the advance, the subtraction of TWO_PI being exact. -/
theorem phaseStaysWithinOneTurn : Obligations.PhaseStaysWithinOneTurn := by
  intro p pinc hp hturn hinc hhalf
  rw [fmul_TWO_PI_HALF] at hhalf
  refine ⟨fun hge => ?_, fun hlt => ?_, advance_between hp hturn hinc hhalf⟩
  · obtain ⟨-, -, hlo⟩ := (fge_iff _ _).1 hge
    obtain ⟨hfin, hhi⟩ := phase_sum_le hp hturn hinc hhalf
    have hwrap : advance pinc p = fsub (fadd p pinc) TWO_PI := if_pos hge
    exact ⟨hwrap, hwrap ▸ val_fsub_TWO_PI hfin hlo hhi⟩
  · exact if_neg (Bool.not_eq_true _ ▸ hlt)

/-! ### Zeros (R12) -/

/-- Adding either zero to a number that is not negative, nor -0, gives the number. -/
theorem fadd_of_isZero {a z : Word} (ha : isFinite a = true) (hs : sign a = false)
    (hz : isZero z = true) : fadd a z = a := by
  obtain ⟨-, hv⟩ := fadd_finite ha (isFinite_of_isZero hz)
  rw [(val_eq_zero z).2 hz, add_zero, roundVal_exact_one a (isNaN_of_isFinite ha)] at hv
  by_cases h0 : val a = 0
  · rcases eq_zero_of_isZero ((val_eq_zero a).1 h0) with rfl | rfl
    · rcases eq_zero_of_isZero hz with rfl | rfl <;> decide
    · exact absurd hs (by decide)
  · exact eq_of_val_eq hv (hv ▸ h0)

/-- A product of finite factors, one of them a zero, is a zero. -/
theorem isZero_fmul {a b : Word} (ha : isFinite a = true) (hb : isFinite b = true)
    (h : isZero a = true ∨ isZero b = true) : isZero (fmul a b) = true := by
  obtain ⟨-, hv, -⟩ := fmul_finite ha hb
  have hprod : val a * val b = 0 := by
    rwa [mul_eq_zero, val_eq_zero, val_eq_zero]
  rw [← val_eq_zero, hv, hprod, roundVal_zero]

/-! ### The instantaneous delay (R79, R80) -/

/-- An amplitude times a number in [-1, 1] lies between minus the amplitude and the amplitude. -/
theorem modulation_between {a x : Word} (ha : isFinite a = true) (h0 : 0 ≤ val a)
    (hx : isFinite x = true) (hlo : fle (neg ONE) x = true) (hhi : fle x ONE = true) :
    fle (neg a) (fmul a x) = true ∧ fle (fmul a x) a = true := by
  obtain ⟨-, -, hlo⟩ := (fle_iff _ _).1 hlo
  obtain ⟨-, -, hhi⟩ := (fle_iff _ _).1 hhi
  rw [val_neg, val_ONE] at hlo
  rw [val_ONE] at hhi
  have hna : isNaN (neg a) = false := isNaN_of_isFinite (by rwa [isFinite_neg])
  obtain ⟨hnan, hv, -⟩ := fmul_finite ha hx
  refine ⟨fle_of_val_le hna hnan ?_, fle_of_val_le hnan (isNaN_of_isFinite ha) ?_⟩
  · rw [hv]
    refine le_roundVal (by positivity) hna ?_
    rw [val_neg]
    push_cast
    calc -val a * 2 ^ 149 = val a * -2 ^ 149 := by ring
      _ ≤ val a * val x := mul_le_mul_of_nonneg_left hlo h0
  · rw [hv]
    refine roundVal_le (by positivity) (isNaN_of_isFinite ha) ?_
    push_cast
    exact mul_le_mul_of_nonneg_left hhi h0

/-- A center delay of W samples and a modulation of at most W samples give a delay from 0 to 2W. -/
theorem val_delay_between {W : Nat} (hW : 2 * W < 2 ^ 24) {m : Word} (hm : isFinite m = true)
    (h : |val m| ≤ (W : Int) * 2 ^ 149) :
    isNaN (fadd (ofNat W) m) = false ∧ 0 ≤ val (fadd (ofNat W) m) ∧
    val (fadd (ofNat W) m) ≤ ((2 * W : Nat) : Int) * 2 ^ 149 := by
  obtain ⟨hlo, hhi⟩ := abs_le.1 h
  obtain ⟨hcf, hcv⟩ := ofNat_exact (i := W) (by omega)
  obtain ⟨htf, htv⟩ := ofNat_exact hW
  obtain ⟨hnan, hv⟩ := fadd_finite hcf hm
  rw [hcv] at hv
  refine ⟨hnan, hv ▸ roundVal_nonneg (by omega) 1, ?_⟩
  rw [hv, ← htv]
  refine roundVal_le one_pos (isNaN_of_isFinite htf) ?_
  rw [htv]
  push_cast
  omega

/-- The phase of an initialized unit is finite (R30). -/
theorem isFinite_phase {p : Word} (h : fle posZero p = true ∧ flt p TWO_PI = true) :
    isFinite p = true := by
  obtain ⟨h0, hturn⟩ := h
  obtain ⟨-, -, hlt⟩ := (flt_iff _ _).1 hturn
  exact isFinite_of_val_le (b := TWO_PI) (by decide) (val_nonneg_of_fle_posZero h0) hlt.le

/-- The center delay of an initialized unit is less than half of 2^24 (R9, R30). -/
theorem two_mul_cdelay_lt {p : Params} {v : Vib} (hp : p.legal = true) (h : v.Running p) :
    2 * v.cdelay.toNat < 2 ^ 24 := by
  have hcap := cap_le hp h
  have hsize := h.capacity
  omega

/-- The amplitude of an initialized unit lies between 0 and the center delay (R30). -/
theorem amps_bounds {p : Params} {v : Vib} (hp : p.legal = true) (h : v.Running p) :
    isFinite v.amps = true ∧ 0 ≤ val v.amps ∧ val v.amps ≤ (v.cdelay.toNat : Int) * 2 ^ 149 := by
  have hc := two_mul_cdelay_lt hp h
  obtain ⟨h0, hle⟩ := h.amplitude
  obtain ⟨-, -, hle⟩ := (fle_iff _ _).1 hle
  obtain ⟨hfin, hval⟩ := ofNat_exact (i := v.cdelay.toNat) (by omega)
  have hnn := val_nonneg_of_fle_posZero h0
  exact ⟨isFinite_of_val_le hfin hnn hle, hnn, hval ▸ hle⟩

/-- Settles O29: SIN is at most 1 in magnitude, so the modulation is at most the center delay. -/
theorem modulatedDelayIsAlwaysValid : Obligations.ModulatedDelayIsAlwaysValid := by
  intro F s hF hs hinit m d
  have hr := hs.vib.1 hinit
  have hc := two_mul_cdelay_lt hs.params hr
  have hcap := cap_le hs.params hr
  have hsize := hr.capacity
  obtain ⟨hamps, hamps0, hampsW⟩ := amps_bounds hs.params hr
  obtain ⟨hsin, hsinlo, hsinhi⟩ := hF.2 _ (isFinite_phase hr.phase)
  obtain ⟨hmlo, hmhi⟩ := modulation_between hamps hamps0 hsin hsinlo hsinhi
  obtain ⟨-, -, hlo⟩ := (fle_iff _ _).1 hmlo
  obtain ⟨-, -, hhi⟩ := (fle_iff _ _).1 hmhi
  rw [val_neg] at hlo
  have habs : |val m| ≤ val s.vib.amps := abs_le.2 ⟨hlo, hhi⟩
  have hm : isFinite m = true := by
    rw [isFinite_iff_val] at hamps ⊢
    exact habs.trans_lt (abs_of_nonneg hamps0 ▸ hamps)
  obtain ⟨hd, hd0, hd2⟩ := val_delay_between hc hm (habs.trans hampsW)
  obtain ⟨htf, htv⟩ := ofNat_exact hc
  refine ⟨rfl, hmlo, hmhi, fle_posZero_of_val_nonneg hd hd0,
    fle_of_val_le hd (isNaN_of_isFinite htf) (htv ▸ hd2), by rw [hsize, Nat.add_sub_cancel], ?_⟩
  rw [delayOk_iff_val d (by omega) hcap]
  exact ⟨hd, hd0, hd2.trans (by rw [hsize]; push_cast; omega)⟩

end Sys2Proof.Proofs
end

section
/-! A run of VIB_PROCESS, channel by channel (R78, R81, R85): what its frames leave in the phase, the delay
lines and OUT; how consecutive runs join (R86); and the fixed delay of an unmodulated unit (R88). -/

namespace Sys2Proof.Proofs

open Sys2Proof.Machine Sys2Proof.Laws Sys2Proof.Spec

/-! ### One frame (R85) -/

section
variable (F : Functions) (N n : Nat) (s : State)

/-- A frame writes each channel's input sample into its own line. -/
theorem vibFrame_line (c : Nat) :
    (s.vibFrame F N n).vib.line c =
      if c < N then (s.vib.line c).write s.vib.cap.toNat (s.readIn c n) else s.vib.line c := by
  rw [← writeFrame_line, State.vibFrame, readFrame_frame]
  rfl

/-- A frame changes no register of the unit but the phase, which it advances once. -/
theorem vibFrame_vib :
    (s.vibFrame F N n).vib = { s.vib with
      phase := advance s.vib.pinc s.vib.phase, lines := (s.vibFrame F N n).vib.lines } := by
  rw [State.vibFrame, readFrame_frame, writeFrame_frame]
  rfl

/-- A frame writes each channel's line, with its new sample, to OUT, read at the delay of the unit as the
frame finds it. -/
theorem vibFrame_readOut (hn : n < s.cfg.blkMax) (c : Nat) {n' : Nat} (hn' : n' < s.cfg.blkMax) :
    (s.vibFrame F N n).readOut c n' =
      if c < N ∧ n' = n then
        ((s.vibFrame F N n).vib.line c).read s.vib.cap.toNat (instantDelay F s.vib)
      else s.readOut c n' := by
  have hcfg : (s.writeFrame N n).cfg = s.cfg := by rw [writeFrame_frame]
  have hcap : (s.writeFrame N n).vib.cap = s.vib.cap := by rw [writeFrame_frame]
  have hout : (s.writeFrame N n).readOut c n' = s.readOut c n' := by rw [writeFrame_frame]; rfl
  have hframe := readFrame_readOut N n (instantDelay F s.vib) (s.writeFrame N n) (hcfg ▸ hn) c n'
    (hcfg ▸ hn')
  rw [hout, State.dlRead, hcap, writeFrame_line] at hframe
  rw [vibFrame_line]
  exact hframe

/-- A frame changes no IN word. -/
theorem vibFrame_readIn (hp : s.cfg.legal = true) {c n' : Nat} (hc : c < s.cfg.nchMax)
    (hn' : n' < s.cfg.blkMax) : (s.vibFrame F N n).readIn c n' = s.readIn c n' := by
  have hcfg : (s.writeFrame N n).cfg = s.cfg := by rw [writeFrame_frame]
  have hin : (s.writeFrame N n).readIn c n' = s.readIn c n' := by rw [writeFrame_frame]; rfl
  rw [← hin]
  exact readFrame_readIn N n (instantDelay F s.vib) (s.writeFrame N n) (by rwa [hcfg])
    (by rwa [hcfg]) (by rwa [hcfg])

end

/-! ### A run of frames (R78, R81, R85) -/

theorem phaseAt_succ (v : Vib) (n : Nat) : phaseAt v (n + 1) = advance v.pinc (phaseAt v n) :=
  Function.iterate_succ_apply' _ _ _

theorem lineAfter_succ (s : State) (c n : Nat) :
    lineAfter s c (n + 1) = (lineAfter s c n).write s.vib.cap.toNat (s.readIn c n) := by
  rw [lineAfter, List.range_succ, List.foldl_concat, lineAfter]

section
variable (F : Functions) {N : Nat} {s : State}

theorem vibFrames_cfg (N nf : Nat) (s : State) : (s.vibFrames F N nf).cfg = s.cfg := by
  rw [vibFrames_frame]

/-- A run changes no register of the unit but the phase, which it advances once per frame. -/
theorem vibFrames_vib (N nf : Nat) (s : State) :
    (s.vibFrames F N nf).vib =
      { s.vib with phase := phaseAt s.vib nf, lines := (s.vibFrames F N nf).vib.lines } := by
  induction nf with
  | zero => rfl
  | succ nf ih => rw [vibFrames_succ, vibFrame_vib, ih, phaseAt_succ]

/-- A run changes no IN word. -/
theorem vibFrames_readIn (hp : s.cfg.legal = true) (N nf : Nat) {c n : Nat} (hc : c < s.cfg.nchMax)
    (hn : n < s.cfg.blkMax) : (s.vibFrames F N nf).readIn c n = s.readIn c n := by
  induction nf with
  | zero => rfl
  | succ nf ih =>
    have hcfg := vibFrames_cfg F N nf s
    rw [vibFrames_succ, vibFrame_readIn _ _ _ _ (by rwa [hcfg]) (by rwa [hcfg]) (by rwa [hcfg]), ih]

/-- A run writes the input samples of its frames into each channel's own line. -/
theorem vibFrames_line (hp : s.cfg.legal = true) (hN : N ≤ s.cfg.nchMax) {nf : Nat}
    (hnf : nf ≤ s.cfg.blkMax) (c : Nat) :
    (s.vibFrames F N nf).vib.line c = if c < N then lineAfter s c nf else s.vib.line c := by
  induction nf with
  | zero => exact (ite_self _).symm
  | succ nf ih =>
    have hcap : (s.vibFrames F N nf).vib.cap = s.vib.cap := by rw [vibFrames_vib]
    rw [vibFrames_succ, vibFrame_line, ih (by omega), hcap]
    split
    · rw [vibFrames_readIn F hp N nf (by omega) (by omega), lineAfter_succ]
    · rfl

end

/-- The delay of the frame after a run is that of the advanced phase. -/
theorem instantDelay_vibFrames (N nf : Nat) (s : State) :
    instantDelay F32.config (s.vibFrames F32.config N nf).vib = delayAt s.vib nf := by
  rw [vibFrames_vib]
  rfl

/-- A run writes to OUT, for each of its frames, each channel's line as the frame leaves it, read at the
frame's delay. -/
theorem vibFrames_readOut {s : State} (hp : s.cfg.legal = true) {N nf : Nat} (hN : N ≤ s.cfg.nchMax)
    (hnf : nf ≤ s.cfg.blkMax) {c n : Nat} (hc : c < N) (hn : n < nf) :
    (s.vibFrames F32.config N nf).readOut c n =
      (lineAfter s c (n + 1)).read s.vib.cap.toNat (delayAt s.vib n) := by
  induction nf with
  | zero => exact absurd hn (Nat.not_lt_zero n)
  | succ nf ih =>
    have hcfg := vibFrames_cfg F32.config N nf s
    have hcap : (s.vibFrames F32.config N nf).vib.cap = s.vib.cap := by rw [vibFrames_vib]
    rw [vibFrames_succ, vibFrame_readOut _ _ _ _ (by rw [hcfg]; omega) _ (by rw [hcfg]; omega),
      ← vibFrames_succ, vibFrames_line _ hp hN hnf, if_pos hc, hcap, instantDelay_vibFrames]
    split
    · next h => rw [h.2]
    · next h => exact ih (by omega) (by omega)

/-- VIB_PROCESS on an initialized unit runs the frames FRAMES asks for. -/
theorem exec_vibProcess {s : State} (hinit : s.vib.init = true) (hframes : FramesOk s) :
    exec .vibProcess s =
      .next ((s.vibFrames F32.config s.vib.aNch.toNat s.frames.toNat).setErr .noError) := by
  have hok : firstError s .vibProcess = .noError := by
    rw [firstError, hinit, if_neg (by decide), if_neg (not_not.2 hframes)]
  rw [exec_eq, hok, outcome_of_success hok, effect, numFrames_eq s hframes.1]

theorem frames_toNat_le {s : State} (h : FramesOk s) : s.frames.toNat ≤ s.cfg.blkMax := by
  obtain ⟨h0, hle⟩ := h
  rw [← numFrames_eq s h0]
  exact Int.toNat_le.2 hle

/-! ### Consecutive runs (R86) -/

/-- A legal frame count is itself the number of frames. -/
theorem framesOk_of_le {s : State} (hp : s.cfg.legal = true) {n : Nat} (hn : n ≤ s.cfg.blkMax)
    (h : s.frames = BitVec.ofNat 32 n) : FramesOk s ∧ s.frames.toNat = n := by
  simp only [Params.legal, Bool.and_eq_true, decide_eq_true_eq] at hp
  have hnat : s.frames.toNat = n := by
    rw [h, BitVec.toNat_ofNat, Nat.mod_eq_of_lt (by omega)]
  have hint : s.frames.toInt = n := by
    rw [BitVec.toInt_eq_toNat_of_lt (by omega), hnat]
  exact ⟨⟨by omega, by omega⟩, hnat⟩

/-- State t holds what a run of m frames leaves of s's unit, and the next k frames of its input. -/
structure Continues (s t : State) (m k : Nat) : Prop where
  vib : t.vib = { s.vib with phase := phaseAt s.vib m, lines := t.vib.lines }
  line : ∀ c, t.vib.line c = if c < s.vib.aNch.toNat then lineAfter s c m else s.vib.line c
  input : ∀ c n, c < s.vib.aNch.toNat → n < k → t.readIn c n = s.readIn c (m + n)

section
variable {s t : State} {m k : Nat}

theorem Continues.phaseAt_eq (h : Continues s t m k) (n : Nat) :
    phaseAt t.vib n = phaseAt s.vib (m + n) := by
  rw [h.vib, phaseAt, phaseAt, ← Function.iterate_add_apply, Nat.add_comm n m, phaseAt]

theorem Continues.delayAt_eq (h : Continues s t m k) (n : Nat) :
    delayAt t.vib n = delayAt s.vib (m + n) := by
  rw [delayAt, h.phaseAt_eq, h.vib, delayAt]

theorem Continues.lineAfter_eq (h : Continues s t m k) {c n : Nat} (hc : c < s.vib.aNch.toNat)
    (hn : n ≤ k) : lineAfter t c n = lineAfter s c (m + n) := by
  induction n with
  | zero => exact (h.line c).trans (if_pos hc)
  | succ n ih =>
    have hcap : t.vib.cap = s.vib.cap := by rw [h.vib]
    rw [lineAfter_succ, ih (by omega), hcap, h.input c n hc hn, ← Nat.add_assoc, lineAfter_succ]

/-- A run of the next k frames leaves the unit as a single run of all m + k frames does. -/
theorem Continues.vibFrames_eq (h : Continues s t m k) (hp : s.cfg.legal = true)
    (hcfg : t.cfg = s.cfg) (hN : s.vib.aNch.toNat ≤ s.cfg.nchMax) (hlen : m + k ≤ s.cfg.blkMax) :
    (∀ c, (t.vibFrames F32.config s.vib.aNch.toNat k).vib.line c =
      (s.vibFrames F32.config s.vib.aNch.toNat (m + k)).vib.line c) ∧
    { (t.vibFrames F32.config s.vib.aNch.toNat k).vib with
      lines := (s.vibFrames F32.config s.vib.aNch.toNat (m + k)).vib.lines } =
      (s.vibFrames F32.config s.vib.aNch.toNat (m + k)).vib := by
  refine ⟨fun c => ?_, ?_⟩
  · rw [vibFrames_line _ (hcfg ▸ hp) (hcfg ▸ hN) (by rw [hcfg]; omega), vibFrames_line _ hp hN hlen]
    split
    · next hc => exact h.lineAfter_eq hc le_rfl
    · next hc => exact (h.line c).trans (if_neg hc)
  · rw [vibFrames_vib, h.phaseAt_eq, h.vib, vibFrames_vib _ _ (m + k)]

/-- Its frames write the OUT words of the last k frames of the single run. -/
theorem Continues.readOut_eq (h : Continues s t m k) (hp : s.cfg.legal = true)
    (hcfg : t.cfg = s.cfg) (hN : s.vib.aNch.toNat ≤ s.cfg.nchMax) (hlen : m + k ≤ s.cfg.blkMax)
    {c n : Nat} (hc : c < s.vib.aNch.toNat) (hn : n < k) :
    (t.vibFrames F32.config s.vib.aNch.toNat k).readOut c n =
      (s.vibFrames F32.config s.vib.aNch.toNat (m + k)).readOut c (m + n) := by
  have hcap : t.vib.cap = s.vib.cap := by rw [h.vib]
  rw [vibFrames_readOut (hcfg ▸ hp) (hcfg ▸ hN) (by rw [hcfg]; omega) hc hn,
    vibFrames_readOut hp hN hlen hc (by omega), h.lineAfter_eq hc hn, h.delayAt_eq, hcap,
    Nat.add_assoc]

end

/-- Settles O31: the second run continues the phase and the lines of the first, so each of its frames has
the delay and the lines of the frame n1 later in the single run. -/
theorem blocksJoinWithoutASeam : Obligations.BlocksJoinWithoutASeam := by
  rintro s s1 s2 n1 n2 hp hinit hN hlen hframes hs1 ⟨t1, ht1, hcfg, hvib, hframes2, hin⟩
  have hcfg1 : s1.cfg = s.cfg := by rw [hs1]
  have hvib1 : s1.vib = s.vib := by rw [hs1]
  have hline1 : ∀ c n, lineAfter s1 c n = lineAfter s c n := fun c n => by rw [hs1]; rfl
  have hlen1 : n1 ≤ s1.cfg.blkMax := by rw [hcfg1]; omega
  obtain ⟨hok, hnf⟩ := framesOk_of_le hp hlen hframes
  obtain ⟨hok1, hnf1⟩ := framesOk_of_le (hcfg1 ▸ hp) hlen1 (by rw [hs1])
  obtain ⟨hok2, hnf2⟩ := framesOk_of_le (hcfg ▸ hp) (by rw [hcfg]; omega) hframes2
  have hexec := exec_vibProcess hinit hok
  have hexec1 := exec_vibProcess (hvib1 ▸ hinit) hok1
  rw [hnf] at hexec
  rw [hnf1, hvib1] at hexec1
  obtain rfl := Host.Outcome.next.inj (ht1.symm.trans hexec1)
  rw [setErr_vib] at hvib
  have hcont : Continues s s2 n1 n2 := by
    refine ⟨?_, fun c => ?_, hin⟩
    · rw [hvib, vibFrames_vib, hvib1]
    · rw [hvib, vibFrames_line _ (hcfg1 ▸ hp) (hcfg1 ▸ hN) hlen1, hline1, hvib1]
  have hinit2 : s2.vib.init = true := by rw [hcont.vib]; exact hinit
  have hnch : s2.vib.aNch = s.vib.aNch := by rw [hcont.vib]
  have hexec2 := exec_vibProcess hinit2 hok2
  rw [hnf2, hnch] at hexec2
  obtain ⟨hlines, hregs⟩ := hcont.vibFrames_eq hp hcfg hN hlen
  refine ⟨_, _, _, hexec, ht1, hexec2, (congrArg Vib.phase hregs :), hlines, hregs,
    fun c n hc hn => ?_, fun c n hc hn => hcont.readOut_eq hp hcfg hN hlen hc hn⟩
  calc (s1.vibFrames F32.config s.vib.aNch.toNat n1).readOut c n
      = (lineAfter s c (n + 1)).read s.vib.cap.toNat (delayAt s.vib n) := by
        rw [vibFrames_readOut (hcfg1 ▸ hp) (hcfg1 ▸ hN) hlen1 hc hn, hline1, hvib1]
    _ = (s.vibFrames F32.config s.vib.aNch.toNat (n1 + n2)).readOut c n :=
        (vibFrames_readOut hp hN hlen hc (by omega)).symm

/-! ### The unmodulated unit (R88) -/

/-- Every phase of an initialized unit lies within one turn (R30, R78). -/
theorem phaseAt_between {p : Params} {v : Vib} (h : v.Running p) (n : Nat) :
    F32.fle F32.posZero (phaseAt v n) = true ∧ F32.flt (phaseAt v n) F32.TWO_PI = true := by
  induction n with
  | zero => exact h.phase
  | succ n ih =>
    obtain ⟨h0, hturn⟩ := ih
    obtain ⟨hinc, hhalf⟩ := h.increment
    exact phaseAt_succ v n ▸ advance_between h0 hturn hinc hhalf

/-- With a zero phase increment the phase stays +0. -/
theorem phaseAt_of_isZero {p : Params} {v : Vib} (h : v.Running p) (hz : F32.isZero v.pinc = true)
    (n : Nat) : phaseAt v n = F32.posZero := by
  induction n with
  | zero => exact h.still hz
  | succ n ih => rw [phaseAt_succ, ih, advance_of_isZero hz]

/-- With a zero amplitude or a zero phase increment every frame's delay is the center delay: SIN of +0 is
+0, and SIN of any phase is finite (R17). -/
theorem delayAt_of_unmodulated {p : Params} {v : Vib} (hp : p.legal = true) (h : v.Running p)
    (hz : F32.isZero v.amps = true ∨ F32.isZero v.pinc = true) (n : Nat) :
    delayAt v n = F32.ofNat v.cdelay.toNat := by
  obtain ⟨hsin0, hsin⟩ : F32.LegalSin F32.config.sin := legalSin_legal _
  obtain ⟨hamps, -, -⟩ := amps_bounds hp h
  obtain ⟨hfin, -⟩ := hsin _ (isFinite_phase (phaseAt_between h n))
  have hc := two_mul_cdelay_lt hp h
  obtain ⟨hcenter, -⟩ := ofNat_exact (i := v.cdelay.toNat) (by omega)
  refine fadd_of_isZero hcenter (sign_ofNat _) (isZero_fmul hamps hfin ?_)
  refine hz.imp_right fun hpinc => ?_
  rw [phaseAt_of_isZero h hpinc, hsin0]
  decide

/-- The taps of a line after n frames: the channel's input words from the last to the first, then the old
taps. -/
theorem tap_lineAfter {s : State} {c : Nat} (hw : (s.vib.line c).widx.toNat < s.vib.cap.toNat)
    (n : Nat) {k : Nat} (hk : k < s.vib.cap.toNat) :
    (lineAfter s c n).tap s.vib.cap.toNat k =
      if k < n then s.readIn c (n - 1 - k) else (s.vib.line c).tap s.vib.cap.toNat (k - n) := by
  have hlist : lineAfter s c n =
      writeAll s.vib.cap.toNat (s.vib.line c) ((List.range n).map (s.readIn c)) := by
    rw [lineAfter, writeAll, List.foldl_map]
  rw [hlist, tap_writeAll hw s.vib.cap.isLt.le _ hk]
  simp only [List.length_map, List.length_range, List.getElem_map, List.getElem_range, dite_eq_ite]

/-- Settles O32: a read at the center delay is a tap, which is an input word or an old tap. -/
theorem unmodulatedVibratoIsAFixedDelay : Obligations.UnmodulatedVibratoIsAFixedDelay := by
  intro s hs hinit hframes hz C Wn nf
  have hr := hs.vib.1 hinit
  have hdelay := delayAt_of_unmodulated hs.params hr hz
  have hcenter := two_mul_cdelay_lt hs.params hr
  have hcap : C = 2 * Wn + 2 := hr.capacity
  have hnf : nf ≤ s.cfg.blkMax := frames_toNat_le hframes
  refine ⟨hdelay, _, exec_vibProcess hinit hframes, fun c hc => ?_⟩
  have hw := hr.writeIndex c
  have hout : ∀ n < nf, ((s.vibFrames F32.config s.vib.aNch.toNat nf).setErr .noError).readOut c n =
      if Wn ≤ n then s.readIn c (n - Wn) else (s.vib.line c).tap C (Wn - 1 - n) := by
    intro n hn
    refine (vibFrames_readOut hs.params hr.channels.2 hnf hc hn).trans ?_
    rw [hdelay, read_ofNat _ _ (by omega), tap_lineAfter hw _ (by omega)]
    simp only [Nat.lt_succ_iff, Nat.add_sub_cancel, Nat.sub_sub, Nat.add_comm 1 n, C, Wn]
  refine ⟨hout, fun hempty n hn hlt => ?_, fun k hk => ?_⟩
  · rw [hout n hn, if_neg (by omega), hempty, tap_empty]
  · rw [setErr_vib, vibFrames_line _ hs.params hr.channels.2 hnf, if_pos hc, tap_lineAfter hw _ hk]

end Sys2Proof.Proofs
end

section
/-! The smoothing filter and its coefficients (R91, R92, R94, R105, R107): the primitives on ±0, 1.0 and −∞,
what the extreme coefficients do, and PPM_RESET (R98). -/

namespace Sys2Proof.Proofs

open Sys2Proof.Machine Sys2Proof.F32 Sys2Proof.Laws Sys2Proof.Spec

/-! ### PPM_RESET (R98) -/

/-- Settles O19: PPM_RESET leaves the cleared unit. -/
theorem ppmResetClearsTheUnit : Obligations.PpmResetClearsTheUnit :=
  fun s => ⟨s.ppm.clear, rfl, fun _ => ⟨rfl, rfl⟩, rfl⟩

/-! ### Products and sums with ±0, 1.0 and −∞ (R12) -/

/-- A product with a zero is +0 when the factors have the same sign. -/
theorem fmul_eq_posZero {a b : Word} (ha : isFinite a = true) (hb : isFinite b = true)
    (hs : sign a = sign b) (h : isZero a = true ∨ isZero b = true) : fmul a b = posZero := by
  obtain ⟨-, -, hsign⟩ := fmul_finite ha hb
  rw [hs, bne_self_eq_false] at hsign
  exact word_ext hsign ((isZero_iff _).1 (isZero_fmul ha hb h))

/-- Multiplying by 1.0 is exact. -/
theorem fmul_ONE_left {a : Word} (ha : isFinite a = true) : fmul ONE a = a := by
  obtain ⟨-, hv, hs⟩ := fmul_finite isFinite_ONE ha
  refine eq_of_val_eq_of_sign ?_ (hs.trans (Bool.false_xor _))
  rw [hv, val_ONE, mul_comm, int_unit]
  exact roundVal_exact a (isNaN_of_isFinite ha) _ (by positivity)

theorem fmul_posZero_right {a : Word} (ha : isFinite a = true) (hpos : 0 < val a) :
    fmul a posZero = posZero :=
  fmul_eq_posZero ha (by decide) (sign_of_val_pos hpos) (.inr (by decide))

/-- A positive finite number times −∞ is −∞. -/
theorem fmul_negInf_right {a : Word} (ha : isFinite a = true) (hpos : 0 < val a) :
    fmul a negInf = negInf := by
  have hz : isZero a = false := by
    rw [← Bool.not_eq_true, ← val_eq_zero]
    exact hpos.ne'
  have hnan : isNaN negInf = false := by decide
  have hinf : isInf negInf = true := by decide
  have hnz : isZero negInf = false := by decide
  simp only [fmul, isNaN_of_isFinite ha, hnan, hinf, hz, hnz, sign_of_val_pos hpos, Bool.or_self,
    Bool.or_true, Bool.false_eq_true, if_false, if_true]
  decide

theorem isZero_fadd {a b : Word} (ha : isZero a = true) (hb : isZero b = true) :
    isZero (fadd a b) = true := by
  obtain ⟨-, hv⟩ := fadd_finite (isFinite_of_isZero ha) (isFinite_of_isZero hb)
  rw [← val_eq_zero, hv, (val_eq_zero a).2 ha, (val_eq_zero b).2 hb]
  exact roundVal_zero 1

theorem fabs_of_isZero {a : Word} (h : isZero a = true) : fabs a = posZero := by
  rcases eq_zero_of_isZero h with rfl | rfl <;> decide

theorem fsub_ONE_ONE : fsub ONE ONE = posZero := by decide +kernel

theorem fsub_ONE_posZero : fsub ONE posZero = ONE := by decide +kernel

theorem fdiv_K22_posZero : fdiv K22 posZero = negInf := by decide +kernel

theorem fdiv_K22_negInf : fdiv K22 negInf = posZero := by decide +kernel

/-! ### Coefficients and time constants (R91, R92) -/

theorem coefOf_eq (F : Functions) (fs t : Word) :
    coefOf F fs t =
      fsub ONE (F.exp (fdiv K22 (fmul fs (if isZero t = true then posZero else t)))) := by
  simp only [coefOf, feq_posZero]

/-- A time of either zero has the coefficient 1.0. -/
theorem coefOf_of_isZero {F : Functions} (hF : LegalExp F.exp) {fs t : Word}
    (hfs : isFinite fs = true) (hpos : 0 < val fs) (ht : isZero t = true) :
    coefOf F fs t = ONE := by
  obtain ⟨hexp, -⟩ := hF
  rw [coefOf_eq, if_pos ht, fmul_posZero_right hfs hpos, fdiv_K22_posZero, hexp, fsub_ONE_posZero]

/-- Settles O37: the exponent is at most 0, so EXP is in [0, 1] and so is what it leaves of 1.0. -/
theorem coefficientsLieBetweenZeroAndOne : Obligations.CoefficientsLieBetweenZeroAndOne := by
  intro F fs t p hF hfs hgt ht
  have hpos := val_pos_of_flt_posZero hgt
  obtain ⟨htf, ht0⟩ := finite_of_timeOk ht
  exact ⟨coefOf_eq F fs t, coefOf_of_isZero hF hfs hpos, coefOf_between hF hfs hpos htf ht0⟩

/-- The coefficient 1.0 reads back as the time +0. -/
theorem timeOf_ONE {F : Functions} (hF : LegalLn F.ln) {fs : Word} (hfs : isFinite fs = true)
    (hpos : 0 < val fs) : timeOf F fs ONE = posZero := by
  obtain ⟨hln, -⟩ := hF
  rw [timeOf, fsub_ONE_ONE, hln, fmul_negInf_right hfs hpos, fdiv_K22_negInf]

/-- The coefficient +0 reads back as the time −∞. -/
theorem timeOf_posZero {F : Functions} (hF : LegalLn F.ln) {fs : Word} (hfs : isFinite fs = true)
    (hpos : 0 < val fs) : timeOf F fs posZero = negInf := by
  obtain ⟨-, -, hln, -⟩ := hF
  rw [timeOf, fsub_ONE_posZero, hln, fmul_posZero_right hfs hpos, fdiv_K22_posZero]

/-- Settles O38: 1 − k is +0 or 1.0, where LN is −∞ or +0. -/
theorem reconstructedTimeAtTheBounds : Obligations.ReconstructedTimeAtTheBounds := by
  intro F fs k hF hfs hgt
  have hpos := val_pos_of_flt_posZero hgt
  exact ⟨rfl, timeOf_ONE hF hfs hpos, timeOf_posZero hF hfs hpos⟩

/-! ### One step of the smoothing filter (R94) -/

section
variable {prev cur : Word} (ac rc : Word)

theorem smooth_release (h : fgt prev cur = true) :
    smooth prev cur ac rc = fmul (fsub ONE rc) prev := if_pos h

theorem smooth_attack (h : fgt prev cur = false) :
    smooth prev cur ac rc = fadd (fmul ac cur) (fmul (fsub ONE ac) prev) :=
  if_neg (Bool.not_eq_true _ ▸ h)

end

/-- With the coefficient 1.0, a RELEASE step from a finite value gives +0. -/
theorem smooth_release_ONE {prev cur : Word} (ac : Word) (hprev : isFinite prev = true)
    (hcur : 0 ≤ val cur) (h : fgt prev cur = true) : smooth prev cur ac ONE = posZero := by
  obtain ⟨-, -, hlt⟩ := (fgt_iff _ _).1 h
  rw [smooth_release ac ONE h, fsub_ONE_ONE]
  exact fmul_eq_posZero (by decide) hprev (sign_of_val_pos (hcur.trans_lt hlt)).symm (.inl (by decide))

/-- With the coefficient 1.0, an ATTACK step on finite values gives the input. -/
theorem smooth_attack_ONE {prev cur : Word} (rc : Word) (hprev : isFinite prev = true)
    (hcur : isFinite cur = true) (hs : sign cur = false) (h : fgt prev cur = false) :
    smooth prev cur ONE rc = cur := by
  rw [smooth_attack ONE rc h, fsub_ONE_ONE, fmul_ONE_left hcur]
  exact fadd_of_isZero hcur hs (isZero_fmul (by decide) hprev (.inl (by decide)))

/-- Settles O40: the coefficient 1.0 leaves +0 of the old value, whose products are zeros. -/
theorem zeroTimesActAtOnce : Obligations.ZeroTimesActAtOnce := by
  refine ⟨fun F fs t hF hfs hgt ht => coefOf_of_isZero hF hfs (val_pos_of_flt_posZero hgt) ht,
    fun prev x ac hprev h => smooth_release_ONE ac hprev ?_ h,
    fun prev x rc hprev hx h => ?_⟩
  · exact val_nonneg_of_sign (sign_fabs x)
  · exact smooth_attack_ONE rc hprev ((isFinite_fabs x).trans hx) (sign_fabs x) h

/-- A RELEASE step from +∞ with the coefficient 1.0 is +0 × +∞. -/
theorem smooth_posInf_release_ONE (ac : Word) : smooth posInf posZero ac ONE = qNaN := by
  rw [smooth_release ac ONE (by decide +kernel), fsub_ONE_ONE]
  decide

/-- Refutes O42: at prev = +∞, cur = +0 and rc = 1.0 the step is a NaN (log 19). -/
theorem not_smoothingNeverMakesANaN : ¬ Obligations.SmoothingNeverMakesANaN := by
  intro h
  obtain ⟨hnan, -⟩ := h posInf posZero ONE ONE (by decide +kernel) (by decide +kernel)
    (by decide +kernel) (by decide +kernel) (by decide +kernel) (by decide) (by decide +kernel)
  rw [smooth_posInf_release_ONE] at hnan
  exact absurd hnan (by decide)

/-- With an attack coefficient in [0, 1], either zero for 0, the filter stays at +0 on the input +0. -/
theorem smooth_posZero {ac : Word} (rc : Word) (h0 : fle posZero ac = true) (h1 : fle ac ONE = true) :
    smooth posZero posZero ac rc = posZero := by
  rw [smooth_attack ac rc (by decide +kernel)]
  by_cases hz : isZero ac = true
  · rcases eq_zero_of_isZero hz with rfl | rfl <;> decide +kernel
  · obtain ⟨-, -, hle⟩ := (fle_iff _ _).1 h1
    have hnn := val_nonneg_of_fle_posZero h0
    have hac : isFinite ac = true := isFinite_of_val_le isFinite_ONE hnn hle
    have hpos : 0 < val ac := lt_of_le_of_ne hnn fun h => hz ((val_eq_zero ac).1 h.symm)
    obtain ⟨hb0, hb1⟩ := fsub_ONE_between h0 h1
    obtain ⟨-, -, hble⟩ := (fle_iff _ _).1 hb1
    have hb : isFinite (fsub ONE ac) = true :=
      isFinite_of_val_le isFinite_ONE (val_nonneg_of_fle_posZero hb0) hble
    rw [fmul_posZero_right hac hpos]
    exact fadd_of_isZero (by decide) (by decide) (isZero_fmul hb (by decide) (.inr (by decide)))

end Sys2Proof.Proofs
end

section
/-! A run of PPM_PROCESS (R96, R97, R103): what its frames leave in PPM_PREV and in the block maxima, what
it emits, and zero input (R109). -/

namespace Sys2Proof.Proofs

open Sys2Proof.Machine Sys2Proof.F32 Sys2Proof.Laws Sys2Proof.Spec

/-- PPM_PROCESS on an initialized unit runs the frames FRAMES asks for, then emits. -/
theorem exec_ppmProcess {s : State} (hinit : s.ppm.init = true) (hframes : FramesOk s) :
    exec .ppmProcess s = .next { s with
      err := .noError
      ppm := { s.ppm with
        prev := (s.meterRun s.ppm.aNch.toNat s.frames.toNat).prev
        out := s.emitAll config s.ppm.aNch.toNat (s.meterRun s.ppm.aNch.toNat s.frames.toNat) } } := by
  have hok : firstError s .ppmProcess = .noError := by
    rw [firstError, hinit, if_neg (by decide), if_neg (not_not.2 hframes)]
  rw [exec_eq, hok, outcome_of_success hok, effect, State.metered, numFrames_eq s hframes.1]
  rfl

/-! ### The update of a maximum (R14, R96) -/

theorem fle_trans {a b c : Word} (hab : fle a b = true) (hbc : fle b c = true) : fle a c = true := by
  obtain ⟨ha, -, hv⟩ := (fle_iff a b).1 hab
  obtain ⟨-, hc, hw⟩ := (fle_iff b c).1 hbc
  exact fle_of_val_le ha hc (hv.trans hw)

theorem fle_refl {a : Word} (h : isNaN a = false) : fle a a = true := fle_of_val_le h h le_rfl

/-- The update of a maximum that is no NaN is at least the old one, and at least the new value unless that is
a NaN. -/
theorem fle_peakOf {m v : Word} (hm : isNaN m = false) :
    fle m (peakOf m v) = true ∧ (isNaN v = true ∨ fle v (peakOf m v) = true) := by
  unfold peakOf
  split
  · next hgt =>
    obtain ⟨hv, -, hlt⟩ := (fgt_iff v m).1 hgt
    exact ⟨fle_of_val_le hm hv hlt.le, .inr (fle_refl hv)⟩
  · next hgt =>
    refine ⟨fle_refl hm, or_iff_not_imp_left.2 fun hv => ?_⟩
    rw [Bool.not_eq_true] at hv
    exact fle_of_val_le hv hm (not_lt.1 fun hlt => hgt ((fgt_iff v m).2 ⟨hv, hm, hlt⟩))

theorem peakOf_cases (m v : Word) : peakOf m v = m ∨ peakOf m v = v := by
  unfold peakOf
  split
  · exact .inr rfl
  · exact .inl rfl

/-! ### The frames (R94, R103) -/

/-- The tracked channels are those that emit. -/
theorem tracked_iff_lt_emitters (s : State) (c : Nat) :
    Tracked s c ↔ c < s.emitters s.ppm.aNch.toNat := by
  unfold Tracked State.emitters
  split
  · exact Nat.lt_one_iff.symm
  · exact Iff.rfl

section
variable {s : State} {c : Nat}

/-- A frame smooths the rectified sample of a tracked channel, into PPM_PREV and the maximum. -/
theorem meterRun_succ_of_tracked (h : Tracked s c) (n : Nat) :
    let m := s.meterRun s.ppm.aNch.toNat n
    let m' := s.meterRun s.ppm.aNch.toNat (n + 1)
    let v := smooth (Cells.word m.prev c) (fabs (meterInput s c n)) s.ppm.acoef s.ppm.rcoef
    Cells.word m'.prev c = v ∧ Cells.word m'.peak c = peakOf (Cells.word m.peak c) v := by
  intro m m' v
  have hm' : m' = _ := meterRun_succ s s.ppm.aNch.toNat n
  rw [hm']
  by_cases hmode : s.ppm.aMode = true
  · obtain rfl : c = 0 := by simpa only [Tracked, if_pos hmode] using h
    have hv : v = smooth (Cells.word m.prev 0) (fabs (s.channelSum s.ppm.aNch.toNat n))
        s.ppm.acoef s.ppm.rcoef := by simp only [v, meterInput, if_pos hmode]
    rw [if_pos hmode, State.monoFrame, meterStep_prev, meterStep_peak, if_pos rfl, if_pos rfl, hv]
    exact ⟨rfl, rfl⟩
  · have hc : c < s.ppm.aNch.toNat := by simpa only [Tracked, if_neg hmode] using h
    have hv : v = smooth (Cells.word m.prev c) (fabs (s.readIn c n)) s.ppm.acoef s.ppm.rcoef := by
      simp only [v, meterInput, if_neg hmode]
    rw [if_neg hmode, meterFrame_prev, meterFrame_peak, if_pos hc, if_pos hc, hv]
    exact ⟨rfl, rfl⟩

/-- A run leaves the smoothed value of each tracked channel in PPM_PREV. -/
theorem meterRun_prev_of_tracked (h : Tracked s c) (n : Nat) :
    Cells.word (s.meterRun s.ppm.aNch.toNat n).prev c = envelope s c n := by
  induction n with
  | zero => rfl
  | succ n ih =>
    obtain ⟨hprev, -⟩ := meterRun_succ_of_tracked h n
    rw [hprev, ih, envelope]

/-- A run changes no PPM_PREV but those of the tracked channels. -/
theorem meterRun_prev_of_not_tracked (h : ¬Tracked s c) (n : Nat) :
    Cells.word (s.meterRun s.ppm.aNch.toNat n).prev c = Cells.word s.ppm.prev c := by
  induction n with
  | zero => rfl
  | succ n ih =>
    rw [meterRun_succ, ← ih]
    unfold Tracked at h
    split at h
    · next hmode => rw [if_pos hmode, State.monoFrame, meterStep_prev, if_neg h]
    · next hmode => rw [if_neg hmode, meterFrame_prev, if_neg h]

/-! ### The block maximum (R96) -/

/-- M is the maximum of channel c over its first n frames: +0 or a smoothed value of one of them, at least
+0, and at least every such value that is no NaN. -/
structure IsBlockMaximum (s : State) (c n : Nat) (M : Word) : Prop where
  attained : M = posZero ∨ ∃ k < n, M = envelope s c (k + 1)
  nonneg : fle posZero M = true
  bound : ∀ k < n, isNaN (envelope s c (k + 1)) = true ∨ fle (envelope s c (k + 1)) M = true

theorem isBlockMaximum_zero (s : State) (c : Nat) : IsBlockMaximum s c 0 posZero :=
  ⟨.inl rfl, by decide, fun _ hk => absurd hk (Nat.not_lt_zero _)⟩

/-- One more frame takes the maximum to its update by the frame's smoothed value. -/
theorem IsBlockMaximum.succ {n : Nat} {M : Word} (h : IsBlockMaximum s c n M) :
    IsBlockMaximum s c (n + 1) (peakOf M (envelope s c (n + 1))) := by
  obtain ⟨hold, hnew⟩ := fle_peakOf (v := envelope s c (n + 1)) (isNaN_of_fle_right h.nonneg)
  refine ⟨?_, fle_trans h.nonneg hold, fun k hk => ?_⟩
  · rcases peakOf_cases M (envelope s c (n + 1)) with hpeak | hpeak
    · rw [hpeak]
      exact h.attained.imp_right fun ⟨k, hk, hM⟩ => ⟨k, hk.trans (Nat.lt_succ_self n), hM⟩
    · exact .inr ⟨n, Nat.lt_succ_self n, hpeak⟩
  · rcases Nat.lt_succ_iff_lt_or_eq.1 hk with hlt | rfl
    · exact (h.bound k hlt).imp_right fun hle => fle_trans hle hold
    · exact hnew

/-- A run leaves the block maximum of each tracked channel. -/
theorem meterRun_peak_of_tracked (h : Tracked s c) (n : Nat) :
    IsBlockMaximum s c n (Cells.word (s.meterRun s.ppm.aNch.toNat n).peak c) := by
  induction n with
  | zero => exact isBlockMaximum_zero s c
  | succ n ih =>
    obtain ⟨-, hpeak⟩ := meterRun_succ_of_tracked h n
    rw [hpeak, meterRun_prev_of_tracked h]
    exact ih.succ

end

/-- Settles O39: frame by frame, a tracked channel's slot holds its smoothed value and the block maximum. -/
theorem ppmProcessEmitsTheBlockMaximum : Obligations.PpmProcessEmitsTheBlockMaximum := by
  intro s hinit hframes nf
  refine ⟨_, _, exec_ppmProcess hinit hframes, fun c => ⟨fun h => ?_, fun h => ?_⟩⟩
  · obtain ⟨hattained, hnonneg, hbound⟩ := meterRun_peak_of_tracked h nf
    refine ⟨meterRun_prev_of_tracked h nf, _, hattained, hnonneg, hbound, ?_⟩
    rw [emitAll_word, if_pos ((tracked_iff_lt_emitters s c).1 h), emit]
  · refine ⟨meterRun_prev_of_not_tracked h nf, ?_⟩
    rw [emitAll_word, if_neg (mt (tracked_iff_lt_emitters s c).2 h)]

/-! ### Zero input (R109) -/

section
variable {s : State} {n : Nat}

/-- A sum of channels that are all ±0 is ±0. -/
theorem isZero_channelSum {N : Nat} (hN : 1 ≤ N)
    (hz : ∀ c < N, isZero (s.readIn c n) = true) : isZero (s.channelSum N n) = true := by
  have key : ∀ k < N, isZero ((List.range k).foldl
      (fun x c => fadd x (s.readIn (c + 1) n)) (s.readIn 0 n)) = true := by
    intro k
    induction k with
    | zero => exact hz 0
    | succ k ih =>
      intro hk
      rw [List.range_succ, List.foldl_concat]
      exact isZero_fadd (ih (by omega)) (hz (k + 1) hk)
  exact key (N - 1) (by omega)

/-- A tracked channel's sample is ±0 when every sample of the frame is. -/
theorem isZero_meterInput (hN : 1 ≤ s.ppm.aNch.toNat) {c : Nat} (h : Tracked s c)
    (hz : ∀ c < s.ppm.aNch.toNat, isZero (s.readIn c n) = true) :
    isZero (meterInput s c n) = true := by
  unfold Tracked at h
  unfold meterInput
  split
  · exact isZero_channelSum hN hz
  · next hmode =>
    rw [if_neg hmode] at h
    exact hz c h

end

/-- From +0, on samples that are all ±0, the smoothed value stays +0. -/
theorem envelope_eq_posZero {s : State} {c nf : Nat}
    (hac : fle posZero s.ppm.acoef = true ∧ fle s.ppm.acoef ONE = true)
    (hprev : Cells.word s.ppm.prev c = 0)
    (hz : ∀ n < nf, isZero (meterInput s c n) = true) : ∀ n ≤ nf, envelope s c n = posZero := by
  obtain ⟨hac0, hac1⟩ := hac
  intro n
  induction n with
  | zero => exact fun _ => hprev
  | succ n ih =>
    intro hn
    rw [envelope, ih (by omega), fabs_of_isZero (hz n hn)]
    exact smooth_posZero _ hac0 hac1

theorem emit_posZero (db : Bool) :
    (if db then fmul K20 (config.log10 posZero) else posZero) =
      if db then 0xFF800000#32 else 0x00000000#32 := by
  obtain ⟨hlog, -⟩ := legalLog10_legal Config.log10Raw
  have hdb : fmul K20 negInf = negInf := by decide
  cases db
  · rfl
  · simp only [if_true, config, hlog, hdb]
    rfl

/-- Settles O44: every smoothed value is +0, hence so is the maximum. -/
theorem zeroInputMetersZero : Obligations.ZeroInputMetersZero := by
  intro s hs hinit hframes hz hprev
  have hr := hs.ppm.1 hinit
  have henv : ∀ c, Tracked s c → ∀ n ≤ s.frames.toNat, envelope s c n = posZero := fun c h =>
    envelope_eq_posZero hr.attack (hprev c) fun n hn =>
      isZero_meterInput hr.channels.1 h fun c hc => hz c n hc hn
  obtain ⟨prev, out, hexec, hchannel⟩ := ppmProcessEmitsTheBlockMaximum s hinit hframes
  refine ⟨_, hexec, fun c => ?_, fun c h => ?_⟩
  · obtain ⟨htracked, huntracked⟩ := hchannel c
    by_cases h : Tracked s c
    · obtain ⟨hword, -⟩ := htracked h
      exact hword.trans (henv c h _ le_rfl)
    · obtain ⟨hword, -⟩ := huntracked h
      exact hword.trans (hprev c)
  · obtain ⟨htracked, -⟩ := hchannel c
    obtain ⟨-, M, hM, -, -, hout⟩ := htracked h
    obtain rfl : M = posZero := by
      rcases hM with hM | ⟨n, hn, hM⟩
      · exact hM
      · exact hM.trans (henv c h (n + 1) hn)
    exact hout.trans (emit_posZero s.ppm.db)

end Sys2Proof.Proofs
end

section
/-! How commands end: a command that raises an error leaves no partial result (R113), and the word written
to CMD decides which error is reported (R114). -/

namespace Sys2Proof.Proofs

open Sys2Proof.Machine Sys2Proof.Spec

/-! ### Errors leave no partial result (R113) -/

/-- Settles O13: a command that raises an error leaves its aftermath, which differs from the state before
it in a cleared unit alone, and for the two INITs only. -/
theorem failingCommandsLeaveNoPartialResult : Obligations.FailingCommandsLeaveNoPartialResult := by
  intro i s
  refine ⟨_, exec_eq i s, fun herr => (eq_of_exec_of_error (exec_eq i s) herr).trans ?_⟩
  cases i <;> rfl

/-! ### The word of a command decodes to it (R56 to R60) -/

/-- The table's row for the OP of a command is the command's own. -/
theorem opRow_opCode (i : Instr) :
    ∃ selMustBeZero, opRow (opCode i) i.sel = some (i, selMustBeZero) := by
  cases i <;> exact ⟨_, rfl⟩

/-- The fields of the word of a well-formed command: its OP, its selector, and RSV 0. -/
theorem fields_encode {i : Instr} (h : i.sel < 2 ^ 8) :
    opField (encode i) = opCode i ∧ selField (encode i) = i.sel ∧ rsvField (encode i) = 0 := by
  have hop := opCode_lt i
  rw [opField_eq, selField_eq, rsvField_eq, toNat_encode h]
  omega

theorem decode_encode {i : Instr} (h : i.wellFormed = true) : decode (encode i) = .ok i := by
  obtain ⟨hop, hsel, hrsv⟩ := fields_encode (of_decide_eq_true h)
  obtain ⟨selMustBeZero, hrow⟩ := opRow_opCode i
  obtain ⟨-, hi, -⟩ := opRow_some hrow
  rw [decode_eq_ok_iff, hop, hsel]
  refine ⟨selMustBeZero, hrow, hrsv, fun hzero => ?_⟩
  rwa [if_pos hzero] at hi

/-! ### The first error (R114) -/

theorem wordError_encode (s : State) {i : Instr} (h : i.wellFormed = true) :
    wordError s (encode i) = firstError s i := by
  rw [wordError, decode_encode h]

/-- Settles O14: an illegal word raises IllegalCommand, and the word of a command decodes to the command,
which reports the first of its own checks that fails. -/
theorem firstErrorIsReported : Obligations.FirstErrorIsReported := by
  intro s w rest hiss
  constructor
  · intro hill
    exact ⟨_, (illegalWordsOnlyRaise s w rest hiss).1 hill, rfl⟩
  · rintro i hwf rfl
    obtain ⟨t, ht, -, herr⟩ := exists_step_of_issues hiss
    exact ⟨t, ht, herr.trans (wordError_encode s hwf)⟩

end Sys2Proof.Proofs
end

section
/-! Hardware reset gives every register its reset value, and the INITs reject the staging it leaves (R83, R99,
R124). -/

namespace Sys2Proof.Proofs

open Sys2Proof.Machine Sys2Proof.Laws Sys2Proof.Spec

/-- Everything of the block but the sample buffers holds its reset value: the state is State.reset but for the
model's own fields and the buffers, whose contents R125 leaves open. -/
def AtReset (s : State) : Prop :=
  s = { State.reset with
    cfg := s.cfg, buf := s.buf, draws := s.draws, pending := s.pending, rdata := s.rdata }

theorem atReset_reset : AtReset State.reset := rfl

theorem atReset_hardReset (s : State) : AtReset s.hardReset := rfl

section
variable {s : State}

theorem AtReset.vib_eq (h : AtReset s) : s.vib = Vib.reset := by rw [h]; rfl

theorem AtReset.ppm_eq (h : AtReset s) : s.ppm = Ppm.reset := by rw [h]; rfl

theorem AtReset.err_eq (h : AtReset s) : s.err = .noError := by rw [h]; rfl

/-- Every register but the sample words reads 0. -/
theorem AtReset.readReg_eq_zero (h : AtReset s) {r : Reg}
    (hr : ∀ c n, r ≠ .inWord c n ∧ r ≠ .outWord c n) : s.readReg r = 0 := by
  rw [h]
  cases r
  case inWord c n => exact absurd rfl (hr c n).1
  case outWord c n => exact absurd rfl (hr c n).2
  all_goals rfl

theorem AtReset.cell_eq_zero (h : AtReset s) (c k : Nat) :
    Cells.word (s.vib.line c).cells k = 0 := by
  rw [h.vib_eq]
  rfl

/-! ### The INITs reject the sample rate 0 (R83, R99) -/

theorem fgt_zero_posZero : F32.fgt 0 F32.posZero = false := by decide

/-- VIB_INIT checks the sample rate, which reset leaves at 0; clearing the unit then changes nothing. -/
theorem AtReset.exec_vibInit (h : AtReset s) :
    exec .vibInit s = .next { s with err := .invalidArgs } := by
  have hargs : ¬VibArgs s := by
    rintro ⟨⟨-, hpos⟩, -⟩
    rw [h.vib_eq] at hpos
    exact Bool.false_ne_true (fgt_zero_posZero.symm.trans hpos)
  have herr : firstError s .vibInit = .invalidArgs := if_pos hargs
  have hclear : s.vibClear = s := by
    rw [h]
    rfl
  rw [exec_of_error herr nofun, aftermath, hclear, State.setErr]

/-- PPM_INIT checks the sample rate, which reset leaves at 0; clearing the unit then changes nothing. -/
theorem AtReset.exec_ppmInit (h : AtReset s) :
    exec .ppmInit s = .next { s with err := .invalidArgs } := by
  have hargs : ¬PpmArgs s := by
    rintro ⟨⟨-, hpos⟩, -⟩
    rw [h.ppm_eq] at hpos
    exact Bool.false_ne_true (fgt_zero_posZero.symm.trans hpos)
  have herr : firstError s .ppmInit = .invalidArgs := if_pos hargs
  have hclear : s.ppmClear = s := by
    rw [h]
    rfl
  rw [exec_of_error herr nofun, aftermath, hclear, State.setErr]

end

/-- Settles O50: a reset step and State.reset leave the reset values, and the staging among them is no legal
one. -/
theorem resetGivesTheResetValues : Obligations.ResetGivesTheResetValues := by
  refine ⟨fun s rest hpend => ?_, fun r hr => atReset_reset.readReg_eq_zero hr⟩
  have h := atReset_hardReset { s with pending := rest }
  exact ⟨_, step_reset hpend, fun r hr => h.readReg_eq_zero hr, h.cell_eq_zero, h.err_eq,
    congrArg Vib.init h.vib_eq, congrArg Ppm.init h.ppm_eq, h.exec_vibInit, h.exec_ppmInit⟩

end Sys2Proof.Proofs
end

section
/-! Staging registers take effect only at INIT (R131): every other command commutes with a change of them, and
PPM_CTRL.DB changes only what PPM_PROCESS emits. -/

namespace Sys2Proof.Proofs

open Sys2Proof.Machine Sys2Proof.Laws Sys2Proof.Spec

/-! ### The changes of staging registers -/

/-- Other contents of the vibrato unit's staging registers (R29). -/
def stageVib (fs nch freq width amp : Word) (s : State) : State :=
  { s with vib := { s.vib with fs := fs, nch := nch, freq := freq, width := width, amp := amp } }

/-- Other contents of the PPM unit's staging registers but for PPM_CTRL.DB (R35). -/
def stagePpm (fs nch : Word) (mode : Bool) (s : State) : State :=
  { s with ppm := { s.ppm with fs := fs, nch := nch, mode := mode } }

/-- Another PPM_CTRL.DB (R35). -/
def stageDb (db : Bool) (s : State) : State := { s with ppm := { s.ppm with db := db } }

/-! ### Changes a command does not see -/

/-- Command i does not see the change f of the state: it ends the same way after f as before it, and carries
the change along. -/
structure Unseen (i : Instr) (f : State → State) : Prop where
  error : ∀ s, firstError (f s) i = firstError s i
  effect : ∀ s, effect i (f s) = f (effect i s)
  aftermath : ∀ s, aftermath i (f s) = f (aftermath i s)
  setErr : ∀ s e, (f s).setErr e = f (s.setErr e)

theorem Unseen.exec {i : Instr} {f : State → State} (hf : Unseen i f) {s t : State}
    (h : exec i s = .next t) : exec i (f s) = .next (f t) := by
  have houtcome : outcome i (f s) = f (outcome i s) := by
    unfold outcome
    rw [hf.error, hf.effect, hf.aftermath]
    exact (apply_ite f _ _ _).symm
  rw [exec_eq, hf.error, houtcome, hf.setErr, eq_of_exec h]

/-- The frames of VIB_PROCESS do not see the change f: their reads are the same after it, and their writes
carry it along. -/
structure UnseenByFrames (f : State → State) : Prop where
  readIn : ∀ s c n, (f s).readIn c n = s.readIn c n
  dlRead : ∀ s c d, (f s).dlRead c d = s.dlRead c d
  delay : ∀ F s, instantDelay F (f s).vib = instantDelay F s.vib
  dlWrite : ∀ s c w, (f s).dlWrite c w = f (s.dlWrite c w)
  writeOut : ∀ s c n w, (f s).writeOut c n w = f (s.writeOut c n w)
  advancePhase : ∀ s, (f s).advancePhase = f s.advancePhase

section
variable {f : State → State} (hf : UnseenByFrames f)
include hf

theorem UnseenByFrames.writeFrame (N n : Nat) (s : State) :
    (f s).writeFrame N n = f (s.writeFrame N n) :=
  List.foldl_hom f fun s c => by rw [hf.readIn, hf.dlWrite]

theorem UnseenByFrames.readFrame (N n : Nat) (d : Word) (s : State) :
    (f s).readFrame N n d = f (s.readFrame N n d) :=
  List.foldl_hom f fun s c => by rw [hf.dlRead, hf.writeOut]

theorem UnseenByFrames.vibFrames (F : Functions) (N nf : Nat) (s : State) :
    (f s).vibFrames F N nf = f (s.vibFrames F N nf) :=
  List.foldl_hom f fun s n => by
    rw [State.vibFrame, hf.delay, hf.writeFrame, hf.readFrame, hf.advancePhase, State.vibFrame]

end

theorem unseenByFrames_stageVib (fs nch freq width amp : Word) :
    UnseenByFrames (stageVib fs nch freq width amp) := by
  constructor <;> intros <;> rfl

theorem unseenByFrames_stagePpm (fs nch : Word) (mode : Bool) :
    UnseenByFrames (stagePpm fs nch mode) := by
  constructor <;> intros <;> rfl

theorem unseenByFrames_stageDb (db : Bool) : UnseenByFrames (stageDb db) := by
  constructor <;> intros <;> rfl

/-! ### Only the INITs see the staging registers (R131) -/

theorem unseen_stageVib {i : Instr} (hi : i ≠ .vibInit) (fs nch freq width amp : Word) :
    Unseen i (stageVib fs nch freq width amp) where
  error s := by
    cases i
    case vibInit => exact absurd rfl hi
    all_goals rfl
  effect s := by
    cases i
    case vibInit => exact absurd rfl hi
    case vibProcess => exact (unseenByFrames_stageVib fs nch freq width amp).vibFrames _ _ _ s
    all_goals rfl
  aftermath s := by cases i <;> rfl
  setErr _ _ := rfl

theorem unseen_stagePpm {i : Instr} (hi : i ≠ .ppmInit) (fs nch : Word) (mode : Bool) :
    Unseen i (stagePpm fs nch mode) where
  error s := by
    cases i
    case ppmInit => exact absurd rfl hi
    all_goals rfl
  effect s := by
    cases i
    case ppmInit => exact absurd rfl hi
    case vibProcess => exact (unseenByFrames_stagePpm fs nch mode).vibFrames _ _ _ s
    case ppmSetParam p => simp only [effect]; split <;> rfl
    all_goals rfl
  aftermath s := by cases i <;> rfl
  setErr _ _ := rfl

/-- PPM_INIT does not latch PPM_CTRL.DB; PPM_PROCESS alone reads it. -/
theorem unseen_stageDb {i : Instr} (hi : i ≠ .ppmProcess) (db : Bool) : Unseen i (stageDb db) where
  error s := by cases i <;> rfl
  effect s := by
    cases i
    case ppmProcess => exact absurd rfl hi
    case vibProcess => exact (unseenByFrames_stageDb db).vibFrames _ _ _ s
    case ppmSetParam p => simp only [effect]; split <;> rfl
    all_goals rfl
  aftermath s := by cases i <;> rfl
  setErr _ _ := rfl

/-! ### What PPM_PROCESS does with PPM_CTRL.DB (R97, R103) -/

/-- The frames do not see PPM_CTRL.DB. -/
theorem meterRun_stageDb (db : Bool) (s : State) (N nf : Nat) :
    (stageDb db s).meterRun N nf = s.meterRun N nf := rfl

/-- A tracked channel emits its maximum, in decibels when PPM_CTRL.DB says so. -/
theorem emitAll_stageDb {s : State} {c : Nat} (h : Tracked s c) (F : Functions) (db : Bool)
    (m : Meter) :
    Cells.word ((stageDb db s).emitAll F s.ppm.aNch.toNat m) c =
      emit F (Cells.word m.peak c) db := by
  have hemits : c < (stageDb db s).emitters s.ppm.aNch.toNat := (tracked_iff_lt_emitters s c).1 h
  rw [emitAll_word, if_pos hemits]
  rfl

/-- Settles O53: no command but the unit's INIT sees its staging, and PPM_PROCESS reads DB when it emits. -/
theorem stagingTakesEffectOnlyAtInit : Obligations.StagingTakesEffectOnlyAtInit := by
  refine ⟨fun i s t fs nch freq width amp hi h =>
      (unseen_stageVib hi fs nch freq width amp).exec h,
    fun i s t fs nch mode hi h => (unseen_stagePpm hi fs nch mode).exec h,
    fun i s t db hi h => (unseen_stageDb hi db).exec h, fun s t hinit hframes hdb h => ?_⟩
  rw [exec_ppmProcess hinit hframes] at h
  cases h
  refine ⟨_, exec_ppmProcess (s := stageDb true s) hinit hframes,
    congrArg Meter.prev (meterRun_stageDb true s _ _), fun c hc => ?_⟩
  have hout := emitAll_stageDb hc F32.config false
  have hsame : stageDb false s = s := by rw [stageDb, ← hdb]
  rw [hsame] at hout
  rw [hout]
  exact emitAll_stageDb hc F32.config true _

end Sys2Proof.Proofs
end

section
/-! The command words (R56 to R60) and the register map (R22): decoding undoes encoding, and every named word
decodes from its own offset. -/

namespace Sys2Proof.Proofs

open Sys2Proof.Machine Sys2Proof.Laws Sys2Proof.Spec

/-! ### Command words (R56 to R60) -/

/-- Settles O1: the fields of a command's word select the command's own row of the table. -/
theorem decodeEncodeAgree : Obligations.DecodeEncodeAgree := fun _ h => decode_encode h

/-- Settles O2: a word that decodes has RSV 0, and its OP and SEL are those of its command. -/
theorem decodedWordsAreEncodings : Obligations.DecodedWordsAreEncodings := fun _ _ h =>
  encode_of_decode h

/-- Settles O4: each word's fields, evaluated. -/
theorem sampleWordsDecode : Obligations.SampleWordsDecode := by
  unfold Obligations.SampleWordsDecode
  decide

/-! ### The register map (R22) -/

/-- A word offset that the map gives to an existing register names that register. -/
theorem regAt_of_slotReg {p : Params} {off : Nat} {r : Reg} (h4 : off % 4 = 0)
    (h : slotReg p off = some r) (hr : Reg.exists p r = true) : regAt p off = some r := by
  rw [regAt, h4, Nat.sub_zero, h, Option.filter_some, if_pos hr]

/-- The word of a buffer that belongs to channel c and frame n, from its place in the buffer. -/
theorem slot_div_mod {blk c n : Nat} (hn : n < blk) :
    (c * blk + n) / blk = c ∧ (c * blk + n) % blk = n := by
  rw [Nat.mul_comm]
  exact ⟨by rw [Nat.mul_add_div (by omega), Nat.div_eq_of_lt hn, Nat.add_zero],
    by rw [Nat.mul_add_mod, Nat.mod_eq_of_lt hn]⟩

section
variable {p : Params} {off : Nat}

theorem slotReg_of_widx (h : 0x100 ≤ off) (h' : off < 0x140) :
    slotReg p off = some (.vibWidx ((off - 0x100) / 4)) := by
  rw [slotReg, if_neg (by omega), if_pos h']

theorem slotReg_of_prev (h : 0x140 ≤ off) (h' : off < 0x180) :
    slotReg p off = some (.ppmPrev ((off - 0x140) / 4)) := by
  rw [slotReg, if_neg (by omega), if_neg (by omega), if_pos h']

theorem slotReg_of_out (h : 0x180 ≤ off) (h' : off < 0x1C0) :
    slotReg p off = some (.ppmOut ((off - 0x180) / 4)) := by
  rw [slotReg, if_neg (by omega), if_neg (by omega), if_neg (by omega), if_pos h']

theorem slotReg_of_in (h : 0x10000 ≤ off) (h' : off < 0x20000) :
    slotReg p off =
      some (.inWord ((off - 0x10000) / 4 / p.blkMax) ((off - 0x10000) / 4 % p.blkMax)) := by
  rw [slotReg, if_neg (by omega), if_neg (by omega), if_neg (by omega), if_neg (by omega),
    if_neg (by omega), if_pos h']

theorem slotReg_of_outWord (h : 0x20000 ≤ off) (h' : off < 0x30000) :
    slotReg p off =
      some (.outWord ((off - 0x20000) / 4 / p.blkMax) ((off - 0x20000) / 4 % p.blkMax)) := by
  rw [slotReg, if_neg (by omega), if_neg (by omega), if_neg (by omega), if_neg (by omega),
    if_neg (by omega), if_neg (by omega), if_pos h']

end

/-- An existing register's offset is a word offset of the window. -/
theorem offset_lt_window {p : Params} {r : Reg} (hp : p.legal = true) (hr : Reg.exists p r = true) :
    r.offset p < 0x30000 ∧ r.offset p % 4 = 0 := by
  have hlegal := hp
  simp only [Params.legal, Bool.and_eq_true, decide_eq_true_eq] at hlegal
  cases r
  case vibWidx c | ppmPrev c | ppmOut c =>
    have hc : c < p.nchMax := of_decide_eq_true hr
    simp only [Reg.offset]
    omega
  case inWord c n | outWord c n =>
    simp only [Reg.exists, Bool.and_eq_true, decide_eq_true_eq] at hr
    have hslot := slot_lt hp hr.1 hr.2
    simp only [Reg.offset, inOffset, outOffset]
    omega
  all_goals simp [Reg.offset]

/-- The map gives an existing register's offset to it. -/
theorem slotReg_offset {p : Params} {r : Reg} (hp : p.legal = true) (hr : Reg.exists p r = true) :
    slotReg p (r.offset p) = some r := by
  have hlegal := hp
  simp only [Params.legal, Bool.and_eq_true, decide_eq_true_eq] at hlegal
  have word : ∀ base k, (base + 4 * k - base) / 4 = k := fun base k => by omega
  cases r with
  | vibWidx c =>
    have hc : c < p.nchMax := of_decide_eq_true hr
    rw [Reg.offset, slotReg_of_widx (by omega) (by omega), word]
  | ppmPrev c =>
    have hc : c < p.nchMax := of_decide_eq_true hr
    rw [Reg.offset, slotReg_of_prev (by omega) (by omega), word]
  | ppmOut c =>
    have hc : c < p.nchMax := of_decide_eq_true hr
    rw [Reg.offset, slotReg_of_out (by omega) (by omega), word]
  | inWord c n =>
    simp only [Reg.exists, Bool.and_eq_true, decide_eq_true_eq] at hr
    have hslot := slot_lt hp hr.1 hr.2
    obtain ⟨hdiv, hmod⟩ := slot_div_mod (c := c) hr.2
    rw [Reg.offset, inOffset, slotReg_of_in (by omega) (by omega), word, hdiv, hmod]
  | outWord c n =>
    simp only [Reg.exists, Bool.and_eq_true, decide_eq_true_eq] at hr
    have hslot := slot_lt hp hr.1 hr.2
    obtain ⟨hdiv, hmod⟩ := slot_div_mod (c := c) hr.2
    rw [Reg.offset, outOffset, slotReg_of_outWord (by omega) (by omega), word, hdiv, hmod]
  | _ => rfl

/-- Settles O11: the map gives each register its own offset, and an existing register is kept. -/
theorem registerMapRoundTrip : Obligations.RegisterMapRoundTrip := by
  intro p r hp hr
  obtain ⟨hlt, h4⟩ := offset_lt_window hp hr
  exact ⟨regAt_of_slotReg h4 (slotReg_offset hp hr) hr, hlt, h4⟩

end Sys2Proof.Proofs
end

section
/-! What a step can do, said once (R24, R42, R46, R48, R123), and what follows of it at once. -/

namespace Sys2Proof.Proofs

open Sys2Proof.Machine Sys2Proof.Laws Sys2Proof.Spec

/-- The ways a step from s can answer a next state: by the host's next access, and for a write by what the
offset names and what the word decodes to. -/
inductive StepCase (s : State) : State → Prop where
  | idle (h : s.pending = []) : StepCase s s
  | read (a : Nat) (rest : List BusEvent) (d : Word) (h : s.pending = .read a :: rest) :
    StepCase s { s with pending := rest, rdata := some d }
  | reset (rest : List BusEvent) (h : s.pending = .reset :: rest) :
    StepCase s ({ s with pending := rest } : State).hardReset
  | ignored (a : Nat) (w : Word) (rest : List BusEvent) (h : s.pending = .write a w :: rest) :
    StepCase s { s with pending := rest }
  | written (off : Nat) (w : Word) (rest : List BusEvent) (r : Reg)
    (h : s.pending = .write (s.cfg.base + off) w :: rest) (hreg : regAt s.cfg off = some r)
    (hr : r ≠ .cmd) : StepCase s (({ s with pending := rest } : State).writeReg r w)
  | command (w : Word) (rest : List BusEvent) (i : Instr) (t : State) (h : Issues s w rest)
    (hd : decode w = .ok i) (hexec : exec i { s with pending := rest, cmd := w } = .next t) :
    StepCase s t
  | illegal (w : Word) (rest : List BusEvent) (h : Issues s w rest) :
    StepCase s { s with pending := rest, cmd := w, err := .illegalCommand }

/-- A write in the window is ignored, stored, or starts a command. -/
theorem stepCase_of_write {s t : State} {off : Nat} {w : Word} {rest : List BusEvent}
    (h : s.pending = .write (s.cfg.base + off) w :: rest) (hoff : off < 0x30000)
    (ht : step s = .next t) : StepCase s t := by
  rw [step_write hoff h] at ht
  cases hreg : regAt s.cfg off with
  | none =>
    rw [writeOffset_of_none (s := { s with pending := rest }) w hreg] at ht
    cases ht
    exact .ignored _ w rest h
  | some r =>
    by_cases hr : r = .cmd
    · have hlt : off < 4 := (regAt_eq_cmd_iff _ _).1 (hr ▸ hreg)
      have hiss : Issues s w rest := ⟨off, hlt, h⟩
      rw [writeOffset_cmd _ w hlt, State.startCommand] at ht
      cases hd : decode w with
      | ok i =>
        rw [hd] at ht
        exact .command w rest i t hiss hd ht
      | error e =>
        rw [hd] at ht
        cases ht
        exact .illegal w rest hiss
    · rw [writeOffset_of_some (s := { s with pending := rest }) w hreg hr] at ht
      cases ht
      exact .written off w rest r h hreg hr

theorem stepCase_of_step {s t : State} (ht : step s = .next t) : StepCase s t := by
  cases hpend : s.pending with
  | nil =>
    rw [step_nil hpend] at ht
    cases ht
    exact .idle hpend
  | cons e rest =>
    cases e with
    | read a =>
      rw [step_cons hpend, State.perform, State.busRead] at ht
      split at ht
      · cases ht
      · cases ht
        exact .read a rest _ hpend
    | write a w =>
      cases hoff : windowOffset s.cfg a with
      | none =>
        rw [step_cons hpend, State.perform, State.busWrite, hoff] at ht
        cases ht
      | some off =>
        obtain ⟨rfl, hlt⟩ := windowOffset_some hoff
        exact stepCase_of_write hpend hlt ht
    | reset =>
      rw [step_reset hpend] at ht
      cases ht
      exact .reset rest hpend

/-! ### Commands and the host's accesses (R24, R41, R42) -/

/-- Settles O5: a write to CMD runs the command its word encodes, and withFetchWord issues such a write. -/
theorem stepRunsTheDecodedCommand : Obligations.StepRunsTheDecodedCommand := by
  refine ⟨fun s w rest i h hd => step_of_issues h hd, fun s nbits w i h => ?_⟩
  unfold decodeTableWord at h
  split at h
  · split at h
    · next hd =>
      cases h
      exact step_of_issues (s := s.withFetchWord nbits w) (rest := s.pending) ⟨0, by decide, rfl⟩ hd
    · cases h
  · cases h

/-- The bits of a word put together from four bytes, the first byte lowest. -/
theorem getLsbD_wordOf (b0 b1 b2 b3 : Byte) (k : Nat) :
    (wordOf b0 b1 b2 b3).getLsbD k =
      if k < 8 then b0.getLsbD k else if k < 16 then b1.getLsbD (k - 8)
      else if k < 24 then b2.getLsbD (k - 16) else b3.getLsbD (k - 24) := by
  simp only [wordOf, BitVec.getLsbD_append, Nat.sub_sub]
  split_ifs <;> first | rfl | omega

/-- Each lane of such a word is the byte that was put there. -/
theorem extractLsb'_wordOf (b0 b1 b2 b3 : Byte) :
    (wordOf b0 b1 b2 b3).extractLsb' 0 8 = b0 ∧ (wordOf b0 b1 b2 b3).extractLsb' 8 8 = b1 ∧
    (wordOf b0 b1 b2 b3).extractLsb' 16 8 = b2 ∧ (wordOf b0 b1 b2 b3).extractLsb' 24 8 = b3 := by
  refine ⟨?_, ?_, ?_, ?_⟩ <;>
  · apply BitVec.eq_of_getLsbD_eq
    intro k hk
    rw [BitVec.getLsbD_extractLsb', getLsbD_wordOf, decide_eq_true hk, Bool.true_and]
    split_ifs <;> first | omega | (congr 1; omega)

/-- Settles O10: bufWord puts the four bytes together, and each lane is its own byte. -/
theorem byteLanesAreLittleEndian : Obligations.ByteLanesAreLittleEndian := by
  intro s a i hi
  obtain ⟨h0, h1, h2, h3⟩ := extractLsb'_wordOf (s.bufByte a) (s.bufByte (a + 1))
    (s.bufByte (a + 2)) (s.bufByte (a + 3))
  match i, hi with
  | 0, _ => exact h0.symm
  | 1, _ => exact h1.symm
  | 2, _ => exact h2.symm
  | 3, _ => exact h3.symm

theorem windowOffset_outside {p : Params} {a : Nat} (h : ¬(p.base ≤ a ∧ a < p.base + 0x30000)) :
    windowOffset p a = none := if_neg h

/-- Settles O12: every access inside the window answers a next state, and windowOffset refuses the others. -/
theorem onlyAccessesOutsideTheWindowStop : Obligations.OnlyAccessesOutsideTheWindowStop := by
  refine fun s => ⟨step_nil, fun rest h => ⟨_, step_reset h⟩, fun a rest h => ⟨fun hin => ?_,
    fun hout => ?_⟩⟩
  · obtain ⟨off, rfl⟩ := Nat.exists_eq_add_of_le hin.1
    have hoff : off < 0x30000 := by omega
    rcases h with h | ⟨w, h⟩
    · exact ⟨_, step_read hoff h⟩
    · obtain ⟨t, ht⟩ := exists_writeOffset { s with pending := rest } off w
      exact ⟨t, (step_write hoff h).trans ht⟩
  · have hnone := windowOffset_outside hout
    rcases h with h | ⟨w, h⟩
    · rw [step_cons h, State.perform, State.busRead, hnone]
    · rw [step_cons h, State.perform, State.busWrite, hnone]

/-! ### What no command writes (R24 to R29, R35) -/

/-- Both states hold the same staging registers and PPM_CTRL (R29, R35). -/
def SameStaging (s t : State) : Prop :=
  (t.vib.fs = s.vib.fs ∧ t.vib.nch = s.vib.nch ∧ t.vib.freq = s.vib.freq ∧
    t.vib.width = s.vib.width ∧ t.vib.amp = s.vib.amp) ∧
  t.ppm.fs = s.ppm.fs ∧ t.ppm.nch = s.ppm.nch ∧ t.ppm.mode = s.ppm.mode ∧ t.ppm.db = s.ppm.db

/-- No command writes a staging register or PPM_CTRL. -/
theorem outcome_staging (i : Instr) (s : State) : SameStaging s (outcome i s) := by
  refine outcome_elim ?_ ?_
  · cases i
    case vibProcess =>
      rw [effect, vibFrames_frame]
      exact ⟨⟨rfl, rfl, rfl, rfl, rfl⟩, rfl, rfl, rfl, rfl⟩
    case ppmSetParam p =>
      simp only [effect]
      split <;> exact ⟨⟨rfl, rfl, rfl, rfl, rfl⟩, rfl, rfl, rfl, rfl⟩
    all_goals exact ⟨⟨rfl, rfl, rfl, rfl, rfl⟩, rfl, rfl, rfl, rfl⟩
  · cases i <;> exact ⟨⟨rfl, rfl, rfl, rfl, rfl⟩, rfl, rfl, rfl, rfl⟩

/-- Settles O16: a command writes RESULT, its unit and the buffers at most, and no staging in its unit. -/
theorem commandsLeaveTheHostsRegisters : Obligations.CommandsLeaveTheHostsRegisters := by
  intro i s t h
  obtain ⟨⟨hfs, hnch, hfreq, hwidth, hamp⟩, hppm⟩ := outcome_staging i s
  have hframe := outcome_frame i s
  rw [eq_of_exec h]
  refine ⟨?_, ?_, ?_, ?_, ?_, ?_, ?_, hfs, hnch, hfreq, hwidth, hamp, hppm⟩ <;> rw [hframe] <;> rfl

end Sys2Proof.Proofs
end

section
/-! The smoothing filter keeps what it smooths at or above +0 (R39, R94, R107, R108): one step from finite values,
one step from values that may be +∞, and NaN operands. -/

namespace Sys2Proof.Proofs

open Sys2Proof.Machine Sys2Proof.F32 Sys2Proof.Laws Sys2Proof.Spec

/-! ### Numbers that are not negative (R14) -/

/-- A number that is not finite is one of the infinities. -/
theorem eq_inf_of_not_isFinite {x : Word} (hn : isNaN x = false) (hx : isFinite x = false) :
    x = posInf ∨ x = negInf := by
  have habs : absBits x = 0x7F800000 := by
    rw [isNaN_false_iff] at hn
    by_contra hne
    rw [(isFinite_iff x).2 (by omega)] at hx
    cases hx
  cases hs : sign x
  · exact .inl (word_ext (hs.trans (by decide)) (habs.trans (by decide)))
  · exact .inr (word_ext (hs.trans (by decide)) (habs.trans (by decide)))

/-- Of the infinities, only +∞ is at least +0. -/
theorem eq_posInf_of_fle_posZero {x : Word} (h : fle posZero x = true) (hx : isFinite x = false) :
    x = posInf := by
  rcases eq_inf_of_not_isFinite (isNaN_of_fle_right h) hx with rfl | rfl
  · rfl
  · exact absurd h (by decide +kernel)

/-- A rectified number is at least +0. -/
theorem fle_posZero_fabs {x : Word} (h : isNaN x = false) : fle posZero (fabs x) = true :=
  fle_posZero_of_val_nonneg ((isNaN_fabs x).trans h) (val_nonneg_of_sign (sign_fabs x))

/-- An infinity rectifies to +∞. -/
theorem fabs_of_isInf {x : Word} (h : isInf x = true) : fabs x = posInf :=
  word_ext ((sign_fabs x).trans (by decide))
    ((absBits_fabs x).trans (((isInf_iff x).1 h).trans (by decide)))

/-! ### NaN operands (R13) -/

theorem fadd_of_isNaN {a b : Word} (h : isNaN a = true ∨ isNaN b = true) : fadd a b = qNaN :=
  if_pos (Bool.or_eq_true_iff.2 h)

theorem fmul_of_isNaN {a b : Word} (h : isNaN a = true ∨ isNaN b = true) : fmul a b = qNaN :=
  if_pos (Bool.or_eq_true_iff.2 h)

theorem fdiv_of_isNaN {a b : Word} (h : isNaN a = true ∨ isNaN b = true) : fdiv a b = qNaN :=
  if_pos (Bool.or_eq_true_iff.2 h)

/-- No comparison holds of a NaN, so the filter attacks and the NaN is in the sum. -/
theorem smooth_of_isNaN {prev cur : Word} (ac rc : Word) (h : isNaN prev = true ∨ isNaN cur = true) :
    smooth prev cur ac rc = qNaN := by
  have hcmp : fgt prev cur = false := by
    rw [← Bool.not_eq_true, fgt_iff]
    rintro ⟨hp, hc, -⟩
    rcases h with h | h
    · rw [h] at hp; cases hp
    · rw [h] at hc; cases hc
  have hq : isNaN qNaN = true := by decide
  rw [smooth_attack ac rc hcmp]
  refine fadd_of_isNaN ?_
  rcases h with h | h
  · exact .inr (by rw [fmul_of_isNaN (.inr h), hq])
  · exact .inl (by rw [fmul_of_isNaN (.inr h), hq])

/-! ### Products and sums with +∞ (R12) -/

/-- A positive finite number times +∞ is +∞. -/
theorem fmul_posInf_right {a : Word} (ha : isFinite a = true) (hpos : 0 < val a) :
    fmul a posInf = posInf := by
  have hz : isZero a = false := by
    rw [← Bool.not_eq_true, ← val_eq_zero]
    exact hpos.ne'
  have hnan : isNaN posInf = false := by decide
  have hinf : isInf posInf = true := by decide
  have hnz : isZero posInf = false := by decide
  simp only [fmul, isNaN_of_isFinite ha, hnan, hinf, hz, hnz, sign_of_val_pos hpos, Bool.or_self,
    Bool.or_true, Bool.false_eq_true, if_false, if_true]
  decide

/-- +∞ plus a finite number is +∞, in either order. -/
theorem fadd_posInf_of_isFinite {x : Word} (hx : isFinite x = true) :
    fadd posInf x = posInf ∧ fadd x posInf = posInf := by
  have hn : isNaN posInf = false := by decide
  have hi : isInf posInf = true := by decide
  simp only [fadd, isNaN_of_isFinite hx, isInf_of_isFinite hx, hn, hi, Bool.or_self,
    Bool.false_eq_true, if_false, if_true, Bool.false_and, and_self]

/-- +∞ plus a number that is not negative is +∞, in either order. -/
theorem fadd_posInf {x : Word} (h : fle posZero x = true) :
    fadd posInf x = posInf ∧ fadd x posInf = posInf := by
  cases hx : isFinite x
  · rw [eq_posInf_of_fle_posZero h hx]
    decide
  · exact fadd_posInf_of_isFinite hx

/-- A positive finite number times a number that is not negative is not negative. -/
theorem fle_posZero_fmul {k x : Word} (hk : isFinite k = true) (hpos : 0 < val k)
    (h : fle posZero x = true) : fle posZero (fmul k x) = true := by
  cases hx : isFinite x
  · rw [eq_posInf_of_fle_posZero h hx, fmul_posInf_right hk hpos]
    decide +kernel
  · exact fle_posZero_of_val_nonneg (fmul_finite hk hx).1
      (val_fmul_nonneg hk hx hpos.le (val_nonneg_of_fle_posZero h))

/-- A sum of numbers that are not negative is not negative. -/
theorem fle_posZero_fadd {a b : Word} (ha : fle posZero a = true) (hb : fle posZero b = true) :
    fle posZero (fadd a b) = true := by
  have hinf : fle posZero posInf = true := by decide +kernel
  cases hfa : isFinite a
  · rw [eq_posInf_of_fle_posZero ha hfa, (fadd_posInf hb).1, hinf]
  · cases hfb : isFinite b
    · rw [eq_posInf_of_fle_posZero hb hfb, (fadd_posInf ha).2, hinf]
    · obtain ⟨hn, hv⟩ := fadd_finite hfa hfb
      refine fle_posZero_of_val_nonneg hn (hv ▸ roundVal_nonneg ?_ 1)
      exact add_nonneg (val_nonneg_of_fle_posZero ha) (val_nonneg_of_fle_posZero hb)

/-- A number plus a finite one is a number. -/
theorem isNaN_fadd_of_isFinite {a b : Word} (ha : isNaN a = false) (hb : isFinite b = true) :
    isNaN (fadd a b) = false := by
  cases hfa : isFinite a
  · have hi : isInf a = true := by rcases eq_inf_of_not_isFinite ha hfa with rfl | rfl <;> decide
    simp only [fadd, ha, hi, isNaN_of_isFinite hb, isInf_of_isFinite hb, Bool.or_self, Bool.false_and,
      Bool.false_eq_true, if_false, if_true]
  · exact (fadd_finite hfa hb).1

/-! ### Coefficients (R36) -/

/-- A coefficient in [0, 1] is finite, its value between 0 and 2^149 units. -/
theorem coefficient_finite {k : Word} (h0 : fle posZero k = true) (h1 : fle k ONE = true) :
    isFinite k = true ∧ 0 ≤ val k ∧ val k ≤ 2 ^ 149 := by
  obtain ⟨-, -, hle⟩ := (fle_iff _ _).1 h1
  have hnn := val_nonneg_of_fle_posZero h0
  exact ⟨isFinite_of_val_le isFinite_ONE hnn hle, hnn, val_ONE ▸ hle⟩

/-- What a coefficient leaves of 1.0 is a coefficient in [0, 1] too. -/
theorem rest_finite {k : Word} (h0 : fle posZero k = true) (h1 : fle k ONE = true) :
    isFinite (fsub ONE k) = true ∧ 0 ≤ val (fsub ONE k) ∧ val (fsub ONE k) ≤ 2 ^ 149 := by
  obtain ⟨hr0, hr1⟩ := fsub_ONE_between h0 h1
  exact coefficient_finite hr0 hr1

/-- What a coefficient below 1.0 leaves of it is positive: at least the smallest number there is. -/
theorem val_fsub_ONE_pos {k : Word} (hk : isFinite k = true) (h : flt k ONE = true) :
    0 < val (fsub ONE k) := by
  obtain ⟨-, -, hlt⟩ := (flt_iff _ _).1 h
  obtain ⟨-, hv⟩ := fsub_finite isFinite_ONE hk
  have hone : val 0x00000001#32 = 1 := by decide +kernel
  have hmin : val 0x00000001#32 ≤ val (fsub ONE k) := by
    rw [hv]
    refine le_roundVal one_pos (by decide) ?_
    rw [hone]
    push_cast
    omega
  omega

/-- A product with a coefficient in [0, 1] is at most the other factor in magnitude, so it is finite. -/
theorem isFinite_coefficient_fmul {k x : Word} (hk : isFinite k = true) (hk0 : 0 ≤ val k)
    (hk1 : val k ≤ 2 ^ 149) (hx : isFinite x = true) : isFinite (fmul k x) = true := by
  obtain ⟨-, hv, -⟩ := fmul_finite hk hx
  have habs : |val k * val x| ≤ mag x * (2 ^ 149 : Nat) := by
    rw [abs_mul, abs_of_nonneg hk0, abs_val, mul_comm]
    exact mul_le_mul_of_nonneg_left (by push_cast; exact hk1) (by positivity)
  obtain ⟨hlo, hhi⟩ := abs_le.1 habs
  have hn : isNaN (fabs x) = false := (isNaN_fabs x).trans (isNaN_of_isFinite hx)
  rw [isFinite_iff_val] at hx ⊢
  refine lt_of_le_of_lt ?_ hx
  rw [hv, abs_val, ← val_fabs, abs_le, ← val_neg]
  constructor
  · refine le_roundVal (by positivity) ((isNaN_neg _).trans hn) ?_
    rwa [val_neg, val_fabs, neg_mul]
  · refine roundVal_le (by positivity) hn ?_
    rwa [val_fabs]

theorem coefficient_fmul_nonneg {k x : Word} (hk : isFinite k = true) (hk0 : 0 ≤ val k)
    (hk1 : val k ≤ 2 ^ 149) (hx : isFinite x = true) (hx0 : 0 ≤ val x) :
    isFinite (fmul k x) = true ∧ 0 ≤ val (fmul k x) :=
  ⟨isFinite_coefficient_fmul hk hk0 hk1 hx, val_fmul_nonneg hk hx hk0 hx0⟩

/-! ### One step (R94, R107) -/

/-- The magnitude of a product of finite numbers. -/
theorem val_fmul_eq {a b : Word} (ha : isFinite a = true) (hb : isFinite b = true) (ha0 : 0 ≤ val a)
    (hb0 : 0 ≤ val b) : val (fmul a b) = magOf (roundMag (mag a * mag b) (2 ^ 149)) := by
  obtain ⟨-, hv, -⟩ := fmul_finite ha hb
  rw [hv, val_eq_mag_of_nonneg ha0, val_eq_mag_of_nonneg hb0, ← Nat.cast_mul,
    roundVal_ofNat _ _ (by positivity)]

theorem mag_le_maxMag {a : Word} (h : isFinite a = true) : mag a ≤ maxMag := by
  obtain ⟨n, e, hmag, hn, he⟩ := mag_significand h
  rw [hmag, maxMag]
  exact Nat.mul_le_mul (by omega) (Nat.pow_le_pow_right (by decide) he)

/-- The sum of an ATTACK step does not overflow: its weights add to 1.0, but for one rounding. -/
theorem attack_finite {prev cur ac : Word} (hprev : isFinite prev = true) (hprev0 : 0 ≤ val prev)
    (h0 : fle posZero ac = true) (h1 : fle ac ONE = true) (hcur : isFinite cur = true)
    (hcur0 : 0 ≤ val cur) :
    isFinite (fadd (fmul ac cur) (fmul (fsub ONE ac) prev)) = true := by
  obtain ⟨hac, hac0, hac1⟩ := coefficient_finite h0 h1
  obtain ⟨hr, hr0, hr1⟩ := rest_finite h0 h1
  obtain ⟨hx, hx0⟩ := coefficient_fmul_nonneg hac hac0 hac1 hcur hcur0
  obtain ⟨hy, hy0⟩ := coefficient_fmul_nonneg hr hr0 hr1 hprev hprev0
  have hmac : val ac = (mag ac : Int) := val_eq_mag_of_nonneg hac0
  have hrest : mag (fsub ONE ac) = magOf (roundMag (2 ^ 149 - mag ac) 1) := by
    obtain ⟨-, hv⟩ := fsub_finite isFinite_ONE hac
    have hsub : val ONE - val ac = ((2 ^ 149 - mag ac : Nat) : Int) := by
      rw [val_ONE, hmac]
      omega
    rw [hsub, roundVal_ofNat _ _ one_pos, val_eq_mag_of_nonneg hr0] at hv
    exact_mod_cast hv
  have hsum := weighted_sum_lt_overflow (absBits ac) (mag cur) (mag prev) (by rw [← mag_eq]; omega)
    (mag_le_maxMag hcur) (mag_le_maxMag hprev)
  rw [← mag_eq, ← hrest] at hsum
  obtain ⟨-, hv⟩ := fadd_finite hx hy
  rw [val_fmul_eq hac hcur hac0 hcur0, val_fmul_eq hr hprev hr0 hprev0, ← Nat.cast_add,
    roundVal_ofNat _ _ one_pos] at hv
  rw [isFinite_iff_val, hv, Nat.abs_cast, Nat.cast_lt, magOf_lt]
  refine lt_of_le_of_ne (roundMag_le _ _) fun h => ?_
  rw [roundMag_eq_inf _ _ one_pos] at h
  omega

/-- From finite values that are not negative, with coefficients in [0, 1], a step gives such a value. -/
theorem smooth_finite {prev cur ac rc : Word} (hprev : isFinite prev = true)
    (hprev0 : fle posZero prev = true) (hac0 : fle posZero ac = true) (hac1 : fle ac ONE = true)
    (hrc0 : fle posZero rc = true) (hrc1 : fle rc ONE = true) (hcur : isFinite cur = true)
    (hcur0 : fle posZero cur = true) :
    isFinite (smooth prev cur ac rc) = true ∧ fle posZero (smooth prev cur ac rc) = true := by
  have hp0 := val_nonneg_of_fle_posZero hprev0
  have hc0 := val_nonneg_of_fle_posZero hcur0
  cases hcmp : fgt prev cur
  · rw [smooth_attack ac rc hcmp]
    obtain ⟨hac, ha0, ha1⟩ := coefficient_finite hac0 hac1
    obtain ⟨hr, hr0, hr1⟩ := rest_finite hac0 hac1
    obtain ⟨hx, hx0⟩ := coefficient_fmul_nonneg hac ha0 ha1 hcur hc0
    obtain ⟨hy, hy0⟩ := coefficient_fmul_nonneg hr hr0 hr1 hprev hp0
    exact ⟨attack_finite hprev hp0 hac0 hac1 hcur hc0,
      fle_posZero_fadd (fle_posZero_of_val_nonneg (isNaN_of_isFinite hx) hx0)
        (fle_posZero_of_val_nonneg (isNaN_of_isFinite hy) hy0)⟩
  · rw [smooth_release ac rc hcmp]
    obtain ⟨hr, hr0, hr1⟩ := rest_finite hrc0 hrc1
    obtain ⟨hx, hx0⟩ := coefficient_fmul_nonneg hr hr0 hr1 hprev hp0
    exact ⟨hx, fle_posZero_of_val_nonneg (isNaN_of_isFinite hx) hx0⟩

/-- From values that are not negative, +∞ among them, a step with coefficients below 1.0, the attack
coefficient positive, gives such a value: no weight is 0. -/
theorem smooth_nonneg {prev cur ac rc : Word} (hprev : fle posZero prev = true)
    (hcur : fle posZero cur = true) (hac0 : fgt ac posZero = true) (hac1 : flt ac ONE = true)
    (hrc0 : fle posZero rc = true) (hrc1 : flt rc ONE = true) :
    fle posZero (smooth prev cur ac rc) = true := by
  have hle : ∀ k, flt k ONE = true → fle k ONE = true := fun k h =>
    have ⟨hk, hone, hlt⟩ := (flt_iff k ONE).1 h
    fle_of_val_le hk hone hlt.le
  have hac0' := val_pos_of_flt_posZero hac0
  obtain ⟨-, hacn, -⟩ := (flt_iff _ _).1 hac0
  have hacle := fle_posZero_of_val_nonneg hacn hac0'.le
  obtain ⟨hac, -, -⟩ := coefficient_finite hacle (hle ac hac1)
  obtain ⟨hrc, -, -⟩ := coefficient_finite hrc0 (hle rc hrc1)
  have hrest : ∀ k, fle posZero k = true → flt k ONE = true → fle posZero
      (fmul (fsub ONE k) prev) = true := fun k h0 h1 => by
    obtain ⟨hk, -, -⟩ := coefficient_finite h0 (hle k h1)
    obtain ⟨hr, -, -⟩ := rest_finite h0 (hle k h1)
    exact fle_posZero_fmul hr (val_fsub_ONE_pos hk h1) hprev
  cases hcmp : fgt prev cur
  · rw [smooth_attack ac rc hcmp]
    exact fle_posZero_fadd (fle_posZero_fmul hac hac0' hcur) (hrest ac hacle hac1)
  · rw [smooth_release ac rc hcmp]
    exact hrest rc hrc0 hrc1

/-- An ATTACK of +∞ from a finite value, the attack coefficient positive and at most 1.0, gives +∞. -/
theorem smooth_posInf {prev ac : Word} (rc : Word) (hprev : isFinite prev = true)
    (h0 : flt posZero ac = true) (h1 : fle ac ONE = true) : smooth prev posInf ac rc = posInf := by
  have hcmp : fgt prev posInf = false := by
    rw [← Bool.not_eq_true, fgt_iff]
    rintro ⟨-, -, hlt⟩
    rw [isFinite_iff_val] at hprev
    have hinf : val posInf = magOf 0x7F800000 := by decide +kernel
    rw [hinf] at hlt
    exact absurd (hlt.trans_le (le_abs_self _)) (not_lt.2 hprev.le)
  obtain ⟨-, hn, -⟩ := (flt_iff _ _).1 h0
  have hpos := val_pos_of_flt_posZero h0
  have hac0 := fle_posZero_of_val_nonneg hn hpos.le
  obtain ⟨hac, -, -⟩ := coefficient_finite hac0 h1
  obtain ⟨hr, hr0, hr1⟩ := rest_finite hac0 h1
  rw [smooth_attack ac rc hcmp, fmul_posInf_right hac hpos]
  exact (fadd_posInf_of_isFinite (isFinite_coefficient_fmul hr hr0 hr1 hprev)).1

end Sys2Proof.Proofs
end

section
/-! What a step does to PPM_PREV (R37, R39, R103, R108): only PPM_INIT, PPM_RESET, PPM_PROCESS and hardware reset
write it, and what PPM_PROCESS leaves in it is a sequence of smoothing steps. -/

namespace Sys2Proof.Proofs

open Sys2Proof.Machine Sys2Proof.F32 Sys2Proof.Laws Sys2Proof.Spec

/-! ### The writers of PPM_PREV -/

/-- A PPM_PROCESS runs its frames exactly when the unit is initialized and the frame count in range. -/
theorem firstError_ppmProcess_iff (s : State) :
    firstError s .ppmProcess = .noError ↔ s.ppm.init = true ∧ FramesOk s := by
  rw [firstError]
  split_ifs with hinit hframes
  · exact ⟨nofun, fun h => absurd (hinit.symm.trans h.1) Bool.false_ne_true⟩
  · exact ⟨fun _ => ⟨Bool.eq_true_of_not_eq_false hinit, hframes⟩, fun _ => rfl⟩
  · exact ⟨nofun, fun h => absurd h.2 hframes⟩

/-- A PPM_PROCESS that passes its checks leaves the meter's values; a PPM_INIT and a PPM_RESET leave +0; no other
command writes PPM_PREV. -/
theorem exec_prev_cases {i : Instr} {s t : State} (h : exec i s = .next t) :
    t.ppm.prev = s.ppm.prev ∨ (t.ppm.prev = [] ∧ (i = .ppmInit ∨ i = .ppmReset)) ∨
    (i = .ppmProcess ∧ s.ppm.init = true ∧ FramesOk s ∧
      t.ppm.prev = (s.meterRun s.ppm.aNch.toNat s.frames.toNat).prev) := by
  by_cases hvib : isVib i = true
  · rw [eq_of_exec h, setErr_ppm]
    exact .inl (congrArg Ppm.prev (outcome_ppm_of_isVib s hvib))
  cases i with
  | ppmInit =>
    rw [eq_of_exec h]
    exact .inr (.inl ⟨outcome_elim (P := fun u => u.ppm.prev = []) rfl rfl, .inl rfl⟩)
  | ppmReset =>
    rw [eq_of_exec h]
    exact .inr (.inl ⟨rfl, .inr rfl⟩)
  | ppmProcess =>
    by_cases hok : firstError s .ppmProcess = .noError
    · obtain ⟨hinit, hframes⟩ := (firstError_ppmProcess_iff s).1 hok
      rw [exec_ppmProcess hinit hframes] at h
      cases h
      exact .inr (.inr ⟨rfl, hinit, hframes, rfl⟩)
    · rw [eq_of_exec h, outcome_of_error hok]
      exact .inl rfl
  | ppmSetParam p =>
    rw [eq_of_exec h]
    refine .inl (outcome_elim (P := fun u => u.ppm.prev = s.ppm.prev) ?_ rfl)
    simp only [effect, setPpm_ppm]
    split <;> rfl
  | ppmGetParam p =>
    rw [eq_of_exec h]
    exact .inl (outcome_elim (P := fun u => u.ppm.prev = s.ppm.prev) rfl rfl)
  | _ => exact absurd rfl hvib

/-- The host's next access clears the PPM unit: a hardware reset, a PPM_INIT or a PPM_RESET. -/
def ClearsPrev (s : State) : Prop :=
  (∃ rest, s.pending = .reset :: rest) ∨
  ∃ w rest, Issues s w rest ∧ (decode w = .ok .ppmInit ∨ decode w = .ok .ppmReset)

/-- The host's next access runs a PPM_PROCESS that passes its checks. -/
def RunsMeter (s : State) : Prop :=
  (∃ w rest, Issues s w rest ∧ decode w = .ok .ppmProcess) ∧ s.ppm.init = true ∧ FramesOk s

theorem writeReg_prev (s : State) (r : Reg) (w : Word) :
    (s.writeReg r w).ppm.prev = s.ppm.prev := by
  cases r <;> rfl

/-- What a step does to PPM_PREV. -/
theorem step_prev_cases {s t : State} (ht : step s = .next t) :
    t.ppm.prev = s.ppm.prev ∨ (t.ppm.prev = [] ∧ ClearsPrev s) ∨
    (RunsMeter s ∧ t.ppm.prev = (s.meterRun s.ppm.aNch.toNat s.frames.toNat).prev) := by
  cases stepCase_of_step ht with
  | reset rest h => exact .inr (.inl ⟨rfl, .inl ⟨rest, h⟩⟩)
  | written off w rest r => exact .inl (writeReg_prev _ r w)
  | command w rest i _ hiss hd hexec =>
    rcases exec_prev_cases hexec with hsame | ⟨hclear, hi⟩ | ⟨rfl, hinit, hframes, hrun⟩
    · exact .inl hsame
    · refine .inr (.inl ⟨hclear, .inr ⟨w, rest, hiss, ?_⟩⟩)
      rcases hi with rfl | rfl
      · exact .inl hd
      · exact .inr hd
    · exact .inr (.inr ⟨⟨⟨w, rest, hiss, hd⟩, hinit, hframes⟩, hrun⟩)
  | _ => exact .inl rfl

/-- What holds of a PPM_PREV and is kept by the smoothing steps of a tracked channel holds after a run. -/
theorem meterRun_prev_induct {P : Word → Prop} {s : State} {c nf : Nat}
    (h0 : P (Cells.word s.ppm.prev c))
    (hstep : Tracked s c → ∀ n < nf, ∀ x, P x →
      P (smooth x (fabs (meterInput s c n)) s.ppm.acoef s.ppm.rcoef)) :
    P (Cells.word (s.meterRun s.ppm.aNch.toNat nf).prev c) := by
  by_cases h : Tracked s c
  · rw [meterRun_prev_of_tracked h]
    have henv : ∀ n ≤ nf, P (envelope s c n) := by
      intro n
      induction n with
      | zero => exact fun _ => h0
      | succ n ih => exact fun hn => hstep h n hn _ (ih (by omega))
    exact henv nf le_rfl
  · rwa [meterRun_prev_of_not_tracked h]

/-! ### PPM_PREV stays at or above +0 (R39) -/

/-- A sum of finite channels is a number, though it may overflow. -/
theorem isNaN_channelSum {s : State} {N n : Nat} (hN : 1 ≤ N)
    (hfin : ∀ c < N, isFinite (s.readIn c n) = true) : isNaN (s.channelSum N n) = false := by
  have key : ∀ k < N, isNaN ((List.range k).foldl
      (fun x c => fadd x (s.readIn (c + 1) n)) (s.readIn 0 n)) = false := by
    intro k
    induction k with
    | zero => exact fun h => isNaN_of_isFinite (hfin 0 h)
    | succ k ih =>
      intro hk
      rw [List.range_succ, List.foldl_concat]
      exact isNaN_fadd_of_isFinite (ih (by omega)) (hfin (k + 1) hk)
  exact key (N - 1) (by omega)

/-- The sample of a tracked channel is a number when every sample of the frame is finite. -/
theorem isNaN_meterInput {s : State} {c n : Nat} (hN : 1 ≤ s.ppm.aNch.toNat) (h : Tracked s c)
    (hfin : ∀ c < s.ppm.aNch.toNat, isFinite (s.readIn c n) = true) :
    isNaN (meterInput s c n) = false := by
  unfold Tracked at h
  unfold meterInput
  split
  · exact isNaN_channelSum hN hfin
  · next hmode =>
    rw [if_neg hmode] at h
    exact isNaN_of_isFinite (hfin c h)

theorem prevOk_of_prevFinite {s : State} (h : s.PrevFinite) : s.PrevOk := fun c =>
  have ⟨hfin, h0⟩ := h c
  ⟨isNaN_of_isFinite hfin, h0⟩

theorem prevFinite_of_nil {s : State} (h : s.ppm.prev = []) : s.PrevFinite := fun c => by
  rw [h]
  exact (by decide : isFinite 0 = true ∧ fge 0 posZero = true)

/-- A step keeps PPM_PREV finite and at least +0 while the samples it meters are finite. -/
theorem step_prevFinite {s t : State} (hs : s.Inv) (hprev : s.PrevFinite) (hin : MetersFinite s)
    (ht : step s = .next t) : t.PrevFinite := by
  rcases step_prev_cases ht with hsame | ⟨hclear, -⟩ | ⟨⟨⟨w, rest, hiss, hd⟩, hinit, hframes⟩, hrun⟩
  · unfold State.PrevFinite
    rwa [hsame]
  · exact prevFinite_of_nil hclear
  · intro c
    have hr := hs.ppm.1 hinit
    rw [hrun]
    refine meterRun_prev_induct (P := fun x => isFinite x = true ∧ fge x posZero = true) (hprev c)
      fun htr n hn x ⟨hx, hx0⟩ => ?_
    have hfin := hin w rest hiss hd hinit hframes c n htr hn
    exact smooth_finite hx hx0 hr.attack.1 hr.attack.2 hr.release.1 hr.release.2
      ((isFinite_fabs _).trans hfin) (fle_posZero_fabs (isNaN_of_isFinite hfin))

/-- A step keeps PPM_PREV at least +0, +∞ allowed, while the IN words it reads are finite and no weight of the
filter is 0. -/
theorem step_prevOk {s t : State} (hs : s.Inv) (hprev : s.PrevOk) (hin : ReadsFinite s)
    (hcoef : s.ppm.init = true → fgt s.ppm.acoef posZero = true ∧ flt s.ppm.acoef ONE = true ∧
      flt s.ppm.rcoef ONE = true) (ht : step s = .next t) : t.PrevOk := by
  rcases step_prev_cases ht with hsame | ⟨hclear, -⟩ | ⟨⟨⟨w, rest, hiss, hd⟩, hinit, hframes⟩, hrun⟩
  · unfold State.PrevOk
    rwa [hsame]
  · exact prevOk_of_prevFinite (prevFinite_of_nil hclear)
  · intro c
    have hr := hs.ppm.1 hinit
    obtain ⟨hac0, hac1, hrc1⟩ := hcoef hinit
    rw [hrun]
    have hnonneg : fle posZero
        (Cells.word (s.meterRun s.ppm.aNch.toNat s.frames.toNat).prev c) = true := by
      refine meterRun_prev_induct (P := fun x => fle posZero x = true) (hprev c).2
        fun htr n hn x hx => ?_
      have hnum := isNaN_meterInput hr.channels.1 htr fun c' hc' =>
        hin w rest hiss hd hinit hframes c' n hc' hn
      exact smooth_nonneg hx (fle_posZero_fabs hnum) hac0 hac1 hr.release.1 hrc1
    exact ⟨isNaN_of_fle_right hnonneg, hnonneg⟩

/-! ### Finite IN words alone are not enough (R39, log 19) -/

/-- A mono PPM unit of two channels with both coefficients 1.0 and PPM_PREV all +0, about to meter two frames. -/
def monoMeter : State :=
  { State.reset with
    frames := 2
    ppm := { Ppm.reset with
      init := true, aFs := ONE, aNch := 2, aMode := true, acoef := ONE, rcoef := ONE } }

/-- The same with the largest finite value in every IN word it reads, so both channel sums overflow. -/
def overflowingMeter : State :=
  (((monoMeter.writeIn 0 0 0x7F7FFFFF#32).writeIn 0 1 0x7F7FFFFF#32).writeIn 1 0
    0x7F7FFFFF#32).writeIn 1 1 0x7F7FFFFF#32

theorem monoMeter_inv : monoMeter.Inv := by
  have hone : fle posZero ONE = true ∧ fle ONE ONE = true := by decide +kernel
  have hrate : isFinite ONE = true ∧ fgt ONE posZero = true := by decide +kernel
  exact (inv_iff _).2 ⟨by decide, rfl, vibSound_clear _ Vib.reset,
    ⟨rfl, rfl, fun _ => ⟨hrate, by decide, hone, hone⟩, fun h => Bool.noConfusion h⟩⟩

theorem overflowingMeter_inv : overflowingMeter.Inv :=
  setWord_inv (setWord_inv (setWord_inv (setWord_inv monoMeter_inv _ _) _ _) _ _) _ _

/-- The first frame attacks to +∞, and the second multiplies that by the weight 0. -/
theorem isNaN_envelope_overflowingMeter : isNaN (envelope overflowingMeter 0 2) = true := by
  decide +kernel

theorem not_prevOk_of_overflowingMeter {t : State}
    (ht : exec .ppmProcess overflowingMeter = .next t) : ¬t.PrevOk := by
  intro hok
  obtain ⟨hnum, -⟩ := hok 0
  rw [exec_ppmProcess rfl (by decide)] at ht
  cases ht
  have htracked : Tracked overflowingMeter 0 := by
    unfold Tracked
    decide
  have hprev := meterRun_prev_of_tracked htracked 2
  have hnan := isNaN_envelope_overflowingMeter
  rw [← hprev] at hnan
  exact Bool.noConfusion (hnan.symm.trans hnum)

/-- Settles O41: a run is a sequence of smoothing steps, each of which keeps the bound; with a weight of 0 an
overflowed channel sum makes a NaN. -/
theorem smoothingKeepsFiniteNonNegativity : Obligations.SmoothingKeepsFiniteNonNegativity := by
  refine ⟨fun s t hs hprev hin ht => ?_, fun s t hs hprev hin hcoef ht =>
    step_prevOk hs hprev hin hcoef ht, fun prev cur ac rc hp hp0 ha0 ha1 hr0 hr1 hc hc0 => ?_,
    fun hall => ?_⟩
  · have h := step_prevFinite hs hprev hin ht
    exact ⟨h, prevOk_of_prevFinite h⟩
  · obtain ⟨hfin, h0⟩ := smooth_finite hp hp0 ha0 ha1 hr0 hr1 hc hc0
    exact ⟨isNaN_of_isFinite hfin, hfin, h0⟩
  · have hfin : ∀ c < 2, ∀ n < 2, isFinite (overflowingMeter.readIn c n) = true := by decide +kernel
    have hexec := exec_ppmProcess (s := overflowingMeter) rfl (by decide)
    exact not_prevOk_of_overflowingMeter hexec (hall _ _ overflowingMeter_inv rfl (by decide)
      (fun _ => rfl) (fun c n hc hn => hfin c hc n hn) hexec)

/-! ### A NaN stays (R108) -/

/-- Settles O43: a NaN operand makes every smoothing step a NaN, the block maximum is at least +0, and an infinite
sample outweighs any finite value. -/
theorem naNStaysUntilTheUnitIsCleared : Obligations.NaNStaysUntilTheUnitIsCleared := by
  refine ⟨fun s t c ht hnan hreset hclear => ?_, fun prev cur ac rc => smooth_of_isNaN ac rc,
    fun s t c hinit hframes hdb ht htr => ?_,
    fun x prev ac rc hx hprev h0 h1 => ⟨fabs_of_isInf hx, ?_⟩⟩
  · rcases step_prev_cases ht with hsame | ⟨-, hc⟩ | ⟨-, hrun⟩
    · rwa [hsame]
    · rcases hc with ⟨rest, h⟩ | ⟨w, rest, hiss, hd⟩
      · exact absurd h (hreset rest)
      · obtain ⟨hni, hnr⟩ := hclear w rest hiss
        exact (hd.elim hni hnr).elim
    · rw [hrun]
      refine meterRun_prev_induct (P := fun x => isNaN x = true) hnan fun _ n _ x hx => ?_
      rw [smooth_of_isNaN _ _ (.inl hx)]
      decide
  · obtain ⟨prev, out, hexec, hchannel⟩ := ppmProcessEmitsTheBlockMaximum s hinit hframes
    rw [hexec] at ht
    cases ht
    obtain ⟨-, M, -, hM, -, hout⟩ := (hchannel c).1 htr
    have hword : Cells.word out c = M := hout.trans (if_neg (by rw [hdb]; exact Bool.false_ne_true))
    rw [hword]
    exact isNaN_of_fle_right hM
  · rw [fabs_of_isInf hx]
    exact smooth_posInf rc hprev h0 h1

/-! ### A run in two parts (R111) -/

section
variable {s t : State} {m k : Nat}

/-- State t meters with s's registers the next k frames of s's input after the first m. -/
structure MetersOn (s t : State) (m k : Nat) : Prop where
  mode : t.ppm.aMode = s.ppm.aMode
  channels : t.ppm.aNch = s.ppm.aNch
  attack : t.ppm.acoef = s.ppm.acoef
  release : t.ppm.rcoef = s.ppm.rcoef
  prev : ∀ c, Cells.word t.ppm.prev c =
    Cells.word (s.meterRun s.ppm.aNch.toNat m).prev c
  input : ∀ c n, c < max 1 s.ppm.aNch.toNat → n < k → t.readIn c n = s.readIn c (m + n)

theorem MetersOn.tracked_iff (h : MetersOn s t m k) (c : Nat) : Tracked t c ↔ Tracked s c := by
  unfold Tracked
  rw [h.mode, h.channels]

/-- The channel sum reads channel 0 and the channels below N. -/
theorem MetersOn.channelSum_eq (h : MetersOn s t m k) {n : Nat} (hn : n < k) :
    t.channelSum s.ppm.aNch.toNat n = s.channelSum s.ppm.aNch.toNat (m + n) := by
  unfold State.channelSum
  rw [h.input 0 n (by omega) hn]
  refine List.foldl_ext _ _ _ fun x c hc => ?_
  rw [List.mem_range] at hc
  rw [h.input (c + 1) n (by omega) hn]

theorem MetersOn.meterInput_eq (h : MetersOn s t m k) {c n : Nat} (hc : Tracked s c) (hn : n < k) :
    meterInput t c n = meterInput s c (m + n) := by
  unfold Tracked at hc
  unfold meterInput
  rw [h.mode, h.channels]
  split
  · exact h.channelSum_eq hn
  · next hmode =>
    rw [if_neg hmode] at hc
    exact h.input c n (by omega) hn

/-- The smoothed values of the second part are those of the single run m frames later. -/
theorem MetersOn.envelope_eq (h : MetersOn s t m k) {c n : Nat} (hc : Tracked s c) (hn : n ≤ k) :
    envelope t c n = envelope s c (m + n) := by
  induction n with
  | zero => exact (h.prev c).trans (meterRun_prev_of_tracked hc m)
  | succ n ih =>
    rw [envelope, ih (by omega), h.meterInput_eq hc hn, h.attack, h.release]
    rfl

/-- The second part leaves in PPM_PREV what the single run leaves. -/
theorem MetersOn.meterRun_prev_eq (h : MetersOn s t m k) (c : Nat) :
    Cells.word (t.meterRun t.ppm.aNch.toNat k).prev c =
      Cells.word (s.meterRun s.ppm.aNch.toNat (m + k)).prev c := by
  by_cases hc : Tracked s c
  · rw [meterRun_prev_of_tracked ((h.tracked_iff c).2 hc), meterRun_prev_of_tracked hc,
      h.envelope_eq hc le_rfl]
  · rw [meterRun_prev_of_not_tracked (mt (h.tracked_iff c).1 hc), h.prev,
      meterRun_prev_of_not_tracked hc, meterRun_prev_of_not_tracked hc]

end

/-- Settles O45: the second command starts from the values the first leaves, and the steps that write PPM_PREV
are those of its writers. -/
theorem meterStatePersists : Obligations.MeterStatePersists := by
  constructor
  · rintro s s1 s2 n1 n2 hinit hp hlen hframes rfl ⟨t1, ht1, hcfg, hppm, hframes2, hin⟩
    obtain ⟨hok, hnf⟩ := framesOk_of_le hp hlen hframes
    obtain ⟨hok1, hnf1⟩ := framesOk_of_le (s := { s with frames := BitVec.ofNat 32 n1 }) (n := n1) hp
      (by show n1 ≤ s.cfg.blkMax; omega) rfl
    obtain ⟨hok2, hnf2⟩ := framesOk_of_le (hcfg ▸ hp) (by rw [hcfg]; omega) hframes2
    rw [exec_ppmProcess (s := { s with frames := BitVec.ofNat 32 n1 }) hinit hok1, hnf1] at ht1
    cases ht1
    have hon : MetersOn s s2 n1 n2 :=
      ⟨by rw [hppm], by rw [hppm], by rw [hppm], by rw [hppm], fun c => by rw [hppm]; rfl, hin⟩
    refine ⟨_, _, exec_ppmProcess hinit hok, exec_ppmProcess (by rw [hppm]; exact hinit) hok2,
      fun c => ?_⟩
    rw [hnf, hnf2]
    exact hon.meterRun_prev_eq c
  · intro s t ht hne
    rcases step_prev_cases ht with hsame | ⟨-, hreset | ⟨w, rest, hiss, hd⟩⟩ |
      ⟨⟨⟨w, rest, hiss, hd⟩, -⟩, -⟩
    · exact absurd hsame hne
    · exact .inl hreset
    · exact .inr ⟨w, rest, hiss, hd.elim .inl fun h => .inr (.inl h)⟩
    · exact .inr ⟨w, rest, hiss, .inr (.inr hd)⟩

/-! ### One channel (R103) -/

/-- The state with the mono variant latched. -/
def latchMono (s : State) : State := { s with ppm := { s.ppm with aMode := true } }

section
variable {s : State} (hmode : s.ppm.aMode = false)
include hmode

/-- With one channel, the channel sum is that channel's sample, metered in the same slot. -/
theorem meterRun_latchMono (nf : Nat) : (latchMono s).meterRun 1 nf = s.meterRun 1 nf := by
  induction nf with
  | zero => rfl
  | succ nf ih =>
    rw [meterRun_succ, meterRun_succ, if_pos (show (latchMono s).ppm.aMode = true from rfl),
      if_neg (by rw [hmode]; exact Bool.false_ne_true), ih]
    rfl

/-- With one channel, the mono variant emits what the other emits. -/
theorem emitAll_latchMono (F : Functions) (m : Meter) :
    (latchMono s).emitAll F 1 m = s.emitAll F 1 m := by
  have hemit : s.emitters 1 = 1 := if_neg (by rw [hmode]; exact Bool.false_ne_true)
  unfold State.emitAll
  rw [hemit]
  rfl

end

/-- Settles O46: with one channel, both variants smooth the same samples in slot 0 and emit from it alone. -/
theorem oneChannelVariantsAgree : Obligations.OneChannelVariantsAgree := by
  intro s t hnch hmode ht
  have h1 : s.ppm.aNch.toNat = 1 := by rw [hnch]; rfl
  by_cases hok : firstError s .ppmProcess = .noError
  · obtain ⟨hinit, hframes⟩ := (firstError_ppmProcess_iff s).1 hok
    rw [exec_ppmProcess hinit hframes, h1] at ht
    cases ht
    have hexec := exec_ppmProcess (s := latchMono s) hinit hframes
    rw [show (latchMono s).ppm.aNch.toNat = 1 from h1, meterRun_latchMono hmode,
      emitAll_latchMono hmode] at hexec
    exact ⟨_, hexec, rfl, rfl, rfl⟩
  · have herr : firstError (latchMono s) .ppmProcess = firstError s .ppmProcess := rfl
    refine ⟨_, exec_of_error herr hok, ?_⟩
    rw [exec_of_error rfl hok] at ht
    cases ht
    exact ⟨rfl, rfl, rfl⟩

end Sys2Proof.Proofs
end

section
/-! The commands that latch or store parameters complete (R83, R91, R92, R99, R101, R102). -/

namespace Sys2Proof.Proofs

open Sys2Proof.Machine Sys2Proof.F32 Sys2Proof.Laws Sys2Proof.Spec

theorem exec_of_success {i : Instr} {s : State} (h : firstError s i = .noError) :
    exec i s = .next ((effect i s).setErr .noError) := by
  rw [exec_eq, h, outcome_of_success h]

/-- Settles O25: VIB_INIT's effect is the latched unit, whose phase +0 is the word 0. -/
theorem vibInitLatchesTheParameters : Obligations.VibInitLatchesTheParameters := fun _ hargs hfits =>
  exec_vibInit hargs hfits

/-! ### PPM_INIT, PPM_SETPARAM and PPM_GETPARAM -/

/-- A time that is no zero is used as it stands. -/
theorem coefOf_of_not_isZero (F : Functions) (fs : Word) {t : Word} (ht : isZero t = false) :
    coefOf F fs t = fsub ONE (F.exp (fdiv K22 (fmul fs t))) := by
  rw [coefOf_eq, if_neg (by rw [ht]; exact Bool.false_ne_true)]

/-- The coefficient of a time, −0 taken as +0. -/
theorem coefOf_eq_of_negZero (F : Functions) (fs t : Word) :
    coefOf F fs t =
      fsub ONE (F.exp (fdiv K22 (fmul fs (if t = 0x80000000#32 then 0x00000000#32 else t)))) := by
  cases hz : isZero t
  · have hne : t ≠ 0x80000000#32 := by
      rintro rfl
      exact Bool.false_ne_true (hz.symm.trans (by decide))
    rw [coefOf_of_not_isZero F fs hz, if_neg hne]
  · rw [coefOf_eq, if_pos hz]
    rcases eq_zero_of_isZero hz with rfl | rfl <;> rfl

/-- Settles O34: PPM_INIT's effect is the latched unit, and neither default time is a zero. -/
theorem ppmInitLatchesTheParameters : Obligations.PpmInitLatchesTheParameters := by
  intro s hargs
  have hok : firstError s .ppmInit = .noError := if_neg (not_not.2 hargs)
  rw [exec_of_success hok, effect, State.ppmLatched,
    coefOf_of_not_isZero _ _ (by decide), coefOf_of_not_isZero _ _ (by decide)]
  rfl

/-- Settles O35: PPM_SETPARAM's effect is the coefficient of ARG in its parameter's register. -/
theorem setParamStoresTheCoefficient : Obligations.SetParamStoresTheCoefficient := by
  intro s p hinit hp ht t k
  have hok : firstError s (.ppmSetParam p) = .noError := by
    rw [firstError, hinit, if_neg (by decide), if_neg (by omega), if_neg (not_not.2 ht)]
  have hk : coefOf config s.ppm.aFs s.arg = k := coefOf_eq_of_negZero config s.ppm.aFs s.arg
  rw [exec_of_success hok, effect, hk]
  rfl

/-- Settles O36: PPM_GETPARAM's effect is the time of its parameter's coefficient in RESULT. -/
theorem getParamReconstructsTheTime : Obligations.GetParamReconstructsTheTime := by
  intro s p hinit hp k
  have hok : firstError s (.ppmGetParam p) = .noError := by
    rw [firstError, hinit, if_neg (by decide), if_neg (by omega)]
  exact exec_of_success hok

end Sys2Proof.Proofs
end

section
/-! The state after reset is sound, and every step keeps the sparse arrays canonical, sound otherwise or not
(R124, log 5). -/

namespace Sys2Proof.Proofs

open Sys2Proof.Machine Sys2Proof.Laws Sys2Proof.Spec

/-- Settles O47: both units are cleared, no array lists anything, and R9's default parameters are legal. -/
theorem resetStateIsSound : Obligations.ResetStateIsSound :=
  ⟨(inv_iff _).2 ⟨by decide, rfl, vibSound_clear _ Vib.reset, ppmSound_clear _ Ppm.reset⟩,
    prevFinite_of_nil rfl⟩

/-! ### Canonical arrays, array by array -/

/-- The sparse arrays of a state are in canonical form. -/
structure ArraysCanonical (s : State) : Prop where
  buf : Memory.wf s.buf = true
  lines : LinesCanonical s.vib.lines
  prev : Cells.wf (some 0) s.ppm.prev = true
  out : Cells.wf (some 0) s.ppm.out = true

theorem arraysOk_iff (s : State) : s.arraysOk = true ↔ ArraysCanonical s := by
  simp only [State.arraysOk, Bool.and_eq_true]
  constructor
  · rintro ⟨⟨⟨⟨hbuf, hlines⟩, hcells⟩, hprev⟩, hout⟩
    exact ⟨hbuf, ⟨hlines, hcells⟩, hprev, hout⟩
  · rintro ⟨hbuf, ⟨hlines, hcells⟩, hprev, hout⟩
    exact ⟨⟨⟨⟨hbuf, hlines⟩, hcells⟩, hprev⟩, hout⟩

section
variable {s : State} (h : ArraysCanonical s)
include h

theorem ArraysCanonical.congr {t : State} (hbuf : t.buf = s.buf) (hlines : t.vib.lines = s.vib.lines)
    (hprev : t.ppm.prev = s.ppm.prev) (hout : t.ppm.out = s.ppm.out) : ArraysCanonical t :=
  ⟨hbuf ▸ h.buf, hlines ▸ h.lines, hprev ▸ h.prev, hout ▸ h.out⟩

theorem ArraysCanonical.setWord (a : Nat) (w : Word) :
    ArraysCanonical (s.setBuf (Memory.setWord s.buf a w)) :=
  ⟨wf_memory_setWord s.buf a w h.buf, h.lines, h.prev, h.out⟩

theorem ArraysCanonical.dlWrite (c : Nat) (w : Word) : ArraysCanonical (s.dlWrite c w) :=
  ⟨h.buf, linesCanonical_write h.lines c _ w, h.prev, h.out⟩

theorem ArraysCanonical.vibClear : ArraysCanonical s.vibClear :=
  ⟨h.buf, linesCanonical_nil, h.prev, h.out⟩

theorem ArraysCanonical.ppmClear : ArraysCanonical s.ppmClear := ⟨h.buf, h.lines, rfl, rfl⟩

theorem ArraysCanonical.writeFrame (N n : Nat) : ArraysCanonical (s.writeFrame N n) := by
  induction N with
  | zero => exact h
  | succ N ih =>
    rw [writeFrame_succ]
    exact ih.dlWrite _ _

theorem ArraysCanonical.readFrame (N n : Nat) (d : Word) : ArraysCanonical (s.readFrame N n d) := by
  induction N with
  | zero => exact h
  | succ N ih =>
    rw [readFrame_succ]
    exact ih.setWord _ _

theorem ArraysCanonical.vibFrames (F : Functions) (N nf : Nat) :
    ArraysCanonical (s.vibFrames F N nf) := by
  induction nf with
  | zero => exact h
  | succ nf ih =>
    rw [vibFrames_succ]
    exact ((ih.writeFrame N nf).readFrame N nf _).congr rfl rfl rfl rfl

/-- A command that raises no error keeps the arrays canonical. -/
theorem ArraysCanonical.effect (i : Instr) : ArraysCanonical (effect i s) := by
  cases i with
  | vibInit => exact ⟨h.buf, linesCanonical_nil, h.prev, h.out⟩
  | vibProcess => exact h.vibFrames _ _ _
  | vibReset => exact h.vibClear
  | dlWrite c => exact h.dlWrite c _
  | ppmInit => exact ⟨h.buf, h.lines, rfl, rfl⟩
  | ppmProcess => exact ⟨h.buf, h.lines, meterRun_wf _ _ h.prev, emitAll_wf _ _ _ h.out⟩
  | ppmReset => exact h.ppmClear
  | ppmSetParam p =>
    simp only [Proofs.effect]
    split <;> exact h.congr rfl rfl rfl rfl
  | dlRead c | ppmGetParam p => exact h.congr rfl rfl rfl rfl

theorem ArraysCanonical.aftermath (i : Instr) : ArraysCanonical (aftermath i s) := by
  cases i
  case vibInit => exact h.vibClear
  case ppmInit => exact h.ppmClear
  all_goals exact h

theorem ArraysCanonical.exec {i : Instr} {t : State} (ht : exec i s = .next t) : ArraysCanonical t := by
  rw [eq_of_exec ht]
  exact (outcome_elim (h.effect i) (h.aftermath i)).congr rfl rfl rfl rfl

/-- A host write to any register, but for the command it may start, keeps the arrays canonical. -/
theorem ArraysCanonical.writeReg (r : Reg) (w : Word) : ArraysCanonical (s.writeReg r w) := by
  cases r
  case inWord | outWord => exact h.setWord _ _
  all_goals exact h.congr rfl rfl rfl rfl

end

theorem exec_cfg {i : Instr} {s t : State} (h : exec i s = .next t) : t.cfg = s.cfg := by
  rw [eq_of_exec h, setErr_cfg, outcome_frame i s]

theorem step_cfg {s t : State} (ht : step s = .next t) : t.cfg = s.cfg := by
  cases stepCase_of_step ht with
  | written off w rest r => exact writeReg_cfg _ r w
  | command w rest i _ hiss hd hexec => exact (exec_cfg hexec).trans rfl
  | _ => rfl

/-- Settles O49: each write of an array keeps its canonical form, and a reset or a clear leaves the array empty. -/
theorem stepKeepsArraysCanonical : Obligations.StepKeepsArraysCanonical := by
  intro s t hs ht
  refine ⟨?_, step_cfg ht⟩
  rw [arraysOk_iff] at hs ⊢
  have hrest : ∀ rest, ArraysCanonical { s with pending := rest } := fun _ =>
    hs.congr rfl rfl rfl rfl
  cases stepCase_of_step ht with
  | idle => exact hs
  | reset rest => exact ⟨rfl, linesCanonical_nil, rfl, rfl⟩
  | written off w rest r => exact (hrest rest).writeReg r w
  | command w rest i _ hiss hd hexec =>
    have hissued : ArraysCanonical { s with pending := rest, cmd := w } := hs.congr rfl rfl rfl rfl
    exact hissued.exec hexec
  | read | ignored | illegal => exact hs.congr rfl rfl rfl rfl

end Sys2Proof.Proofs
end

section
/-! VIB_PROCESS channel by channel (R85), and zero input through a zero line (R68, R89). -/

namespace Sys2Proof.Proofs

open Sys2Proof.Machine Sys2Proof.Laws Sys2Proof.Spec

/-! ### The bytes a run writes (R34, R85) -/

/-- A frame changes no byte but those of its OUT words. -/
theorem vibFrame_bufByte (F : Functions) (N n : Nat) (s : State) {a : Nat}
    (h : ¬∃ c j, c < N ∧ j < 4 ∧ a = outOffset s.cfg c n + j) :
    (s.vibFrame F N n).bufByte a = s.bufByte a := by
  have hcfg : (s.writeFrame N n).cfg = s.cfg := by rw [writeFrame_frame]
  have hbyte : (s.writeFrame N n).bufByte a = s.bufByte a := by rw [writeFrame_frame]; rfl
  rw [← hbyte]
  exact readFrame_bufByte N n (instantDelay F s.vib) (s.writeFrame N n) a (by rwa [hcfg])

/-- A run changes no byte but those of its frames' OUT words. -/
theorem vibFrames_bufByte (F : Functions) (N nf : Nat) (s : State) {a : Nat}
    (h : ¬∃ c n j, c < N ∧ n < nf ∧ j < 4 ∧ a = outOffset s.cfg c n + j) :
    (s.vibFrames F N nf).bufByte a = s.bufByte a := by
  induction nf with
  | zero => rfl
  | succ nf ih =>
    have hcfg := vibFrames_cfg F N nf s
    rw [vibFrames_succ, vibFrame_bufByte, ih]
    · rintro ⟨c, n, j, hc, hn, hj, ha⟩
      exact h ⟨c, n, j, hc, hn.trans (Nat.lt_succ_self nf), hj, ha⟩
    · rintro ⟨c, j, hc, hj, ha⟩
      exact h ⟨c, nf, j, hc, Nat.lt_succ_self nf, hj, hcfg ▸ ha⟩

/-- A run changes no register but the phase, which it advances once per frame. -/
theorem vibFrames_eq (F : Functions) (N nf : Nat) (s : State) :
    s.vibFrames F N nf = { s with
      vib := { s.vib with phase := phaseAt s.vib nf, lines := (s.vibFrames F N nf).vib.lines }
      buf := (s.vibFrames F N nf).buf } := by
  rw [← vibFrames_vib, vibFrames_frame]

/-- Settles O30: the run's lines and buffer are the witnesses, known channel by channel and byte by byte. -/
theorem vibProcessRunsEachChannel : Obligations.VibProcessRunsEachChannel := by
  intro s hp hinit hN hframes N nf
  have hnf : nf ≤ s.cfg.blkMax := frames_toNat_le hframes
  have hrun : (s.vibFrames F32.config N nf).setErr .noError = { s with
      err := .noError
      vib := { s.vib with
        phase := phaseAt s.vib nf, lines := (s.vibFrames F32.config N nf).vib.lines }
      buf := (s.vibFrames F32.config N nf).buf } := by
    rw [vibFrames_eq]
    rfl
  refine ⟨(s.vibFrames F32.config N nf).vib.lines, (s.vibFrames F32.config N nf).buf, ?_⟩
  rw [← hrun]
  exact ⟨exec_vibProcess hinit hframes, vibFrames_line F32.config hp hN hnf,
    fun c n hc hn => vibFrames_readOut hp hN hnf hc hn,
    fun a ha => vibFrames_bufByte F32.config N nf s ha⟩

/-! ### Zero input through a zero line (R68, R89) -/

/-- Every cell of the line is ±0. -/
def ZeroLine (l : Line) : Prop := ∀ k, F32.isZero (Cells.word l.cells k) = true

theorem ZeroLine.write {l : Line} (h : ZeroLine l) (cap : Nat) {v : Word}
    (hv : F32.isZero v = true) : ZeroLine (l.write cap v) := by
  intro k
  rw [write_cells]
  split
  · exact hv
  · exact h k

/-- Interpolating between zeros at a finite fraction gives a zero. -/
theorem isZero_interp {a b f : Word} (ha : F32.isZero a = true) (hb : F32.isZero b = true)
    (hf : F32.isFinite f = true) (hrest : F32.isFinite (F32.fsub F32.ONE f) = true) :
    F32.isZero (interp a b f) = true :=
  isZero_fadd (isZero_fmul hrest (isFinite_of_isZero ha) (.inr ha))
    (isZero_fmul hf (isFinite_of_isZero hb) (.inr hb))

/-- A zero line read at a valid delay gives a zero: the fraction of the delay lies in [0, 1). -/
theorem ZeroLine.read {l : Line} (h : ZeroLine l) {C : Nat} {d : Word} (h1 : 1 ≤ C) (hC : C ≤ 2 ^ 24)
    (hd : DelayOk d C) : F32.isZero (l.read C d) = true := by
  obtain ⟨-, hnonneg, -⟩ := (delayOk_iff_val d h1 hC).1 hd
  obtain ⟨hfin, hval⟩ := val_fraction (isFinite_of_delayOk h1 hC hd) hnonneg
  obtain ⟨hlow, hhigh⟩ := floor_spec hnonneg
  rw [read_eq]
  split
  · exact h _
  · have h0 : 0 ≤ F32.val (F32.fsub d (F32.ofNat (F32.floor d))) := by rw [hval]; omega
    have hone : F32.val (F32.fsub d (F32.ofNat (F32.floor d))) ≤ F32.val F32.ONE := by
      rw [hval, val_ONE]; omega
    have hn := isNaN_of_isFinite hfin
    obtain ⟨hrest, -, -⟩ := rest_finite (fle_posZero_of_val_nonneg hn h0)
      (fle_of_val_le hn isNaN_ONE hone)
    exact isZero_interp (h _) (h _) hfin hrest

/-- Every frame's delay is valid, whatever the phase has advanced to (R80). -/
theorem delayOk_delayAt {s : State} (hs : s.Inv) (hinit : s.vib.init = true) (n : Nat) :
    DelayOk (delayAt s.vib n) s.vib.cap.toNat := by
  have hrun := vibFrames_inv hs F32.config n (N := 0) (Nat.zero_le _)
  have hvib := vibFrames_vib F32.config 0 n s
  have hinit' : (s.vibFrames F32.config 0 n).vib.init = true := by rw [hvib]; exact hinit
  have hcap : (s.vibFrames F32.config 0 n).vib.cap = s.vib.cap := by rw [hvib]
  obtain ⟨hdelay, -, -, -, -, -, hok⟩ := modulatedDelayIsAlwaysValid F32.config
    (s.vibFrames F32.config 0 n) (legalSin_legal _) hrun hinit'
  rw [← instantDelay_vibFrames 0, hdelay, ← hcap]
  exact hok

/-- Zero input keeps a zero line zero. -/
theorem zeroLine_lineAfter {s : State} {c nf : Nat} (hline : ZeroLine (s.vib.line c))
    (hin : ∀ n < nf, F32.isZero (s.readIn c n) = true) : ∀ n ≤ nf, ZeroLine (lineAfter s c n) := by
  intro n
  induction n with
  | zero => exact fun _ => hline
  | succ n ih =>
    intro hn
    rw [lineAfter_succ]
    exact (ih (by omega)).write _ (hin n hn)

/-- Settles O33: every frame leaves the line zero, and reads it at a valid delay. -/
theorem zeroInputGivesZeroOutput : Obligations.ZeroInputGivesZeroOutput := by
  intro s t c hs hinit hframes hc hline hin ht
  have hr := hs.vib.1 hinit
  have hnf := frames_toNat_le hframes
  have hcap := cap_le hs.params hr
  have hsize := hr.capacity
  have hzero := zeroLine_lineAfter hline hin
  rw [exec_vibProcess hinit hframes] at ht
  cases ht
  constructor
  · intro n hn
    have hout := vibFrames_readOut hs.params hr.channels.2 hnf hc hn
    exact hout ▸ (hzero (n + 1) hn).read (by omega) hcap (delayOk_delayAt hs hinit n)
  · rw [setErr_vib, vibFrames_line _ hs.params hr.channels.2 hnf, if_pos hc]
    exact hzero _ le_rfl

end Sys2Proof.Proofs
end

section
/-! Who writes the sample buffers (R34, R125): hardware reset, the host, and VIB_PROCESS. -/

namespace Sys2Proof.Proofs

open Sys2Proof.Machine Sys2Proof.Laws Sys2Proof.Spec

/-- A byte that a host write changes lies in the buffer word the write's offset names. -/
theorem writeReg_bufByte {s : State} {off a : Nat} {r : Reg} (w : Word)
    (hreg : regAt s.cfg off = some r) (hne : (s.writeReg r w).bufByte a ≠ s.bufByte a) :
    0x10000 ≤ off ∧ off / 4 = a / 4 := by
  obtain ⟨hoff, -⟩ := regAt_offset hreg
  have word : ∀ o, o = off - off % 4 → (s.setBuf (Memory.setWord s.buf o w)).bufByte a ≠ s.bufByte a →
      off / 4 = a / 4 := by
    intro o ho h
    by_contra hout
    exact h (bufByte_setWord_outside s o w a (by omega))
  cases r
  case inWord c n =>
    simp only [Reg.offset] at hoff
    refine ⟨?_, word _ hoff hne⟩
    simp only [inOffset] at hoff
    omega
  case outWord c n =>
    simp only [Reg.offset] at hoff
    refine ⟨?_, word _ hoff hne⟩
    simp only [outOffset] at hoff
    omega
  all_goals exact absurd rfl hne

/-- A VIB_PROCESS that reports no error has run its frames. -/
theorem ready_of_vibProcess {s : State} (h : firstError s .vibProcess = .noError) :
    s.vib.init = true ∧ FramesOk s := by
  rw [firstError] at h
  split_ifs at h with hinit hframes
  exact ⟨Bool.eq_true_of_not_eq_false hinit, hframes⟩

/-- A byte that a command changes belongs to an OUT word of a VIB_PROCESS. -/
theorem exec_bufByte {i : Instr} {s t : State} {a : Nat} (h : exec i s = .next t)
    (hne : t.bufByte a ≠ s.bufByte a) :
    i = .vibProcess ∧ ∃ c n j, c < s.vib.aNch.toNat ∧ n < s.frames.toNat ∧ j < 4 ∧
      a = outOffset s.cfg c n + j := by
  have hi : i = .vibProcess := by
    by_contra hi
    refine hne ?_
    rw [eq_of_exec h]
    refine outcome_elim (P := fun u => (u.setErr _).bufByte a = s.bufByte a) ?_ ?_
    · cases i
      case vibProcess => exact absurd rfl hi
      all_goals rfl
    · cases i <;> rfl
  subst hi
  refine ⟨rfl, ?_⟩
  by_contra hout
  by_cases hok : firstError s .vibProcess = .noError
  · obtain ⟨hinit, hframes⟩ := ready_of_vibProcess hok
    rw [exec_vibProcess hinit hframes] at h
    cases h
    exact hne (vibFrames_bufByte _ _ _ s hout)
  · rw [exec_of_error rfl hok] at h
    cases h
    exact hne rfl

/-- Settles O51: the step's cases, each of which leaves the bytes it does not write. -/
theorem buffersChangeOnlyByTheirWriters : Obligations.BuffersChangeOnlyByTheirWriters := by
  intro s t ht
  refine ⟨fun rest h a => ?_, fun a hne => ?_⟩
  · rw [step_reset h] at ht
    cases ht
    exact ⟨rfl, rfl⟩
  · cases stepCase_of_step ht with
    | reset rest h => exact .inl ⟨rest, h⟩
    | written off w rest r h hreg =>
      obtain ⟨hbuf, hword⟩ := writeReg_bufByte (s := { s with pending := rest }) w hreg hne
      exact .inr (.inl ⟨w, rest, off, h, hbuf, hword⟩)
    | command w rest i _ hiss hd hexec =>
      obtain ⟨rfl, c, n, j, hc, hn, hj, ha⟩ := exec_bufByte hexec hne
      exact .inr (.inr ⟨w, rest, c, n, j, hiss, hd, hc, hn, hj, ha⟩)
    | _ => exact absurd rfl hne

end Sys2Proof.Proofs
end

section
/-! The two units are independent (R2): a command of one unit commutes with any change of the other. -/

namespace Sys2Proof.Proofs

open Sys2Proof.Machine Sys2Proof.Laws Sys2Proof.Spec

/-- Another state of the PPM unit. -/
def putPpm (p : Ppm) (s : State) : State := { s with ppm := p }

/-- Another state of the vibrato unit. -/
def putVib (v : Vib) (s : State) : State := { s with vib := v }

theorem unseenByFrames_putPpm (p : Ppm) : UnseenByFrames (putPpm p) := by
  constructor <;> intros <;> rfl

/-- No command of the vibrato unit sees the PPM unit. -/
theorem unseen_putPpm {i : Instr} (hi : isVib i = true) (p : Ppm) : Unseen i (putPpm p) where
  error s := by cases i <;> first | rfl | cases hi
  effect s := by
    cases i
    case vibProcess => exact (unseenByFrames_putPpm p).vibFrames _ _ _ s
    all_goals first | rfl | cases hi
  aftermath s := by cases i <;> first | rfl | cases hi
  setErr _ _ := rfl

/-- No command of the PPM unit sees the vibrato unit. -/
theorem unseen_putVib {i : Instr} (hi : isVib i = false) (v : Vib) : Unseen i (putVib v) where
  error s := by cases i <;> first | rfl | cases hi
  effect s := by cases i <;> first | rfl | cases hi
  aftermath s := by cases i <;> first | rfl | cases hi
  setErr _ _ := rfl

/-- No command of the PPM unit writes the vibrato unit or the sample buffers. -/
theorem outcome_vib_of_not_isVib {i : Instr} (s : State) (hi : isVib i = false) :
    (outcome i s).vib = s.vib ∧ (outcome i s).buf = s.buf := by
  refine outcome_elim (P := fun t => t.vib = s.vib ∧ t.buf = s.buf) ?_ ?_
  · cases i <;> first | exact ⟨rfl, rfl⟩ | cases hi
  · cases i <;> first | exact ⟨rfl, rfl⟩ | cases hi

/-- Settles O52: a command does not see the other unit, and writes its own unit only. -/
theorem unitsAreIndependent : Obligations.UnitsAreIndependent := by
  intro i s t h
  refine ⟨fun hi p => ⟨(unseen_putPpm hi p).exec h, ?_⟩,
    fun hi v => ⟨(unseen_putVib hi v).exec h, ?_⟩⟩
  · rw [eq_of_exec h]
    exact outcome_ppm_of_isVib s hi
  · rw [eq_of_exec h]
    exact outcome_vib_of_not_isVib s hi

end Sys2Proof.Proofs
end

section
/-! The arithmetic primitives (R12, R13): each rounds the exact result of finite operands once, treats infinities
and zeros as IEEE 754 does, and produces no NaN but the canonical one. -/

namespace Sys2Proof.Proofs

open Sys2Proof.F32 Sys2Proof.Laws Sys2Proof.Spec

/-! ### Rounding once (R12) -/

/-- A signed rounded quotient is the quotient, rounded once. -/
theorem roundedTo_pack (s : Bool) (num : Nat) {den : Nat} (hd : 0 < den) :
    RoundedTo s num den (pack s (roundMag num den)) := by
  have habs := absBits_pack s _ (roundMag_lt num den)
  refine ⟨sign_pack s _ (roundMag_lt num den), isNaN_pack_roundMag s num den, ?_⟩
  split
  · next hover => rw [isInf_iff, habs, roundMag_eq_inf num den hd]; exact hover
  · next hfin =>
    refine ⟨?_, fun v _ => ?_⟩
    · rw [isFinite_iff, habs]
      exact lt_of_le_of_ne (roundMag_le num den) fun h => hfin ((roundMag_eq_inf num den hd).1 h)
    · obtain ⟨hnear, heven⟩ := roundMag_nearest num den hd (not_le.1 hfin) (absBits v)
      rw [absBits_mod_two, mag_eq, mag_eq, habs, ← Nat.cast_mul, ← Nat.cast_mul]
      refine ⟨hnear, fun htie hne => ?_⟩
      rw [heven htie fun h => hne (by rw [h])]
      rfl

section
variable {a b : Word} (ha : isFinite a = true) (hb : isFinite b = true)
include ha hb

theorem fadd_of_isFinite :
    fadd a b = if val a + val b = 0 then (if sign a && sign b then negZero else posZero)
      else pack (decide (val a + val b < 0)) (roundMag (val a + val b).natAbs 1) := by
  simp only [fadd, isNaN_of_isFinite ha, isNaN_of_isFinite hb, isInf_of_isFinite ha,
    isInf_of_isFinite hb, Bool.or_self, Bool.false_eq_true, if_false]

theorem fmul_of_isFinite :
    fmul a b = pack (sign a != sign b) (roundMag (mag a * mag b) (2 ^ 149)) := by
  simp only [fmul, isNaN_of_isFinite ha, isNaN_of_isFinite hb, isInf_of_isFinite ha,
    isInf_of_isFinite hb, Bool.or_self, Bool.false_eq_true, if_false]

theorem fdiv_of_isFinite :
    fdiv a b = if isZero b then (if isZero a then qNaN else pack (sign a != sign b) 0x7F800000)
      else pack (sign a != sign b) (roundMag (mag a * 2 ^ 149) (mag b)) := by
  simp only [fdiv, isNaN_of_isFinite ha, isNaN_of_isFinite hb, isInf_of_isFinite ha,
    isInf_of_isFinite hb, Bool.or_self, Bool.false_eq_true, if_false]

end

theorem mag_pos {b : Word} (h : isZero b = false) : 0 < mag b :=
  Nat.pos_of_ne_zero fun h0 => Bool.false_ne_true (h.symm.trans ((mag_eq_zero b).1 h0))

/-! ### Infinities and zeros (R12) -/

/-- An infinity whose sign is that of a product or quotient. -/
theorem pack_inf (x y : Bool) : pack (x != y) 0x7F800000 = if x = y then posInf else negInf := by
  cases x <;> cases y <;> decide

theorem pack_zero (x y : Bool) : pack (x != y) 0 = if x = y then posZero else negZero := by
  cases x <;> cases y <;> decide

theorem isZero_of_isInf {a : Word} (h : isInf a = true) : isZero a = false := by
  rw [isInf_iff] at h
  rw [isZero, h]
  rfl

section
variable {a b : Word} (ha : isInf a = true) (hb : isFinite b = true)
include ha hb

/-- An infinity plus a finite number is the infinity. -/
theorem fadd_of_isInf_isFinite : fadd a b = a ∧ fadd b a = a := by
  simp only [fadd, ha, isNaN_of_isInf ha, isNaN_of_isFinite hb, isInf_of_isFinite hb, Bool.or_self,
    Bool.false_and, Bool.false_eq_true, if_false, if_true, and_self]

/-- An infinity divided by a finite number is an infinity, the other way round a zero. -/
theorem fdiv_of_isInf_isFinite :
    fdiv a b = (if sign a = sign b then posInf else negInf) ∧
    fdiv b a = (if sign a = sign b then posZero else negZero) := by
  simp only [fdiv, ha, isNaN_of_isInf ha, isNaN_of_isFinite hb, isInf_of_isFinite hb, Bool.or_self,
    Bool.false_eq_true, if_false, if_true, pack_inf, pack_zero, eq_comm (a := sign b), and_self]

/-- An infinity times a finite number is an infinity, or NaN when that is a zero, in either order. -/
theorem fmul_of_isInf_isFinite :
    fmul a b = (if isZero b = true then qNaN else if sign a = sign b then posInf else negInf) ∧
    fmul b a = fmul a b := by
  simp only [fmul, ha, isNaN_of_isInf ha, isNaN_of_isFinite hb, isInf_of_isFinite hb,
    isZero_of_isInf ha, Bool.or_self, Bool.or_true, Bool.false_or, Bool.or_false,
    Bool.false_eq_true, if_false, if_true, pack_inf, eq_comm (a := sign b), and_self]

end

/-- Two infinities. -/
theorem primitives_of_isInf {a b : Word} (ha : isInf a = true) (hb : isInf b = true) :
    fadd a b = (if sign a = sign b then a else qNaN) ∧
    fmul a b = (if sign a = sign b then posInf else negInf) ∧ fdiv a b = qNaN := by
  have hn : (isNaN a || isNaN b) = false := by rw [isNaN_of_isInf ha, isNaN_of_isInf hb]; rfl
  have hz : (isZero a || isZero b) = false := by rw [isZero_of_isInf ha, isZero_of_isInf hb]; rfl
  refine ⟨?_, ?_, ?_⟩
  · simp only [fadd, hn, ha, hb, Bool.false_eq_true, if_false, if_true, Bool.true_and]
    cases sign a <;> cases sign b <;> rfl
  · simp only [fmul, hn, hz, ha, Bool.true_or, Bool.false_eq_true, if_false, if_true, pack_inf]
  · simp only [fdiv, hn, ha, hb, Bool.false_eq_true, if_false, if_true]

/-- Settles O55: finite operands give the packed rounded magnitude of the exact result, and each other case is a
branch of the primitive. -/
theorem arithmeticRoundsOnce : Obligations.ArithmeticRoundsOnce := by
  refine ⟨fun a b ha hb => ⟨fun h => ?_, fun h => ?_, ?_, fun hz => ?_, fun hz hnz => ?_⟩,
    fun a b => ⟨rfl, sign_neg b, absBits_neg b⟩, fun a b ha hb => ?_, fun a b ha hb => ?_,
    fun a b ha hb => primitives_of_isInf ha hb⟩
  · rw [fadd_of_isFinite ha hb, if_neg h]
    exact roundedTo_pack _ _ one_pos
  · rw [fadd_of_isFinite ha hb, if_pos h]
    simp only [Bool.and_eq_true]
  · rw [fmul_of_isFinite ha hb]
    exact roundedTo_pack _ _ (by positivity)
  · rw [fdiv_of_isFinite ha hb, if_neg (by rw [hz]; exact Bool.false_ne_true)]
    exact roundedTo_pack _ _ (mag_pos hz)
  · rw [fdiv_of_isFinite ha hb, if_pos hz, if_neg (by rw [hnz]; exact Bool.false_ne_true), pack_inf]
  · rw [fdiv_of_isFinite (isFinite_of_isZero ha) (isFinite_of_isZero hb), if_pos hb, if_pos ha]
  · obtain ⟨hadd, hadd'⟩ := fadd_of_isInf_isFinite ha hb
    obtain ⟨hdiv, hdiv'⟩ := fdiv_of_isInf_isFinite ha hb
    exact ⟨hadd, hadd', hdiv, hdiv', fmul_of_isInf_isFinite ha hb⟩

/-! ### NaN results (R13) -/

theorem not_isNaN_pack_inf (s : Bool) : ¬isNaN (pack s 0x7F800000) = true := by
  cases s <;> decide

theorem not_isNaN_pack_roundMag (s : Bool) (num den : Nat) :
    ¬isNaN (pack s (roundMag num den)) = true := by
  rw [isNaN_pack_roundMag]
  exact Bool.false_ne_true

theorem not_isNaN_of_isInf {a : Word} (h : isInf a = true) : ¬isNaN a = true := by
  rw [isNaN_of_isInf h]
  exact Bool.false_ne_true

/-- A sum that is a NaN comes from a branch that answers the canonical one. -/
theorem fadd_canonical (a : Word) : CanonicalNaN (fadd a) := by
  intro b h
  unfold fadd at h ⊢
  split_ifs at h ⊢ with hn hia hib hib hz hs
  · rfl
  · rfl
  · exact absurd h (not_isNaN_of_isInf hia)
  · exact absurd h (not_isNaN_of_isInf hib)
  · exact absurd h (by decide)
  · exact absurd h (by decide)
  · exact absurd h (not_isNaN_pack_roundMag _ _ _)

theorem fmul_canonical (a : Word) : CanonicalNaN (fmul a) := by
  intro b h
  unfold fmul at h ⊢
  split_ifs at h ⊢ with hn hi hz
  · rfl
  · rfl
  · exact absurd h (not_isNaN_pack_inf _)
  · exact absurd h (not_isNaN_pack_roundMag _ _ _)

theorem fdiv_canonical (a : Word) : CanonicalNaN (fdiv a) := by
  intro b h
  have hzero : ∀ s, ¬isNaN (pack s 0) = true := by decide
  unfold fdiv at h ⊢
  split_ifs at h ⊢ with hn hia hib hib hzb hza
  · rfl
  · rfl
  · exact absurd h (not_isNaN_pack_inf _)
  · exact absurd h (hzero _)
  · rfl
  · exact absurd h (not_isNaN_pack_inf _)
  · exact absurd h (not_isNaN_pack_roundMag _ _ _)

/-- Settles O56: the primitives' NaN branches and R13 imposed on the configuration functions. -/
theorem producedNaNsAreCanonical : Obligations.ProducedNaNsAreCanonical := by
  refine ⟨fun a b r hr => ?_, fun x r hr => ?_⟩
  · simp only [List.mem_cons, List.not_mem_nil, or_false] at hr
    rcases hr with rfl | rfl | rfl | rfl
    · exact ⟨fadd_canonical a b, fadd_of_isNaN⟩
    · exact ⟨fadd_canonical a (neg b), fun h => fadd_of_isNaN (by rwa [isNaN_neg])⟩
    · exact ⟨fmul_canonical a b, fmul_of_isNaN⟩
    · exact ⟨fdiv_canonical a b, fdiv_of_isNaN⟩
  · simp only [List.mem_cons, List.not_mem_nil, or_false] at hr
    rcases hr with rfl | rfl | rfl | rfl
    · exact legalSin_canonical _ x
    · exact legalExp_canonical _ x
    · exact legalLn_canonical _ x
    · exact legalLog10_canonical _ x

end Sys2Proof.Proofs
end

section
/-! The reference configuration is legal (R17, R18): correct rounding keeps every bound that a binary32 value
states, so it keeps the bounds of sin, exp, ln and log10. -/

namespace Sys2Proof.Proofs

open Sys2Proof.F32 Sys2Proof.Laws

/-! ### The nearest value (R12, R18) -/

/-- The real number a finite word stands for (R10). -/
noncomputable def realOf (x : Word) : ℝ := val x / 2 ^ 149

theorem denotes_realOf {x : Word} (h : isFinite x = true) : Denotes x (realOf x) :=
  ⟨h, div_mul_cancel₀ _ (by positivity)⟩

/-- A number far below 2^128 does not overflow. -/
theorem not_overflow {r : ℝ} (h : |r| ≤ 149) : ¬(2 : ℝ) ^ 128 - 2 ^ 103 ≤ |r| := by
  rw [not_le]
  exact h.trans_lt (by norm_num)

theorem isNaN_of_nearest {r : ℝ} {w : Word} (h : Nearest r w) : isNaN w = false := by
  unfold Nearest at h
  split at h
  · rw [h]
    split <;> decide
  · exact isNaN_of_isFinite h.1

section
variable {r : ℝ} {w : Word} (h : Nearest r w) (hr : |r| ≤ 149)
include h hr

theorem isFinite_of_nearest : isFinite w = true := by
  rw [Nearest, if_neg (not_overflow hr)] at h
  exact h.1

/-- Rounding keeps an upper bound that is a binary32 value. -/
theorem val_le_of_nearest {v : Word} (hv : isFinite v = true) (hle : r * 2 ^ 149 ≤ val v) :
    val w ≤ val v := by
  rw [Nearest, if_neg (not_overflow hr)] at h
  obtain ⟨-, hnear, -⟩ := h
  by_contra hlt
  have hlt : (val v : ℝ) < val w := by exact_mod_cast not_le.1 hlt
  have := hnear v hv
  rw [abs_of_nonpos (by linarith), abs_of_nonpos (by linarith)] at this
  linarith

/-- Rounding keeps a lower bound that is a binary32 value. -/
theorem le_val_of_nearest {v : Word} (hv : isFinite v = true) (hle : (val v : ℝ) ≤ r * 2 ^ 149) :
    val v ≤ val w := by
  rw [Nearest, if_neg (not_overflow hr)] at h
  obtain ⟨-, hnear, -⟩ := h
  by_contra hlt
  have hlt : (val w : ℝ) < val v := by exact_mod_cast not_le.1 hlt
  have := hnear v hv
  rw [abs_of_nonneg (by linarith), abs_of_nonneg (by linarith)] at this
  linarith

/-- A binary32 value rounds to itself. -/
theorem val_eq_of_nearest {v : Word} (hv : isFinite v = true) (heq : r * 2 ^ 149 = val v) :
    val w = val v :=
  le_antisymm (val_le_of_nearest h hr hv heq.le) (le_val_of_nearest h hr hv heq.ge)

end

theorem eq_posZero_of_nearest_zero {w : Word} (h : Nearest 0 w) : w = posZero := by
  have h0 : |(0 : ℝ)| ≤ 149 := by norm_num
  have hz : isZero w = true := by
    rw [← val_eq_zero, ← val_posZero]
    exact val_eq_of_nearest h h0 (by decide) (by rw [val_posZero]; norm_num)
  rw [Nearest, if_neg (not_overflow h0)] at h
  obtain ⟨-, -, -, hsign⟩ := h
  rcases eq_zero_of_isZero hz with rfl | rfl
  · rfl
  · exact absurd ((hsign hz).1 (by decide)) (lt_irrefl 0)

theorem eq_ONE_of_nearest_one {w : Word} (h : Nearest 1 w) : w = ONE := by
  have hone : (1 : ℝ) * 2 ^ 149 = val ONE := by rw [val_ONE]; norm_num
  have hval := val_eq_of_nearest h (by norm_num) isFinite_ONE hone
  exact eq_of_val_eq hval (by rw [hval, val_ONE]; positivity)

/-! ### Real numbers of binary32 words -/

theorem realOf_of_isZero {x : Word} (h : isZero x = true) : realOf x = 0 := by
  rw [realOf, (val_eq_zero x).2 h, Int.cast_zero, zero_div]

theorem realOf_ONE : realOf ONE = 1 := by
  rw [realOf, val_ONE]
  norm_num

theorem realOf_pos {x : Word} (h : 0 < val x) : 0 < realOf x :=
  div_pos (by exact_mod_cast h) (by positivity)

theorem realOf_nonpos {x : Word} (h : val x ≤ 0) : realOf x ≤ 0 :=
  div_nonpos_of_nonpos_of_nonneg (by exact_mod_cast h) (by positivity)

/-- A positive finite word lies between 2^-149 and 2^128. -/
theorem realOf_between {x : Word} (hx : isFinite x = true) (h : 0 < val x) :
    ((2 : ℝ) ^ 149)⁻¹ ≤ realOf x ∧ realOf x ≤ 2 ^ 128 := by
  have hlo : (1 : ℝ) ≤ val x := by exact_mod_cast h
  have hhi : (val x : ℝ) ≤ 2 ^ 128 * 2 ^ 149 := by
    rw [isFinite_iff_val, abs_of_pos h, magOf_inf] at hx
    have : val x ≤ 2 ^ 128 * 2 ^ 149 := by
      push_cast at hx
      omega
    exact_mod_cast this
  constructor
  · rw [realOf, inv_eq_one_div]
    exact div_le_div_of_nonneg_right hlo (by positivity)
  · rw [realOf, div_le_iff₀ (by positivity)]
    exact hhi

/-- The logarithm of a positive finite word is small. -/
theorem abs_log_le {x : Word} (hx : isFinite x = true) (h : 0 < val x) :
    |Real.log (realOf x)| ≤ 149 := by
  obtain ⟨hlo, hhi⟩ := realOf_between hx h
  have hpos := realOf_pos h
  have htwo : Real.log 2 ≤ 1 := by linarith [Real.log_two_lt_d9]
  have hlog_lo := Real.log_le_log (by positivity) hlo
  have hlog_hi := Real.log_le_log hpos hhi
  rw [Real.log_inv, Real.log_pow] at hlog_lo
  rw [Real.log_pow] at hlog_hi
  push_cast at hlog_lo hlog_hi
  have hnn : 0 ≤ Real.log 2 := Real.log_nonneg (by norm_num)
  rw [abs_le]
  constructor <;> linarith

theorem abs_logb_le {x : Word} (hx : isFinite x = true) (h : 0 < val x) :
    |Real.logb 10 (realOf x)| ≤ 149 := by
  have hten : 1 ≤ Real.log 10 := by
    rw [Real.le_log_iff_exp_le (by norm_num)]
    linarith [Real.exp_one_lt_d9]
  rw [Real.logb, abs_div, abs_of_pos (by linarith : 0 < Real.log 10)]
  exact (div_le_self (abs_nonneg _) hten).trans (abs_log_le hx h)

/-- The logarithm of a word below 1.0 is at most minus the smallest positive value. -/
theorem log_le_of_lt_ONE {x : Word} (h0 : 0 < val x) (h1 : val x < 2 ^ 149) :
    Real.log (realOf x) * 2 ^ 149 ≤ -1 := by
  have hle := Real.log_le_sub_one_of_pos (realOf_pos h0)
  have hval : (val x : ℝ) ≤ 2 ^ 149 - 1 := by exact_mod_cast Int.le_sub_one_of_lt h1
  have hreal : realOf x * 2 ^ 149 = val x := div_mul_cancel₀ _ (by positivity)
  calc Real.log (realOf x) * 2 ^ 149 ≤ (realOf x - 1) * 2 ^ 149 :=
        mul_le_mul_of_nonneg_right hle (by positivity)
    _ = val x - 2 ^ 149 := by rw [sub_mul, hreal, one_mul]
    _ ≤ -1 := by linarith

/-! ### The four functions (R17, R18) -/

section
variable {f : Word → Word}

theorem legalSin_of_nearest
    (hnear : ∀ x r, Denotes x r → isZero x = false → Nearest (Real.sin r) (f x))
    (hzero : ∀ x, isZero x = true → f x = x) : LegalSin f := by
  refine ⟨hzero _ (by decide), fun x hx => ?_⟩
  have hb : fle (neg ONE) (f x) = true ∧ fle (f x) ONE = true := by
    cases hz : isZero x
    · have h := hnear x _ (denotes_realOf hx) hz
      have hlo := Real.neg_one_le_sin (realOf x)
      have hhi := Real.sin_le_one (realOf x)
      have hr : |Real.sin (realOf x)| ≤ 149 := (Real.abs_sin_le_one _).trans (by norm_num)
      have hn := isNaN_of_nearest h
      refine ⟨fle_of_val_le (by decide) hn (le_val_of_nearest h hr (by decide) ?_),
        fle_of_val_le hn isNaN_ONE (val_le_of_nearest h hr isFinite_ONE ?_)⟩
      · rw [val_neg, val_ONE]
        push_cast
        linarith
      · rw [val_ONE]
        push_cast
        linarith
    · rw [hzero x hz]
      rcases eq_zero_of_isZero hz with rfl | rfl <;> decide +kernel
  exact ⟨isFinite_of_fle_ONE hb.1 hb.2, hb⟩

theorem canonicalSin_of_nearest
    (hnear : ∀ x r, Denotes x r → isZero x = false → Nearest (Real.sin r) (f x))
    (hzero : ∀ x, isZero x = true → f x = x) (hnan : ∀ x, isFinite x = false → f x = qNaN) :
    CanonicalNaN f := by
  intro x h
  cases hx : isFinite x
  · exact hnan x hx
  · cases hz : isZero x
    · rw [isNaN_of_nearest (hnear x _ (denotes_realOf hx) hz)] at h
      cases h
    · rw [hzero x hz, isNaN_of_isFinite hx] at h
      cases h

theorem legalExp_of_nearest (hnear : ∀ x r, Denotes x r → Nearest (Real.exp r) (f x))
    (hneg : f negInf = posZero) (hnan : ∀ x, isNaN x = true → f x = qNaN) : LegalExp f := by
  have hzero : ∀ x, isZero x = true → f x = ONE := fun x hz => by
    have h := hnear x _ (denotes_realOf (isFinite_of_isZero hz))
    rw [realOf_of_isZero hz, Real.exp_zero] at h
    exact eq_ONE_of_nearest_one h
  refine ⟨hneg, hzero _ (by decide), hzero _ (by decide), fun x hx => ?_, fun x hx => ?_⟩
  · cases hfin : isFinite x
    · rcases eq_inf_of_not_isFinite (isNaN_of_fle_left hx) hfin with rfl | rfl
      · exact absurd hx (by decide +kernel)
      · rw [hneg]
        decide +kernel
    · obtain ⟨-, -, hv⟩ := (fle_iff _ _).1 hx
      rw [val_posZero] at hv
      have h := hnear x _ (denotes_realOf hfin)
      have h0 := Real.exp_pos (realOf x)
      have h1 : Real.exp (realOf x) ≤ 1 := Real.exp_le_one_iff.2 (realOf_nonpos hv)
      have hr : |Real.exp (realOf x)| ≤ 149 := by rw [abs_of_pos h0]; linarith
      have hn := isNaN_of_nearest h
      refine ⟨fle_of_val_le isNaN_posZero hn (le_val_of_nearest h hr (by decide) ?_),
        fle_of_val_le hn isNaN_ONE (val_le_of_nearest h hr isFinite_ONE ?_)⟩
      · rw [val_posZero, Int.cast_zero]
        positivity
      · rw [val_ONE]
        push_cast
        linarith
  · rw [hnan x hx]
    decide

theorem canonicalExp_of_nearest (hnear : ∀ x r, Denotes x r → Nearest (Real.exp r) (f x))
    (hneg : f negInf = posZero) (hpos : f posInf = posInf)
    (hnan : ∀ x, isNaN x = true → f x = qNaN) : CanonicalNaN f := by
  intro x h
  cases hn : isNaN x
  · cases hx : isFinite x
    · rcases eq_inf_of_not_isFinite hn hx with rfl | rfl
      · rw [hpos] at h
        exact absurd h (by decide)
      · rw [hneg] at h
        exact absurd h (by decide)
    · rw [isNaN_of_nearest (hnear x _ (denotes_realOf hx))] at h
      cases h
  · exact hnan x hn

theorem legalLn_of_nearest (hnear : ∀ x r, Denotes x r → 0 < r → Nearest (Real.log r) (f x))
    (hzero : ∀ x, isZero x = true → f x = negInf) : LegalLn f := by
  refine ⟨hzero _ (by decide), hzero _ (by decide), ?_, fun x h0 h1 => ?_⟩
  · have h := hnear ONE _ (denotes_realOf isFinite_ONE) (by rw [realOf_ONE]; norm_num)
    rw [realOf_ONE, Real.log_one] at h
    exact eq_posZero_of_nearest_zero h
  · have hpos := val_pos_of_flt_posZero h0
    obtain ⟨-, -, hlt⟩ := (flt_iff _ _).1 h1
    have hx := isFinite_of_val_le isFinite_ONE hpos.le hlt.le
    rw [val_ONE] at hlt
    have h := hnear x _ (denotes_realOf hx) (realOf_pos hpos)
    have hr := abs_log_le hx hpos
    have hmin : val 0x80000001#32 = -1 := by decide +kernel
    have hle : val (f x) ≤ val 0x80000001#32 := by
      refine val_le_of_nearest h hr (by decide) ?_
      rw [hmin]
      push_cast
      exact log_le_of_lt_ONE hpos hlt
    refine ⟨isFinite_of_nearest h hr, (flt_iff _ _).2 ⟨isNaN_of_nearest h, isNaN_posZero, ?_⟩⟩
    rw [val_posZero]
    omega

theorem legalLog10_of_nearest (hnear : ∀ x r, Denotes x r → 0 < r → Nearest (Real.logb 10 r) (f x))
    (hzero : ∀ x, isZero x = true → f x = negInf) (hinf : f posInf = posInf)
    (hnan : ∀ x, isNaN x = true ∨ flt x posZero = true → f x = qNaN) : LegalLog10 f := by
  refine ⟨hzero _ (by decide), ?_, hinf, fun x hx => ?_, fun x hx h0 => ?_⟩
  · have h := hnear ONE _ (denotes_realOf isFinite_ONE) (by rw [realOf_ONE]; norm_num)
    rw [realOf_ONE, Real.logb_one] at h
    exact eq_posZero_of_nearest_zero h
  · rw [hnan x (.inl hx)]
    decide
  · have hpos := val_pos_of_flt_posZero h0
    exact isFinite_of_nearest (hnear x _ (denotes_realOf hx) (realOf_pos hpos)) (abs_logb_le hx hpos)

/-- A logarithm's results are infinities, rounded numbers, or the canonical NaN. -/
theorem canonicalLog_of_nearest {L : ℝ → ℝ} (hnear : ∀ x r, Denotes x r → 0 < r → Nearest (L r) (f x))
    (hzero : ∀ x, isZero x = true → f x = negInf) (hinf : f posInf = posInf)
    (hnan : ∀ x, isNaN x = true ∨ flt x posZero = true → f x = qNaN) : CanonicalNaN f := by
  intro x h
  cases hn : isNaN x
  · cases hx : isFinite x
    · rcases eq_inf_of_not_isFinite hn hx with rfl | rfl
      · rw [hinf] at h
        exact absurd h (by decide)
      · exact hnan _ (.inr (by decide +kernel))
    · rcases lt_trichotomy (val x) 0 with hlt | heq | hgt
      · exact hnan x (.inr ((flt_iff _ _).2 ⟨hn, isNaN_posZero, by rwa [val_posZero]⟩))
      · rw [hzero x ((val_eq_zero x).1 heq)] at h
        exact absurd h (by decide)
      · rw [isNaN_of_nearest (hnear x _ (denotes_realOf hx) (realOf_pos hgt))] at h
        cases h
  · exact hnan x (.inl hn)

end

/-- Settles O60: each function's special values are the reference's own, and its bounds are kept by rounding. -/
theorem referenceConfigurationIsLegal : Obligations.ReferenceConfigurationIsLegal := by
  rintro F ⟨hsin, hsin0, hsinNaN, hexp, hexpNeg, hexpPos, hexpNaN, hlog, hlog0, hlnInf, hlog10Inf,
    hlogNaN⟩
  have hln := fun x r hx hr => (hlog x r hx hr).1
  have hlog10 := fun x r hx hr => (hlog x r hx hr).2
  have hln0 := fun x hx => (hlog0 x hx).1
  have hlog100 := fun x hx => (hlog0 x hx).2
  have hlnNaN := fun x hx => (hlogNaN x hx).1
  have hlog10NaN := fun x hx => (hlogNaN x hx).2
  exact ⟨⟨legalSin_of_nearest hsin hsin0, canonicalSin_of_nearest hsin hsin0 hsinNaN⟩,
    ⟨legalExp_of_nearest hexp hexpNeg hexpNaN,
      canonicalExp_of_nearest hexp hexpNeg hexpPos hexpNaN⟩,
    ⟨legalLn_of_nearest hln hln0, canonicalLog_of_nearest hln hln0 hlnInf hlnNaN⟩,
    legalLog10_of_nearest hlog10 hlog100 hlog10Inf hlog10NaN,
    canonicalLog_of_nearest hlog10 hlog100 hlog10Inf hlog10NaN⟩

end Sys2Proof.Proofs
end
